-- ==== Sys2Proof/Word.lean ====
section
/-!
DEFINITION. The words of the block: bytes, byte strings and 32-bit register words (00_scope.md R7,
20_memory.md R60, R64). The block has no signed quantity and no fixed-width arithmetic on words other
than reading and writing bit fields (41_rsa_exponentiator.md R145).
-/

namespace Sys2Proof

/-- One byte of a byte string (R7). -/
abbrev Byte := BitVec 8

/-- A byte string: a finite sequence of bytes, indexed from 0 at the left (R7). -/
abbrev Bytes := List Byte

/-- A 32-bit register word, the unit of every host access (R28, R65). -/
abbrev Word := BitVec 32

end Sys2Proof
end

