-- ==== Sys2Proof/Machine/Bytes.lean ====
section
/-!
DEFINITION. Byte strings and natural numbers (00_scope.md R7, 20_memory.md R64): every conversion is
big-endian.
-/

namespace Sys2Proof.Machine

/-- `OS2IP(s)` (R7): first byte most significant, `OS2IP(empty) = 0`. -/
def os2ip (s : Bytes) : Nat := s.foldl (fun acc b => acc * 256 + b.toNat) 0

/-- `BN.byte(x, i)` (R8): byte i from the least significant; bytes beyond the number read as zero. -/
def byteOf (x i : Nat) : Byte := BitVec.ofNat 8 (x / 256 ^ i)

/-- `BN.bit(x, i)` (R8). -/
def bitOf (x i : Nat) : Nat := x / 2 ^ i % 2

/-- `I2OSP(x, k)` (R7): the k-byte string whose byte i is `BN.byte(x, k-1-i)`. -/
def i2osp (x k : Nat) : Bytes := (List.range k).map (fun i => byteOf x (k - 1 - i))

/-- `BE32(j)` (R7). -/
def be32 (j : Nat) : Bytes := i2osp (j % 2 ^ 32) 4

/-- `bitcount(x)` (R7): 0 for 0, else floor(log2 x) + 1. -/
def bitcount (x : Nat) : Nat := if x = 0 then 0 else Nat.log2 x + 1

/-- `kbytes(x)` (R7): ceil(bitcount(x) / 8). -/
def kbytes (x : Nat) : Nat := (bitcount x + 7) / 8

/-- `s XOR t` (R7): bytewise exclusive-or of two strings of equal length. -/
def xorBytes (s t : Bytes) : Bytes := List.zipWith (· ^^^ ·) s t

/-- `zeros(n)` (R7). -/
def zeros (n : Nat) : Bytes := List.replicate n 0#8

/-- `s[a:b]` (R7): the bytes at indices a <= i < b. -/
def slice (s : Bytes) (a b : Nat) : Bytes := (s.drop a).take (b - a)

end Sys2Proof.Machine
end

