-- ==== Sys2Proof/Machine/BigInt.lean ====
section
/-!
DEFINITION. The big-integer capability `BN` (00_scope.md R8): exact arithmetic on natural numbers. The two
operations whose defining formula cannot be evaluated at the sizes of a key, modpow and modinv, are written
as algorithms; Sys2Proof/Laws/BigInt.lean proves that they are the functions of R8.
-/

namespace Sys2Proof.Machine

/-- Square and multiply from the least significant bit: `acc * b^e mod m`, for e below `2^fuel`. -/
def modpowLoop (m : Nat) : Nat → Nat → Nat → Nat → Nat
  | 0, _, _, acc => acc
  | fuel + 1, b, e, acc =>
    modpowLoop m fuel (b * b % m) (e / 2) (if e % 2 = 1 then acc * b % m else acc)

/-- `BN.modpow(b, e, m) = (b^e) mod m` (R8), with `b^0 = 1` for every b. -/
def modpow (b e m : Nat) : Nat := modpowLoop m (bitcount e) (b % m) e (1 % m)

/-- Euclid's algorithm carrying the coefficient of a modulo m: from remainders `r0, r1` with `a*t0 = r0` and
`a*t1 = r1` modulo m, the gcd and its coefficient. -/
def euclidLoop (m : Nat) : Nat → Nat → Nat → Nat → Nat → Nat × Nat
  | 0, r0, _, t0, _ => (r0, t0)
  | fuel + 1, r0, r1, t0, t1 =>
    if r1 = 0 then (r0, t0)
    else euclidLoop m fuel r1 (r0 % r1) t1 ((t0 + (m - r0 / r1 * t1 % m)) % m)

/-- `BN.modinv(a, m)` (R8): the unique y in [0, m) with `a*y mod m = 1 mod m` when gcd(a, m) = 1, else none. -/
def modinv (a m : Nat) : Option Nat :=
  let r := euclidLoop m (m + 1) m (a % m) 0 (1 % m)
  if r.1 = 1 then some (r.2 % m) else none

/-- `BN.modmul(a, b, m)` (R8). -/
def modmul (a b m : Nat) : Nat := a * b % m

end Sys2Proof.Machine
end

