-- ==== Sys2Proof/Syntax.lean ====
section
/-!
DEFINITION. The command set RBX-1: one constructor for each row of the opcode map (30_encoding.md R92,
spec/opcode_table.json). The forms of LDR and CRTPOW are rows of their own, as in the map.
-/

namespace Sys2Proof

/-- A command of the block (R92). The one operand carried in a command word is MGFX's seed length S (R91);
every other operand is a register, a buffer or CFG. -/
inductive Instr where
  /-- NOP (R111). -/
  | nop
  /-- LDR.N (R112). -/
  | ldrN
  /-- LDR.E (R112). -/
  | ldrE
  /-- LDR.D (R112). -/
  | ldrD
  /-- LDR.P (R112). -/
  | ldrP
  /-- LDR.Q (R112). -/
  | ldrQ
  /-- LDR.IQMP (R112). -/
  | ldrIqmp
  /-- LDR.A (R112). -/
  | ldrA
  /-- LDR.X (R112). -/
  | ldrX
  /-- WIPEK (R113). -/
  | wipek
  /-- CLRIB (R114). -/
  | clrib
  /-- CLROB (R115). -/
  | clrob
  /-- CLRERR (R116). -/
  | clrerr
  /-- WIPEALL (R117). -/
  | wipeall
  /-- PUBOP (R132). -/
  | pubop
  /-- CRTPOW.E (R134). -/
  | crtpowE
  /-- CRTPOW.X (R134). -/
  | crtpowX
  /-- PRIVOP (R142). -/
  | privop
  /-- MGFX S, with S the seed length in bytes, IMM16 (R91, R172). -/
  | mgfx (seedLen : Nat)
  /-- OAEPENC (R174). -/
  | oaepenc
  /-- HMKEY (R194). -/
  | hmkey
  /-- HMSTART (R195). -/
  | hmstart
  /-- HMUPD (R196). -/
  | hmupd
  /-- HMFINAL (R197). -/
  | hmfinal
  /-- HMWIPE (R198). -/
  | hmwipe
  deriving DecidableEq, Repr

end Sys2Proof
end

