-- ==== Sys2Proof/WellFormed.lean ====
section
/-!
DEFINITION. Which commands a command word can carry (30_encoding.md R91).
-/

namespace Sys2Proof

/-- R91: IMM16 is an unsigned number 0 to 65535. Every other command carries no operand in its word and is
well formed as it stands. -/
def Instr.wf : Instr → Bool
  | .mgfx seedLen => decide (seedLen < 2 ^ 16)
  | .nop => true
  | .ldrN => true
  | .ldrE => true
  | .ldrD => true
  | .ldrP => true
  | .ldrQ => true
  | .ldrIqmp => true
  | .ldrA => true
  | .ldrX => true
  | .wipek => true
  | .clrib => true
  | .clrob => true
  | .clrerr => true
  | .wipeall => true
  | .pubop => true
  | .crtpowE => true
  | .crtpowX => true
  | .privop => true
  | .oaepenc => true
  | .hmkey => true
  | .hmstart => true
  | .hmupd => true
  | .hmfinal => true
  | .hmwipe => true

end Sys2Proof
end

