-- ==== Sys2Proof/Decode.lean ====
section
/-!
DEFINITION. The command encoding of 30_encoding.md: the fields of format CW (R90), the decoder, which
rejects an illegal word by name (R93), the encoder, and the opcode map as rows of match and mask (R92).
A command word is one 32-bit register value; it is never laid out in bytes (20_memory.md R64, R70).
-/

namespace Sys2Proof

/-- `OPC`, bits 7:0 (R90). -/
def fieldOpc (w : Word) : Nat := w.toNat % 0x100

/-- `SEL`, bits 11:8 (R90, R91). -/
def fieldSel (w : Word) : Nat := w.toNat / 0x100 % 0x10

/-- `RSV`, bits 15:12, must be 0 (R90). -/
def fieldRsv (w : Word) : Nat := w.toNat / 0x1000 % 0x10

/-- `IMM16`, bits 31:16, unsigned (R90, R91). -/
def fieldImm16 (w : Word) : Nat := w.toNat / 0x10000

/-- Why a command word is illegal, one name for each clause of R93. -/
inductive IllegalWord where
  /-- OPC is not an operation code of the map. -/
  | badOpcode
  /-- RSV != 0. -/
  | reservedBits
  /-- IMM16 != 0 in a command other than MGFX. -/
  | strayImm
  /-- SEL != 0 in a command other than LDR and CRTPOW. -/
  | straySel
  /-- SEL > 7 in LDR, or SEL not in the set 1, 7 in CRTPOW. -/
  | badRegister
  deriving DecidableEq, Repr

/-- What the decoder answers: a command, or the name of the clause of R93 that makes the word illegal. -/
inductive Decoded where
  | ok (i : Instr)
  | illegal (why : IllegalWord)
  deriving DecidableEq, Repr

/-- The form LDR.r that SEL names (R92); SEL 8 to 15 names no register (R93). -/
def decodeLdr : Nat → Option Instr
  | 0 => some .ldrN
  | 1 => some .ldrE
  | 2 => some .ldrD
  | 3 => some .ldrP
  | 4 => some .ldrQ
  | 5 => some .ldrIqmp
  | 6 => some .ldrA
  | 7 => some .ldrX
  | _ => none

/-- The form CRTPOW.r that SEL names (R92); only 1 and 7 are legal, in particular not the private exponent
(R93, 10_state.md R25). -/
def decodeCrtpow : Nat → Option Instr
  | 1 => some .crtpowE
  | 7 => some .crtpowX
  | _ => none

/-- The command of an operation code whose only form has SEL = 0 and IMM16 = 0 (R92). -/
def decodePlain : Nat → Option Instr
  | 0x00 => some .nop
  | 0x02 => some .wipek
  | 0x03 => some .clrib
  | 0x04 => some .clrob
  | 0x05 => some .clrerr
  | 0x06 => some .wipeall
  | 0x10 => some .pubop
  | 0x12 => some .privop
  | 0x21 => some .oaepenc
  | 0x30 => some .hmkey
  | 0x31 => some .hmstart
  | 0x32 => some .hmupd
  | 0x33 => some .hmfinal
  | 0x34 => some .hmwipe
  | _ => none

/-- The register form, or the refusal of the SEL that names none (R93). -/
def decodeForm : Option Instr → Decoded
  | some i => .ok i
  | none => .illegal .badRegister

/-- Decode a command word (R92, R93). Total: every word is a command or is illegal by name. -/
def decode (w : Word) : Decoded :=
  let opc := fieldOpc w
  let sel := fieldSel w
  if fieldRsv w ≠ 0 then .illegal .reservedBits
  else if opc = 0x20 then
    if sel ≠ 0 then .illegal .straySel else .ok (.mgfx (fieldImm16 w))
  else if fieldImm16 w ≠ 0 then .illegal .strayImm
  else if opc = 0x01 then decodeForm (decodeLdr sel)
  else if opc = 0x11 then decodeForm (decodeCrtpow sel)
  else
    match decodePlain opc with
    | none => .illegal .badOpcode
    | some i => if sel ≠ 0 then .illegal .straySel else .ok i

/-- Assemble the fields of format CW (R90), RSV = 0. -/
def assemble (opc sel imm16 : Nat) : Word :=
  BitVec.ofNat 32 (opc % 0x100 + sel % 0x10 * 0x100 + imm16 % 0x10000 * 0x10000)

/-- Encode a command (R92: columns OPC, SEL, IMM16). On a command that is not well formed the immediate is
cut to its 16 bits. -/
def encode : Instr → Word
  | .nop => assemble 0x00 0 0
  | .ldrN => assemble 0x01 0 0
  | .ldrE => assemble 0x01 1 0
  | .ldrD => assemble 0x01 2 0
  | .ldrP => assemble 0x01 3 0
  | .ldrQ => assemble 0x01 4 0
  | .ldrIqmp => assemble 0x01 5 0
  | .ldrA => assemble 0x01 6 0
  | .ldrX => assemble 0x01 7 0
  | .wipek => assemble 0x02 0 0
  | .clrib => assemble 0x03 0 0
  | .clrob => assemble 0x04 0 0
  | .clrerr => assemble 0x05 0 0
  | .wipeall => assemble 0x06 0 0
  | .pubop => assemble 0x10 0 0
  | .crtpowE => assemble 0x11 1 0
  | .crtpowX => assemble 0x11 7 0
  | .privop => assemble 0x12 0 0
  | .mgfx seedLen => assemble 0x20 0 seedLen
  | .oaepenc => assemble 0x21 0 0
  | .hmkey => assemble 0x30 0 0
  | .hmstart => assemble 0x31 0 0
  | .hmupd => assemble 0x32 0 0
  | .hmfinal => assemble 0x33 0 0
  | .hmwipe => assemble 0x34 0 0

/-- The opcode map of R92 as its columns "mask" and "word (match)", in the map's order. A word is legal
exactly when it matches a row (R93). -/
def opcodeRows : List (Word × Word) :=
  [ (0xFFFFFFFF#32, 0x00000000#32), (0xFFFFFFFF#32, 0x00000001#32), (0xFFFFFFFF#32, 0x00000101#32),
    (0xFFFFFFFF#32, 0x00000201#32), (0xFFFFFFFF#32, 0x00000301#32), (0xFFFFFFFF#32, 0x00000401#32),
    (0xFFFFFFFF#32, 0x00000501#32), (0xFFFFFFFF#32, 0x00000601#32), (0xFFFFFFFF#32, 0x00000701#32),
    (0xFFFFFFFF#32, 0x00000002#32), (0xFFFFFFFF#32, 0x00000003#32), (0xFFFFFFFF#32, 0x00000004#32),
    (0xFFFFFFFF#32, 0x00000005#32), (0xFFFFFFFF#32, 0x00000006#32), (0xFFFFFFFF#32, 0x00000010#32),
    (0xFFFFFFFF#32, 0x00000111#32), (0xFFFFFFFF#32, 0x00000711#32), (0xFFFFFFFF#32, 0x00000012#32),
    (0x0000FFFF#32, 0x00000020#32), (0xFFFFFFFF#32, 0x00000021#32), (0xFFFFFFFF#32, 0x00000030#32),
    (0xFFFFFFFF#32, 0x00000031#32), (0xFFFFFFFF#32, 0x00000032#32), (0xFFFFFFFF#32, 0x00000033#32),
    (0xFFFFFFFF#32, 0x00000034#32) ]

/-- The command of a decoder's answer. -/
def Decoded.instr? : Decoded → Option Instr
  | .ok i => some i
  | .illegal _ => none

/-- The command the decoder reads from a table word: bit 0 of `w` is bit 0 of the command word, and the bits
above `nbits` are 0. A word wider than 32 bits is no command word (R90: there is one length). -/
def decodeTableWord (nbits w : Nat) : Option Instr :=
  let v := w % 2 ^ nbits
  if v < 2 ^ 32 then (decode (BitVec.ofNat 32 v)).instr? else none

end Sys2Proof
end

