-- ==== Sys2Proof/Config.lean ====
section
/-!
DEFINITION. What the platform or the implementation fixes: the names of the hash algorithms (00_scope.md
R13), the implementation parameters of R5 with their constraints, and the one free value of the model,
the bytes of the random source (R10).
-/

namespace Sys2Proof

/-- The hash algorithms R13 names; HSEL 4 to 15 name none. -/
inductive HashAlg where
  | md5
  | sha1
  | sha256
  | sha512
  deriving DecidableEq, Repr

/-- The implementation parameters of R5. They are constants of a machine; the model keeps them in `State`
(DESIGN CHOICE, log entry 3), so that a claim about every state holds for every value of them. -/
structure Params where
  /-- `KMAX`: largest byte length LDR accepts for a big-integer register. -/
  kmax : Nat
  /-- `IBMAX`: capacity of IBUF. -/
  ibmax : Nat
  /-- `OBMAX`: capacity of OBUF. -/
  obmax : Nat
  /-- `ID_VALUE`: value of the ID register. -/
  idValue : Word
  /-- `BASE[i]`: byte address of the register window of instance i. -/
  bases : List Nat
  deriving DecidableEq, Repr

/-- The constraints R5 puts on the parameters: KMAX >= 1, KMAX <= IBMAX < 2^16, OBMAX >= max(IBMAX, KMAX,
64), at least one instance, each base a multiple of 0x40 and the windows disjoint (bases that are
multiples of the window size are disjoint windows exactly when they differ). -/
def Params.ok (p : Params) : Bool :=
  decide (1 ≤ p.kmax) && decide (p.kmax ≤ p.ibmax) && decide (p.ibmax < 2 ^ 16)
    && decide (p.ibmax ≤ p.obmax) && decide (p.kmax ≤ p.obmax) && decide (64 ≤ p.obmax)
    && decide (1 ≤ p.bases.length) && p.bases.all (fun b => b % 0x40 == 0) && decide p.bases.Nodup

/-- The values R5 suggests for KMAX, IBMAX, OBMAX and ID_VALUE; one instance with its window at address 0,
which R5 leaves open (DESIGN CHOICE, unsafe, log entries 3 and 4). -/
def Params.suggested : Params :=
  { kmax := 512, ibmax := 4096, obmax := 4096, idValue := 0x52425831#32, bases := [0] }

/-- FREE VALUE (log entry 6): the k-th byte the random byte source has given since power-on. R10: "The
document states no law of it"; nothing constrains it. Used by OAEPENC only (R174). -/
opaque Config.drawByte : Nat → Byte

end Sys2Proof
end

