-- ==== Sys2Proof/Machine/State.lean ====
section
/-!
DEFINITION. The state of the machine (10_state.md), its reset value (R41, R251) and the reasons a step can
stop. State is per instance; the platform's state is the list of its instances and the model's own
bookkeeping of what the agents outside the block do.
-/

namespace Sys2Proof.Machine

/-- The eight big-integer registers of R20, in index order. -/
inductive BigReg where
  | n
  | e
  | d
  | p
  | q
  | iqmp
  | a
  | x
  deriving DecidableEq, Repr

/-- The register file (R20, R21): each register is `absent` (none) or a natural number. -/
structure RegFile where
  n : Option Nat
  e : Option Nat
  d : Option Nat
  p : Option Nat
  q : Option Nat
  iqmp : Option Nat
  a : Option Nat
  x : Option Nat
  deriving DecidableEq, Repr

/-- CFG (R31): the three fields that have storage; the reserved bits have none. -/
structure Cfg where
  hsel : BitVec 4
  bugkey : Bool
  outlen : BitVec 6
  deriving DecidableEq, Repr

/-- IRQ_EN (R32). -/
structure IrqEn where
  doneIe : Bool
  errIe : Bool
  deriving DecidableEq, Repr

/-- `HM_STATE` (R34, R35). -/
inductive HmState where
  | unkeyed
  | idle
  | live
  deriving DecidableEq, Repr

/-- An incremental hash state as 00_scope.md R9 lets a model represent it: the algorithm and the byte string
absorbed so far (DESIGN CHOICE, safe, log entry 8). -/
structure HashState where
  alg : HashAlg
  absorbed : Bytes
  deriving DecidableEq, Repr

/-- The MAC context (R34). -/
structure MacCtx where
  /-- `HM_STATE`. -/
  state : HmState
  /-- `HM_HSEL`, the hash latched by HMKEY. -/
  hsel : HashAlg
  /-- `HM_OUTLEN`, the advertised output length. -/
  outlen : Nat
  /-- `OUTER`. -/
  outer : Option HashState
  /-- `INNER`. -/
  inner : Option HashState
  /-- `LIVE`. -/
  live : Option HashState
  /-- `DIG`, 64 bytes. -/
  dig : Bytes
  deriving DecidableEq, Repr

/-- The hidden scratch items of R37. R37 lets a model leave them out; they are kept so that its invariant, all
zero whenever BUSY = 0, is a statement about this model. A wiped byte string is the empty one (DESIGN CHOICE,
safe, log entry 9). -/
structure Scratch where
  /-- The blinding factor r. -/
  r : Nat
  /-- Its inverse. -/
  rInv : Nat
  /-- Its encryption. -/
  rEnc : Nat
  /-- The blinded input. -/
  xb : Nat
  /-- The blinded result. -/
  yb : Nat
  /-- The result before it is written to OBUF. -/
  y : Nat
  /-- CRT temporaries: the reduced exponents, the partial results, the difference, the product. -/
  pexp : Nat
  qexp : Nat
  presult : Nat
  qresult : Nat
  diff : Nat
  product : Nat
  /-- The KDF block number and digest buffer. -/
  kdfCounter : Nat
  kdfDigest : Bytes
  /-- The k-byte OAEP block EM. -/
  em : Bytes
  /-- The MGF hash block. -/
  mgfBlock : Bytes
  /-- The HMAC pad blocks, outer then inner. -/
  pads : Bytes
  /-- The effective key (the hashed long key of R192). -/
  effKey : Bytes
  deriving DecidableEq, Repr

/-- One RBX instance: everything 10_state.md gives it. -/
structure Instance where
  /-- The register file (R20). -/
  regs : RegFile
  /-- `IBUF` (R26). -/
  ibuf : Bytes
  /-- `OBUF` (R27). -/
  obuf : Bytes
  /-- `CFG` (R31). -/
  cfg : Cfg
  /-- `IRQ_EN` (R32). -/
  irqEn : IrqEn
  /-- `BUSY` (R36). -/
  busy : Bool
  /-- `DONE` (R36). -/
  done : Bool
  /-- `OVR`, sticky (R36). -/
  ovr : Bool
  /-- `ERR`, sticky, 8 bits (R36, R222). -/
  err : BitVec 8
  /-- `CMDL`, the last launched command word (R29, R36). -/
  cmdl : Word
  /-- The MAC context (R34). -/
  mac : MacCtx
  /-- The hidden scratch (R37). -/
  scratch : Scratch
  /-- The level of the reset input (70_reset_and_hazards.md R250). -/
  inReset : Bool
  deriving DecidableEq, Repr

/-- The causes of a refusal, in the order of R222's codes 0x01 to 0x08 (60_exceptions.md R222). -/
inductive ErrCode where
  /-- ERR_ILLEGAL: the launched word matches no row of the opcode map. -/
  | illegal
  /-- ERR_CFG: HSEL > 3, or for HMKEY also OUTLEN > H. -/
  | cfg
  /-- ERR_NOREG: a register the command reads is absent. -/
  | noReg
  /-- ERR_KEYRANGE: `KeyRangeOK` fails. -/
  | keyRange
  /-- ERR_LEN: an operand longer than KMAX, or a seed length above len(IBUF). -/
  | len
  /-- ERR_ZEROMOD: a zero modulus. -/
  | zeroMod
  /-- ERR_OAEP_LEN: the OAEP size contract is broken. -/
  | oaepLen
  /-- ERR_HM_STATE: HM_STATE is not the one the command needs. -/
  | hmState
  deriving DecidableEq, Repr

/-- One move of an agent outside or inside the block (00_scope.md R6). Which agent moves next is data: the
list `State.turns` (DESIGN CHOICE, log entry 1). -/
inductive Turn where
  /-- The host reads `width` bits at byte address `addr` (20_memory.md R62). -/
  | read (addr width : Nat)
  /-- The host writes `v`, `width` bits wide, at byte address `addr` (20_memory.md R63). -/
  | write (addr width : Nat) (v : Word)
  /-- The sequencer of instance k may take its completion step now (10_state.md R40). -/
  | sequencer (k : Nat)
  /-- The platform asserts (true) or releases (false) the reset input of instance k (R250). -/
  | reset (k : Nat) (asserted : Bool)
  deriving DecidableEq, Repr

/-- The state of the platform: its instances (00_scope.md R5, R6, 60_exceptions.md R230) and the model's own
fields. -/
structure State where
  /-- The implementation parameters of R5, which no step changes (model's own field, log entry 3). -/
  params : Params
  /-- The `NINST` instances. -/
  insts : List Instance
  /-- The instance the turn being taken addresses (model's own field, log entry 2). -/
  sel : Nat
  /-- The moves still to come, oldest first (model's own field, log entry 1). -/
  turns : List Turn
  /-- The values MemRead has returned to the host, oldest first (model's own field, log entry 5). -/
  hostSaw : List Word
  /-- How many bytes the random source has given (model's own field, the index of the free value
  `Config.drawByte`, log entry 6). -/
  draws : Nat
  deriving DecidableEq, Repr

/-- A step that stops because the model's own bookkeeping is inconsistent. The spec gives the block no fault
of its own: every refusal of a command is a next state (60_exceptions.md R220, R224). -/
inductive Fault where
  /-- `exec` was asked to run a command in an instance that does not exist (`sel` names none). Raised by
  `runCommand`; `step` never raises it. Safe. -/
  | noInstance
  deriving DecidableEq, Repr

/-- A step the model gives no meaning, because the spec gives none. -/
inductive Refusal where
  /-- An arm of `exec` that has no meaning yet. Raised by no arm now. Safe. -/
  | notModelled (mnemonic : String)
  /-- A host access that is not 32 bits wide or not at a multiple of 4 (20_memory.md R65: "a model refuses a
  host move that makes one"). Raised by the bus. Safe. -/
  | undefinedAccess
  /-- A host access at an address in no instance's window (20_memory.md R61: "not the block's and the spec
  says nothing of them"). Raised by the bus. Safe. -/
  | outsideWindows
  /-- A turn for an instance the platform does not have. Raised by the bus. Safe. -/
  | noSuchInstance
  deriving DecidableEq, Repr

/-- R41: every register absent. -/
def RegFile.absent : RegFile :=
  { n := none, e := none, d := none, p := none, q := none, iqmp := none, a := none, x := none }

/-- R41: CFG is 0. -/
def Cfg.zero : Cfg := { hsel := 0#4, bugkey := false, outlen := 0#6 }

/-- R34, R41: the 64 zero bytes of DIG. -/
def digZero : Bytes := List.replicate 64 0#8

/-- R41: a context into which no key has been installed. -/
def MacCtx.unkeyed : MacCtx :=
  { state := .unkeyed, hsel := .md5, outlen := 0, outer := none, inner := none, live := none, dig := digZero }

/-- R37, R41: every scratch item zero. -/
def Scratch.zero : Scratch :=
  { r := 0, rInv := 0, rEnc := 0, xb := 0, yb := 0, y := 0, pexp := 0, qexp := 0, presult := 0, qresult := 0,
    diff := 0, product := 0, kdfCounter := 0, kdfDigest := [], em := [], mgfBlock := [], pads := [], effKey := [] }

/-- The reset state of an instance (R41, R251), its reset input released. -/
def Instance.reset : Instance :=
  { regs := .absent, ibuf := [], obuf := [], cfg := .zero, irqEn := { doneIe := false, errIe := false },
    busy := false, done := false, ovr := false, err := 0#8, cmdl := 0#32, mac := .unkeyed, scratch := .zero,
    inReset := false }

/-- The platform right after power-on reset, for any parameters: every instance in its reset state (R230: "start
in the same reset state"), no move pending. -/
def State.resetWith (p : Params) : State :=
  { params := p, insts := p.bases.map (fun _ => Instance.reset), sel := 0, turns := [], hostSaw := [], draws := 0 }

/-- The machine right after reset, with the parameters R5 suggests. -/
def State.reset : State := State.resetWith Params.suggested

end Sys2Proof.Machine
end

