-- ==== Sys2Proof/Machine/Crt.lean ====
section
/-!
DEFINITION. CRT recombination (41_rsa_exponentiator.md R131, R133).
-/

namespace Sys2Proof.Machine

/-- `KeyRangeOK` (R131). -/
def keyRangeOk (n p q : Nat) : Bool := decide (2 ≤ n) && decide (2 ≤ q) && decide (q < p)

/-- The exponent reduced for a prime s: `BN.mod(exp, BN.dec(s))` (R133). -/
def crtExponent (exp s : Nat) : Nat := exp % (s - 1)

/-- The partial result modulo s (R133). -/
def crtPartial (base exp s : Nat) : Nat := modpow base (crtExponent exp s) s

/-- R133: "adjusting presult upward by p first if presult < qresult". -/
def crtRaise (presult qresult p : Nat) : Nat := if presult < qresult then presult + p else presult

/-- `diff` of R133. -/
def crtDiff (base exp p q : Nat) : Nat :=
  crtRaise (crtPartial base exp p) (crtPartial base exp q) p - crtPartial base exp q

/-- `CrtModpow(base, exp, n, p, q, u)` (R133): the whole sum is reduced modulo n. -/
def crtModpow (base exp n p q u : Nat) : Nat := (crtPartial base exp q + crtDiff base exp p q * u * q) % n

/-- The CRT temporaries of R37 that one `CrtModpow` leaves until they are wiped. -/
def crtScratch (sc : Scratch) (base exp p q u : Nat) : Scratch :=
  { sc with
    pexp := crtExponent exp p
    qexp := crtExponent exp q
    presult := crtRaise (crtPartial base exp p) (crtPartial base exp q) p
    qresult := crtPartial base exp q
    diff := crtDiff base exp p q
    product := crtDiff base exp p q * u * q }

end Sys2Proof.Machine
end

