-- ==== Sys2Proof/Machine/HashBlocks.lean ====
section
/-!
DEFINITION. What the four hash algorithms share (00_scope.md R13): cutting a byte string into blocks and the
padding of a message to whole blocks. The algorithms are those R13 names, MD5 as in RFC 1321, SHA-1, SHA-256
and SHA-512 as in FIPS 180; the spec's document defines none of them (PRESUMED, unsafe, log entry 7).
-/

namespace Sys2Proof.Machine

/-- Cut a byte string into pieces of `k` bytes, the last one shorter if need be; `fuel` bounds the number of
pieces. -/
def pieces (k : Nat) : Nat → Bytes → List Bytes
  | 0, _ => []
  | fuel + 1, s => if s.isEmpty then [] else s.take k :: pieces k fuel (s.drop k)

/-- All pieces of `k >= 1` bytes of a byte string. -/
def allPieces (k : Nat) (s : Bytes) : List Bytes := pieces k s.length s

/-- The padding of a message to whole blocks of `blk` bytes: 0x80, zeros, then the field holding the message
length in bits. -/
def padMessage (blk : Nat) (s lengthField : Bytes) : Bytes :=
  s ++ [0x80#8] ++ zeros ((blk - (s.length + 1 + lengthField.length) % blk) % blk) ++ lengthField

end Sys2Proof.Machine
end

