-- ==== Sys2Proof/Machine/Md5.lean ====
section
/-!
DEFINITION. MD5 as in RFC 1321 (00_scope.md R13; PRESUMED, unsafe, log entry 7).
-/

namespace Sys2Proof.Machine

/-- The four chaining words of MD5. -/
structure Md5State where
  a : BitVec 32
  b : BitVec 32
  c : BitVec 32
  d : BitVec 32
  deriving DecidableEq, Repr

/-- The 64 additive constants: the integer parts of 2^32 * abs(sin(t+1)). -/
def md5K : List (BitVec 32) :=
    [0xd76aa478#32, 0xe8c7b756#32, 0x242070db#32, 0xc1bdceee#32, 0xf57c0faf#32, 0x4787c62a#32, 0xa8304613#32, 0xfd469501#32]
    ++ [0x698098d8#32, 0x8b44f7af#32, 0xffff5bb1#32, 0x895cd7be#32, 0x6b901122#32, 0xfd987193#32, 0xa679438e#32, 0x49b40821#32]
    ++ [0xf61e2562#32, 0xc040b340#32, 0x265e5a51#32, 0xe9b6c7aa#32, 0xd62f105d#32, 0x02441453#32, 0xd8a1e681#32, 0xe7d3fbc8#32]
    ++ [0x21e1cde6#32, 0xc33707d6#32, 0xf4d50d87#32, 0x455a14ed#32, 0xa9e3e905#32, 0xfcefa3f8#32, 0x676f02d9#32, 0x8d2a4c8a#32]
    ++ [0xfffa3942#32, 0x8771f681#32, 0x6d9d6122#32, 0xfde5380c#32, 0xa4beea44#32, 0x4bdecfa9#32, 0xf6bb4b60#32, 0xbebfbc70#32]
    ++ [0x289b7ec6#32, 0xeaa127fa#32, 0xd4ef3085#32, 0x04881d05#32, 0xd9d4d039#32, 0xe6db99e5#32, 0x1fa27cf8#32, 0xc4ac5665#32]
    ++ [0xf4292244#32, 0x432aff97#32, 0xab9423a7#32, 0xfc93a039#32, 0x655b59c3#32, 0x8f0ccc92#32, 0xffeff47d#32, 0x85845dd1#32]
    ++ [0x6fa87e4f#32, 0xfe2ce6e0#32, 0xa3014314#32, 0x4e0811a1#32, 0xf7537e82#32, 0xbd3af235#32, 0x2ad7d2bb#32, 0xeb86d391#32]

/-- The rotation amounts, four for each of the four rounds. -/
def md5Shift (t : Nat) : Nat :=
  match t / 16, t % 4 with
  | 0, 0 => 7
  | 0, 1 => 12
  | 0, 2 => 17
  | 0, _ => 22
  | 1, 0 => 5
  | 1, 1 => 9
  | 1, 2 => 14
  | 1, _ => 20
  | 2, 0 => 4
  | 2, 1 => 11
  | 2, 2 => 16
  | 2, _ => 23
  | _, 0 => 6
  | _, 1 => 10
  | _, 2 => 15
  | _, _ => 21

/-- Which message word step t adds. -/
def md5Index (t : Nat) : Nat :=
  match t / 16 with
  | 0 => t
  | 1 => (5 * t + 1) % 16
  | 2 => (3 * t + 5) % 16
  | _ => 7 * t % 16

/-- The round functions F, G, H, I. -/
def md5F (t : Nat) (b c d : BitVec 32) : BitVec 32 :=
  match t / 16 with
  | 0 => (b &&& c) ||| (~~~b &&& d)
  | 1 => (b &&& d) ||| (c &&& ~~~d)
  | 2 => b ^^^ c ^^^ d
  | _ => c ^^^ (b ||| ~~~d)

/-- The 64 steps over one block of message words; the list holds the constants still to come. -/
def md5Steps (m : List (BitVec 32)) : Nat → List (BitVec 32) → Md5State → Md5State
  | _, [], s => s
  | t, k :: ks, s =>
    let sum := s.a + md5F t s.b s.c s.d + k + m.getD (md5Index t) 0#32
    md5Steps m (t + 1) ks { a := s.d, b := s.b + sum.rotateLeft (md5Shift t), c := s.b, d := s.c }

/-- A little-endian 32-bit word of a block. -/
def leWord32 (s : Bytes) : BitVec 32 := BitVec.ofNat 32 (os2ip s.reverse)

/-- The compression of one 64-byte block. -/
def md5Block (s : Md5State) (blk : Bytes) : Md5State :=
  let r := md5Steps ((allPieces 4 blk).map leWord32) 0 md5K s
  { a := s.a + r.a, b := s.b + r.b, c := s.c + r.c, d := s.d + r.d }

/-- The four bytes of a word, least significant first. -/
def leBytes32 (w : BitVec 32) : Bytes := (i2osp w.toNat 4).reverse

/-- MD5 of a byte string: 16 bytes. -/
def md5 (s : Bytes) : Bytes :=
  let padded := padMessage 64 s (i2osp (8 * s.length) 8).reverse
  let r := (allPieces 64 padded).foldl md5Block
    { a := 0x67452301#32, b := 0xefcdab89#32, c := 0x98badcfe#32, d := 0x10325476#32 }
  leBytes32 r.a ++ leBytes32 r.b ++ leBytes32 r.c ++ leBytes32 r.d

end Sys2Proof.Machine
end

