-- ==== Sys2Proof/Machine/Sha1.lean ====
section
/-!
DEFINITION. SHA-1 as in FIPS 180 (00_scope.md R13; PRESUMED, unsafe, log entry 7).
-/

namespace Sys2Proof.Machine

/-- The five chaining words of SHA-1. -/
structure Sha1State where
  a : BitVec 32
  b : BitVec 32
  c : BitVec 32
  d : BitVec 32
  e : BitVec 32
  deriving DecidableEq, Repr

/-- A big-endian 32-bit word of a block. -/
def beWord32 (s : Bytes) : BitVec 32 := BitVec.ofNat 32 (os2ip s)

/-- The four bytes of a word, most significant first. -/
def beBytes32 (w : BitVec 32) : Bytes := i2osp w.toNat 4

/-- Extend the message schedule by `n` words; the list holds the words so far, newest first. -/
def sha1Schedule : Nat → List (BitVec 32) → List (BitVec 32)
  | 0, w => w
  | n + 1, w =>
    sha1Schedule n
      ((w.getD 2 0#32 ^^^ w.getD 7 0#32 ^^^ w.getD 13 0#32 ^^^ w.getD 15 0#32).rotateLeft 1 :: w)

/-- The round functions Ch, Parity, Maj, Parity. -/
def sha1F (t : Nat) (b c d : BitVec 32) : BitVec 32 :=
  match t / 20 with
  | 0 => (b &&& c) ^^^ (~~~b &&& d)
  | 1 => b ^^^ c ^^^ d
  | 2 => (b &&& c) ^^^ (b &&& d) ^^^ (c &&& d)
  | _ => b ^^^ c ^^^ d

/-- The round constants. -/
def sha1K (t : Nat) : BitVec 32 :=
  match t / 20 with
  | 0 => 0x5a827999#32
  | 1 => 0x6ed9eba1#32
  | 2 => 0x8f1bbcdc#32
  | _ => 0xca62c1d6#32

/-- The rounds over the schedule words still to come. -/
def sha1Rounds : Nat → List (BitVec 32) → Sha1State → Sha1State
  | _, [], s => s
  | t, w :: ws, s =>
    sha1Rounds (t + 1) ws
      { a := s.a.rotateLeft 5 + sha1F t s.b s.c s.d + s.e + sha1K t + w, b := s.a, c := s.b.rotateLeft 30, d := s.c,
        e := s.d }

/-- The compression of one 64-byte block. -/
def sha1Block (s : Sha1State) (blk : Bytes) : Sha1State :=
  let r := sha1Rounds 0 (sha1Schedule 64 ((allPieces 4 blk).map beWord32).reverse).reverse s
  { a := s.a + r.a, b := s.b + r.b, c := s.c + r.c, d := s.d + r.d, e := s.e + r.e }

/-- SHA-1 of a byte string: 20 bytes. -/
def sha1 (s : Bytes) : Bytes :=
  let padded := padMessage 64 s (i2osp (8 * s.length) 8)
  let r := (allPieces 64 padded).foldl sha1Block
    { a := 0x67452301#32, b := 0xefcdab89#32, c := 0x98badcfe#32, d := 0x10325476#32, e := 0xc3d2e1f0#32 }
  beBytes32 r.a ++ beBytes32 r.b ++ beBytes32 r.c ++ beBytes32 r.d ++ beBytes32 r.e

end Sys2Proof.Machine
end

