-- ==== Sys2Proof/Machine/Hash.lean ====
section
/-!
DEFINITION. The hash capability (00_scope.md R9) and the table of R13: the selector HSEL, the block and digest
lengths, the function, and the incremental states init, update, clone, final.
-/

namespace Sys2Proof.Machine

/-- The algorithm HSEL selects (R13); 4 to 15 are reserved. -/
def hashOfSel (hsel : BitVec 4) : Option HashAlg :=
  match hsel.toNat with
  | 0 => some .md5
  | 1 => some .sha1
  | 2 => some .sha256
  | 3 => some .sha512
  | _ => none

/-- `B`, the block length in bytes (R13). -/
def blockLen : HashAlg → Nat
  | .md5 => 64
  | .sha1 => 64
  | .sha256 => 64
  | .sha512 => 128

/-- `H`, the digest length in bytes (R13). -/
def digestLen : HashAlg → Nat
  | .md5 => 16
  | .sha1 => 20
  | .sha256 => 32
  | .sha512 => 64

/-- `Hash_h(s)` (R9, R13). -/
def hash : HashAlg → Bytes → Bytes
  | .md5, s => md5 s
  | .sha1, s => sha1 s
  | .sha256, s => sha256 s
  | .sha512, s => sha512 s

/-- `HS.init(h)` (R9): a fresh state. -/
def hsInit (h : HashAlg) : HashState := { alg := h, absorbed := [] }

/-- `HS.update(s, bytes)` (R9). -/
def hsUpdate (st : HashState) (s : Bytes) : HashState := { st with absorbed := st.absorbed ++ s }

/-- `HS.clone(s)` (R9): an independent copy, which for a value is the value. -/
def hsClone (st : HashState) : HashState := st

/-- `HS.final(s)` (R9): the digest of what was absorbed. -/
def hsFinal (st : HashState) : Bytes := hash st.alg st.absorbed

end Sys2Proof.Machine
end

