-- ==== Sys2Proof/Machine/Operands.lean ====
section
/-!
DEFINITION. The operand forms of the commands (30_encoding.md R91): a big-integer register, the whole of
IBUF as a number or a byte string, the hash CFG selects; and the guards that check them
(60_exceptions.md R222, R223).
-/

namespace Sys2Proof.Machine

/-- `x[r]` (00_scope.md R11, 10_state.md R20). -/
def readReg (f : RegFile) : BigReg → Option Nat
  | .n => f.n
  | .e => f.e
  | .d => f.d
  | .p => f.p
  | .q => f.q
  | .iqmp => f.iqmp
  | .a => f.a
  | .x => f.x

/-- `x[r] <- v` (R11); the old content is overwritten. -/
def writeReg (f : RegFile) (r : BigReg) (v : Nat) : RegFile :=
  match r with
  | .n => { f with n := some v }
  | .e => { f with e := some v }
  | .d => { f with d := some v }
  | .p => { f with p := some v }
  | .q => { f with q := some v }
  | .iqmp => { f with iqmp := some v }
  | .a => { f with a := some v }
  | .x => { f with x := some v }

/-- `KBYTES` (R23): the byte length k of the modulus, 0 when it is absent. -/
def modulusBytes (u : Instance) : Nat :=
  match u.regs.n with
  | some n => kbytes n
  | none => 0

/-- `KBITS` (R23). -/
def modulusBits (u : Instance) : Nat :=
  match u.regs.n with
  | some n => bitcount n
  | none => 0

/-- The number LDR reads: `OS2IP(IBUF)` (R112). -/
def ibufNumber (u : Instance) : Nat := os2ip u.ibuf

/-- The hash CFG.HSEL selects (R31, R170). -/
def cfgHash (u : Instance) : Option HashAlg := hashOfSel u.cfg.hsel

/-- The first guard that fails (60_exceptions.md R223: "reports the first that fails; later ones are not
evaluated"). -/
def firstFailing : List (Option ErrCode) → Option ErrCode
  | [] => none
  | some c :: _ => some c
  | none :: rest => firstFailing rest

/-- A guard: the condition that must hold, and the code raised when it does not. -/
def require (holds : Bool) (c : ErrCode) : Option ErrCode := if holds then none else some c

/-- ERR_NOREG (R222): every register in the list is present. -/
def requireRegs (u : Instance) (rs : List BigReg) : Option ErrCode :=
  require (rs.all (fun r => (readReg u.regs r).isSome)) .noReg

/-- ERR_KEYRANGE (R131, R222), evaluated after the registers are known to be present (R223). -/
def requireKeyRange (u : Instance) : Option ErrCode :=
  match u.regs.n, u.regs.p, u.regs.q with
  | some n, some p, some q => require (keyRangeOk n p q) .keyRange
  | _, _, _ => none

/-- ERR_CFG (R13, R222): HSEL <= 3. -/
def requireHash (u : Instance) : Option ErrCode := require (cfgHash u).isSome .cfg

/-- ERR_CFG at HMKEY (R194): CFG.OUTLEN <= H. -/
def requireOutlen (u : Instance) : Option ErrCode :=
  match cfgHash u with
  | some h => require (decide (u.cfg.outlen.toNat ≤ digestLen h)) .cfg
  | none => none

/-- ERR_OAEP_LEN (R174): `0 < L` and `L + 2H + 2 <= k`. -/
def requireOaepLen (u : Instance) : Option ErrCode :=
  match cfgHash u with
  | some h =>
    require (decide (0 < u.ibuf.length) && decide (u.ibuf.length + 2 * digestLen h + 2 ≤ modulusBytes u)) .oaepLen
  | none => none

end Sys2Proof.Machine
end

