-- ==== Sys2Proof/Machine/Flags.lean ====
section
/-!
DEFINITION. The flags and the register words the host sees (10_state.md R22, R23, R28 to R33; 60_exceptions.md
R222, R228): every one is computed from the state, none has storage of its own.
-/

namespace Sys2Proof.Machine

/-- The 8-bit code of a cause (R222). -/
def errByte : ErrCode → BitVec 8
  | .illegal => 0x01#8
  | .cfg => 0x02#8
  | .noReg => 0x03#8
  | .keyRange => 0x04#8
  | .len => 0x05#8
  | .zeroMod => 0x06#8
  | .oaepLen => 0x07#8
  | .hmState => 0x08#8

/-- The instance is halted (R220): ERR != 0. -/
def halted (u : Instance) : Bool := u.err != 0#8

/-- `KPUB` (R22): N and E are present. -/
def kpub (u : Instance) : Bool := u.regs.n.isSome && u.regs.e.isSome

/-- `KPRIV` (R22): all six key registers are present. -/
def kpriv (u : Instance) : Bool :=
  u.regs.n.isSome && u.regs.e.isSome && u.regs.d.isSome && u.regs.p.isSome && u.regs.q.isSome && u.regs.iqmp.isSome

/-- `HMST` (R30): 0 UNKEYED, 1 IDLE, 2 LIVE. -/
def hmstBits : HmState → BitVec 2
  | .unkeyed => 0#2
  | .idle => 1#2
  | .live => 2#2

/-- `PRES` (R30): bit r is 1 when register index r is present; X is bit 7, N is bit 0. -/
def presBits (f : RegFile) : BitVec 8 :=
  BitVec.ofBool f.x.isSome ++ BitVec.ofBool f.a.isSome ++ BitVec.ofBool f.iqmp.isSome ++ BitVec.ofBool f.q.isSome
    ++ BitVec.ofBool f.p.isSome ++ BitVec.ofBool f.d.isSome ++ BitVec.ofBool f.e.isSome ++ BitVec.ofBool f.n.isSome

/-- The STATUS word (R30), most significant field first. -/
def statusWord (u : Instance) : Word :=
  0#8 ++ presBits u.regs ++ u.err ++ BitVec.ofBool (kpriv u) ++ BitVec.ofBool (kpub u) ++ hmstBits u.mac.state
    ++ 0#1 ++ BitVec.ofBool u.ovr ++ BitVec.ofBool u.done ++ BitVec.ofBool u.busy

/-- The CFG word (R31): OUTLEN 13:8, BUGKEY 4, HSEL 3:0, reserved bits 0. -/
def cfgWord (c : Cfg) : Word := 0#18 ++ c.outlen ++ 0#3 ++ BitVec.ofBool c.bugkey ++ c.hsel

/-- What a write of v to CFG stores (R31, R63); the other bits are dropped. -/
def cfgOfWord (v : Word) : Cfg :=
  { hsel := v.extractLsb' 0 4, bugkey := v.getLsbD 4, outlen := v.extractLsb' 8 6 }

/-- The IRQ_EN word (R32). -/
def irqEnWord (q : IrqEn) : Word := 0#30 ++ BitVec.ofBool q.errIe ++ BitVec.ofBool q.doneIe

/-- What a write of v to IRQ_EN stores (R32, R63). -/
def irqEnOfWord (v : Word) : IrqEn := { doneIe := v.getLsbD 0, errIe := v.getLsbD 1 }

/-- The interrupt output, a level (R32, R228). -/
def irqLevel (u : Instance) : Bool := (u.irqEn.doneIe && u.done) || (u.irqEn.errIe && halted u)

end Sys2Proof.Machine
end

