-- ==== Sys2Proof/Machine/Ops.lean ====
section
/-!
DEFINITION. The named operations every command goes through: reaching the instance addressed, the launch step
and the completion step (10_state.md R40, 40_data_commands.md R110), taking the refusal, which is the block's
one exception (60_exceptions.md R220, R224), and the return from it (R226).
-/

namespace Sys2Proof.Machine

/-- The instance the turn being taken addresses. -/
def selected (s : State) : Option Instance := s.insts[s.sel]?

/-- The state with the selected instance replaced. -/
def setSelected (s : State) (u : Instance) : State := { s with insts := s.insts.set s.sel u }

/-- `OVR <- 1`: what an ignored write while BUSY = 1 leaves (R221 (a)), and a byte dropped by a full IBUF
(20_memory.md R72). -/
def setOvr (u : Instance) : Instance := { u with ovr := true }

/-- Wipe every scratch item and DIG (10_state.md R37). -/
def wipeScratch (u : Instance) : Instance := { u with scratch := Scratch.zero, mac := { u.mac with dig := digZero } }

/-- `raise Err(code)` at the launch of word w (R224): the one exception entry. `CMDL <- w`, `DONE <- 0`,
`ERR <- code`, both buffers emptied, scratch wiped, BUSY stays 0; nothing is saved and control goes nowhere. -/
def raiseErr (w : Word) (c : ErrCode) (u : Instance) : Instance :=
  wipeScratch { u with cmdl := w, done := false, err := errByte c, ibuf := [], obuf := [], busy := false }

/-- The return from the halted state (R226), CLRERR's and WIPEALL's effect on the sticky flags (R116). -/
def clearErr (u : Instance) : Instance := { u with err := 0#8, ovr := false }

/-- The exact words of the recovery commands (R221 (b)): CLRERR, CLRIB, CLROB, WIPEK, HMWIPE, WIPEALL. -/
def recoveryWords : List Word :=
  [0x00000005#32, 0x00000003#32, 0x00000004#32, 0x00000002#32, 0x00000034#32, 0x00000006#32]

/-- The launch step (R40, R110, R221 (b)) of word w in an instance that is not BUSY, given the first guard that
fails, if any: ignored while halted unless w is a recovery command; refused; or BUSY. -/
def launch (w : Word) (failing : Option ErrCode) (u : Instance) : Instance :=
  if halted u && !recoveryWords.contains w then u
  else
    match failing with
    | some c => raiseErr w c u
    | none => { u with cmdl := w, done := false, busy := true }

/-- The end of every completion step (R40, R110): scratch wiped, `BUSY <- 0`, `DONE <- 1`. -/
def finish (u : Instance) : Instance := wipeScratch { u with busy := false, done := true }

/-- The effect of a command that makes no draw: from the instance to the instance after, none while the
result does not exist. -/
def noDraw (f : Instance → Option Instance) : Nat → Instance → Option (Instance × Nat) :=
  fun drawn u => (f u).map (fun u' => (u', drawn))

/-- The completion step (R40) of a BUSY instance: enabled only when the command's result exists. When it is
enabled the whole effect is applied at once; otherwise nothing happens and the instance stays BUSY (R141). A
BUSY instance whose guards do not hold is one no launch makes; its command has no result (DESIGN CHOICE, safe,
log entry 11). -/
def complete (failing : Option ErrCode) (effect : Nat → Instance → Option (Instance × Nat)) (s : State)
    (u : Instance) : State :=
  match failing with
  | some _ => s
  | none =>
    match effect s.draws u with
    | none => s
    | some (u', drawn) => { setSelected s (finish u') with draws := drawn }

/-- One step of command i in the selected instance (R40): its completion when i is the command in flight, its
launch when the instance is not BUSY. While the reset input is asserted nothing happens (70_reset R250); while
another command is in flight the launch is ignored and sets OVR (R221 (a)). `guards` answers the first guard
that fails (R223), `effect` is the effect at completion, given how many bytes the random source has given. -/
def runCommand (i : Instr) (guards : Params → Instance → Option ErrCode)
    (effect : Nat → Instance → Option (Instance × Nat)) (s : State) : Host.Outcome State Fault Refusal :=
  match selected s with
  | none => .fault .noInstance
  | some u =>
    if u.inReset then .next s
    else if u.busy then
      if u.cmdl = encode i then .next (complete (guards s.params u) effect s u)
      else .next (setSelected s (setOvr u))
    else .next (setSelected s (launch (encode i) (guards s.params u) u))

/-- A command with no guard but the legality of its word, which the decoder has established. -/
def noGuard (_ : Params) (_ : Instance) : Option ErrCode := none

end Sys2Proof.Machine
end

