-- ==== Sys2Proof/Machine/DataCommands.lean ====
section
/-!
DEFINITION. The data-movement and housekeeping commands (40_data_commands.md): NOP, LDR in eight forms, WIPEK,
CLRIB, CLROB, CLRERR, WIPEALL.
-/

namespace Sys2Proof.Machine

/-- R111: no effect. -/
def effectNop (u : Instance) : Option Instance := some u

/-- NOP (R111). -/
def execNop (s : State) : Host.Outcome State Fault Refusal := runCommand .nop noGuard (noDraw effectNop) s

/-- The guards of LDR.r (R112): ERR_LEN when `kbytes(OS2IP(IBUF)) > KMAX`, then ERR_ZEROMOD for a zero modulus. -/
def guardLdr (r : BigReg) (p : Params) (u : Instance) : Option ErrCode :=
  firstFailing
    [ require (decide (kbytes (ibufNumber u) ≤ p.kmax)) .len,
      require (!(r == .n && ibufNumber u == 0)) .zeroMod ]

/-- The effect of LDR.r (R112): `x[r] <- OS2IP(IBUF)`, `IBUF <- empty`. -/
def effectLdr (r : BigReg) (u : Instance) : Option Instance :=
  some { u with regs := writeReg u.regs r (ibufNumber u), ibuf := [] }

/-- LDR.r (R112) as the command i. -/
def runLdr (i : Instr) (r : BigReg) (s : State) : Host.Outcome State Fault Refusal :=
  runCommand i (guardLdr r) (noDraw (effectLdr r)) s

/-- LDR.N (R112). -/
def execLdrN (s : State) : Host.Outcome State Fault Refusal := runLdr .ldrN .n s

/-- LDR.E (R112). -/
def execLdrE (s : State) : Host.Outcome State Fault Refusal := runLdr .ldrE .e s

/-- LDR.D (R112). -/
def execLdrD (s : State) : Host.Outcome State Fault Refusal := runLdr .ldrD .d s

/-- LDR.P (R112). -/
def execLdrP (s : State) : Host.Outcome State Fault Refusal := runLdr .ldrP .p s

/-- LDR.Q (R112). -/
def execLdrQ (s : State) : Host.Outcome State Fault Refusal := runLdr .ldrQ .q s

/-- LDR.IQMP (R112). -/
def execLdrIqmp (s : State) : Host.Outcome State Fault Refusal := runLdr .ldrIqmp .iqmp s

/-- LDR.A (R112). -/
def execLdrA (s : State) : Host.Outcome State Fault Refusal := runLdr .ldrA .a s

/-- LDR.X (R112). -/
def execLdrX (s : State) : Host.Outcome State Fault Refusal := runLdr .ldrX .x s

/-- R113: every register absent. -/
def effectWipek (u : Instance) : Instance := { u with regs := RegFile.absent }

/-- WIPEK (R113), a recovery command. -/
def execWipek (s : State) : Host.Outcome State Fault Refusal :=
  runCommand .wipek noGuard (noDraw (fun u => some (effectWipek u))) s

/-- R114: IBUF emptied. -/
def effectClrib (u : Instance) : Instance := { u with ibuf := [] }

/-- CLRIB (R114), a recovery command. -/
def execClrib (s : State) : Host.Outcome State Fault Refusal :=
  runCommand .clrib noGuard (noDraw (fun u => some (effectClrib u))) s

/-- R115: OBUF emptied. -/
def effectClrob (u : Instance) : Instance := { u with obuf := [] }

/-- CLROB (R115), a recovery command. -/
def execClrob (s : State) : Host.Outcome State Fault Refusal :=
  runCommand .clrob noGuard (noDraw (fun u => some (effectClrob u))) s

/-- CLRERR (R116), a recovery command: the return from the halted state (R226). -/
def execClrerr (s : State) : Host.Outcome State Fault Refusal :=
  runCommand .clrerr noGuard (noDraw (fun u => some (clearErr u))) s

/-- R198: the MAC context as no key had been installed, DIG zeroed; HMWIPE's effect, and part of WIPEALL's. -/
def effectHmwipe (u : Instance) : Instance := { u with mac := MacCtx.unkeyed }

/-- R117: the effects of WIPEK, CLRIB, CLROB, HMWIPE and CLRERR together, and `CFG <- 0`. -/
def effectWipeall (u : Instance) : Instance :=
  { clearErr (effectHmwipe (effectClrob (effectClrib (effectWipek u)))) with cfg := Cfg.zero }

/-- WIPEALL (R117), a recovery command: software reset of an idle instance. -/
def execWipeall (s : State) : Host.Outcome State Fault Refusal :=
  runCommand .wipeall noGuard (noDraw (fun u => some (effectWipeall u))) s

end Sys2Proof.Machine
end

