-- ==== Sys2Proof/Machine/HmacKey.lean ====
section
/-!
DEFINITION. The effective key and the pad blocks of the HMAC unit (43_hmac.md R192, R193).
-/

namespace Sys2Proof.Machine

/-- The effective key `key'` (R192): with BUGKEY the first min(16, len) bytes, never hashed; otherwise a key
strictly longer than the block is replaced by its digest. -/
def effectiveKey (h : HashAlg) (bugkey : Bool) (key : Bytes) : Bytes :=
  if bugkey then key.take 16 else if blockLen h < key.length then hash h key else key

/-- A pad block (R193): the key bytes, zero-filled to the block length, each XOR the pad byte. -/
def padBlock (h : HashAlg) (pad : Byte) (key : Bytes) : Bytes :=
  (List.range (blockLen h)).map (fun i => key.getD i 0x00#8 ^^^ pad)

/-- `opad` (R193). -/
def opadBlock (h : HashAlg) (key : Bytes) : Bytes := padBlock h 0x5C#8 key

/-- `ipad` (R193). -/
def ipadBlock (h : HashAlg) (key : Bytes) : Bytes := padBlock h 0x36#8 key

end Sys2Proof.Machine
end

