-- ==== Sys2Proof/Machine/HmacUnit.lean ====
section
/-!
DEFINITION. The HMAC unit (43_hmac.md): HMKEY, HMSTART, HMUPD, HMFINAL, HMWIPE.
-/

namespace Sys2Proof.Machine

/-- The guards of HMKEY (R194): HSEL <= 3 and OUTLEN <= H, then no live computation. -/
def guardHmkey (_ : Params) (u : Instance) : Option ErrCode :=
  firstFailing [requireHash u, requireOutlen u, require (u.mac.state != .live) .hmState]

/-- The output length HMKEY latches (R194): OUTLEN, or H when that is 0. -/
def latchedOutlen (h : HashAlg) (outlen : BitVec 6) : Nat := if outlen = 0#6 then digestLen h else outlen.toNat

/-- The effect of HMKEY (R192 to R194). -/
def effectHmkey (u : Instance) : Option Instance :=
  match cfgHash u with
  | none => none
  | some h =>
    let key := effectiveKey h u.cfg.bugkey u.ibuf
    some { u with
      mac := { u.mac with
        state := .idle
        hsel := h
        outlen := latchedOutlen h u.cfg.outlen
        outer := some (hsUpdate (hsInit h) (opadBlock h key))
        inner := some (hsUpdate (hsInit h) (ipadBlock h key)) }
      ibuf := []
      scratch := { u.scratch with effKey := key, pads := opadBlock h key ++ ipadBlock h key } }

/-- HMKEY (R194). -/
def execHmkey (s : State) : Host.Outcome State Fault Refusal := runCommand .hmkey guardHmkey (noDraw effectHmkey) s

/-- The guard of HMSTART (R195): `HM_STATE = IDLE`. -/
def guardHmstart (_ : Params) (u : Instance) : Option ErrCode :=
  firstFailing [require (u.mac.state == .idle) .hmState]

/-- The effect of HMSTART (R195): `LIVE <- HS.clone(INNER)`. -/
def effectHmstart (u : Instance) : Option Instance :=
  match u.mac.inner with
  | none => none
  | some st => some { u with mac := { u.mac with live := some (hsClone st), state := .live } }

/-- HMSTART (R195). -/
def execHmstart (s : State) : Host.Outcome State Fault Refusal :=
  runCommand .hmstart guardHmstart (noDraw effectHmstart) s

/-- The guard of HMUPD and HMFINAL (R196, R197): `HM_STATE = LIVE`. -/
def guardLive (_ : Params) (u : Instance) : Option ErrCode :=
  firstFailing [require (u.mac.state == .live) .hmState]

/-- The effect of HMUPD (R196): `LIVE <- HS.update(LIVE, IBUF)`, `IBUF <- empty`. -/
def effectHmupd (u : Instance) : Option Instance :=
  match u.mac.live with
  | none => none
  | some st => some { u with mac := { u.mac with live := some (hsUpdate st u.ibuf) }, ibuf := [] }

/-- HMUPD (R196). -/
def execHmupd (s : State) : Host.Outcome State Fault Refusal := runCommand .hmupd guardLive (noDraw effectHmupd) s

/-- Write bytes to the front of DIG, the rest unchanged (`DIG[0:H] <- ...`, R197). -/
def writeDig (dig s : Bytes) : Bytes := s ++ dig.drop s.length

/-- The effect of HMFINAL (R197): the inner digest, then the outer digest of it, into DIG; the first HM_OUTLEN
bytes go to OBUF. -/
def effectHmfinal (u : Instance) : Option Instance :=
  match u.mac.live, u.mac.outer with
  | some live, some outer =>
    let inner := writeDig u.mac.dig (hsFinal live)
    let dig := writeDig inner (hsFinal (hsUpdate (hsClone outer) (inner.take (digestLen u.mac.hsel))))
    some { u with obuf := dig.take u.mac.outlen, mac := { u.mac with live := none, dig := dig, state := .idle } }
  | _, _ => none

/-- HMFINAL (R197). -/
def execHmfinal (s : State) : Host.Outcome State Fault Refusal :=
  runCommand .hmfinal guardLive (noDraw effectHmfinal) s

/-- HMWIPE (R198), a recovery command, accepted in every MAC state. -/
def execHmwipe (s : State) : Host.Outcome State Fault Refusal :=
  runCommand .hmwipe noGuard (noDraw (fun u => some (effectHmwipe u))) s

end Sys2Proof.Machine
end

