-- ==== Sys2Proof/Machine/OaepBlock.lean ====
section
/-!
DEFINITION. The mask generation function and the OAEP block (42_oaep.md R171, R173, R174).
-/

namespace Sys2Proof.Machine

/-- Mask block c (R171): `Hash_h(seed ++ BE32(c))`. -/
def mgfBlock (h : HashAlg) (seed : Bytes) (c : Nat) : Bytes := hash h (seed ++ be32 c)

/-- How many mask blocks cover `len` bytes; the unused tail of the last one is discarded (R171). -/
def mgfBlocks (h : HashAlg) (len : Nat) : Nat := (len + digestLen h - 1) / digestLen h

/-- The first `len` mask bytes (R171). -/
def mgfMask (h : HashAlg) (seed : Bytes) (len : Nat) : Bytes :=
  ((List.range (mgfBlocks h len)).flatMap (mgfBlock h seed)).take len

/-- `MgfXor(h, seed, target)` (R171). -/
def mgfXor (h : HashAlg) (seed target : Bytes) : Bytes := xorBytes target (mgfMask h seed target.length)

/-- The last mask block computed for a target of `len` bytes, the MGF hash block of R37. -/
def mgfLast (h : HashAlg) (seed : Bytes) (len : Nat) : Bytes :=
  if mgfBlocks h len = 0 then [] else mgfBlock h seed (mgfBlocks h len - 1)

/-- EM as built, before masking (R173): 0x00, the seed, the hash of the empty label, zeros, 0x01, the message. -/
def oaepBuild (h : HashAlg) (k : Nat) (seed msg : Bytes) : Bytes :=
  [0x00#8] ++ seed ++ hash h [] ++ zeros (k - msg.length - 2 * digestLen h - 2) ++ [0x01#8] ++ msg

/-- R174: mask DB = EM[1+H : k] with the seed as MGF input. -/
def oaepMaskDb (h : HashAlg) (em : Bytes) : Bytes :=
  em.take (1 + digestLen h) ++ mgfXor h (slice em 1 (1 + digestLen h)) (em.drop (1 + digestLen h))

/-- R174: mask the seed with the masked DB as MGF input. EM[0] is never masked. -/
def oaepMaskSeed (h : HashAlg) (em : Bytes) : Bytes :=
  em.take 1 ++ mgfXor h (em.drop (1 + digestLen h)) (slice em 1 (1 + digestLen h)) ++ em.drop (1 + digestLen h)

/-- EM after both masks (R174). -/
def oaepEm (h : HashAlg) (k : Nat) (seed msg : Bytes) : Bytes :=
  oaepMaskSeed h (oaepMaskDb h (oaepBuild h k seed msg))

/-- The next `count` bytes of the random source, in the order drawn, when `drawn` bytes have been given before
(00_scope.md R10): free values. -/
def drawBytes (drawn count : Nat) : Bytes := (List.range count).map (fun i => Config.drawByte (drawn + i))

end Sys2Proof.Machine
end

