-- ==== Sys2Proof/Machine/OaepUnit.lean ====
section
/-!
DEFINITION. The OAEP unit (42_oaep.md): MGFX, OAEPENC.
-/

namespace Sys2Proof.Machine

/-- The guards of MGFX S (R172): HSEL <= 3, then `S <= len(IBUF)`. -/
def guardMgfx (seedLen : Nat) (_ : Params) (u : Instance) : Option ErrCode :=
  firstFailing [requireHash u, require (decide (seedLen ≤ u.ibuf.length)) .len]

/-- The effect of MGFX S (R172): the first S bytes of IBUF are the seed, the rest the target. -/
def effectMgfx (seedLen : Nat) (u : Instance) : Option Instance :=
  match cfgHash u with
  | none => none
  | some h =>
    some { u with
      obuf := mgfXor h (u.ibuf.take seedLen) (u.ibuf.drop seedLen)
      ibuf := []
      scratch := { u.scratch with mgfBlock := mgfLast h (u.ibuf.take seedLen) (u.ibuf.length - seedLen) } }

/-- MGFX S (R172). -/
def execMgfx (seedLen : Nat) (s : State) : Host.Outcome State Fault Refusal :=
  runCommand (.mgfx seedLen) (guardMgfx seedLen) (noDraw (effectMgfx seedLen)) s

/-- The guards of OAEPENC (R174): HSEL <= 3, then N and E present, then the size contract. -/
def guardOaepenc (_ : Params) (u : Instance) : Option ErrCode :=
  firstFailing [requireHash u, requireRegs u [.n, .e], requireOaepLen u]

/-- The effect of OAEPENC (R174): exactly H draws make the seed; EM is built and masked;
`OBUF <- I2OSP(OS2IP(EM)^E mod N, k)`. -/
def effectOaepenc (drawn : Nat) (u : Instance) : Option (Instance × Nat) :=
  match cfgHash u, u.regs.n, u.regs.e with
  | some h, some n, some e =>
    let em := oaepEm h (kbytes n) (drawBytes drawn (digestLen h)) u.ibuf
    some
      ({ u with
          obuf := i2osp (modpow (os2ip em) e n) (kbytes n)
          ibuf := []
          scratch := { u.scratch with em := em, mgfBlock := mgfLast h (em.drop (1 + digestLen h)) (digestLen h) } },
        drawn + digestLen h)
  | _, _, _ => none

/-- OAEPENC (R174). -/
def execOaepenc (s : State) : Host.Outcome State Fault Refusal := runCommand .oaepenc guardOaepenc effectOaepenc s

end Sys2Proof.Machine
end

