-- ==== Sys2Proof/Machine/Kdf.lean ====
section
/-!
DEFINITION. The blinding key-derivation function and the choice of the blinding factor
(41_rsa_exponentiator.md R137 to R141). The rules' byte layout is the spec's decision D15; no law depends on
the values (R143).
-/

namespace Sys2Proof.Machine

/-- The label of R137: the 26 ASCII bytes of "RSA deterministic blinding". -/
def kdfLabel : Bytes :=
  [0x52#8, 0x53#8, 0x41#8, 0x20#8, 0x64#8, 0x65#8, 0x74#8, 0x65#8, 0x72#8, 0x6D#8, 0x69#8, 0x6E#8, 0x69#8,
   0x73#8, 0x74#8, 0x69#8, 0x63#8, 0x20#8, 0x62#8, 0x6C#8, 0x69#8, 0x6E#8, 0x64#8, 0x69#8, 0x6E#8, 0x67#8]

/-- `MP(v)` (R137): the big-endian bytes of v, preceded by at least one zero bit and by their count. -/
def mpEncode (v : Nat) : Bytes :=
  let m := (bitcount v + 8) / 8
  be32 m ++ i2osp v m

/-- `T(j)` (R138). The KDF hash is SHA-512 whatever CFG.HSEL is (R137). -/
def kdfInner (j d : Nat) : Bytes := hash .sha512 (kdfLabel ++ be32 j ++ mpEncode d)

/-- `KdfBlock(j)` (R138): 64 bytes. -/
def kdfBlock (j d a : Nat) : Bytes := hash .sha512 (kdfInner j d ++ mpEncode a)

/-- `KdfStream[i]` (R138). -/
def kdfStream (d a i : Nat) : Byte := (kdfBlock (i / 64) d a).getD (i % 64) 0#8

/-- `KdfStream[start : start + len]`, each block computed once; Sys2Proof/Laws/Kdf.lean proves that its bytes
are `kdfStream`'s. -/
def kdfSlice (d a start len : Nat) : Bytes :=
  (((List.range ((start % 64 + len + 63) / 64)).flatMap (fun j => kdfBlock (start / 64 + j) d a)).drop
    (start % 64)).take len

/-- The candidate of R139 from its stream bytes: bits are taken from each byte from the least significant
upward and fill the `nb`-bit number from its most significant bit downward. -/
def candOfBytes (nb : Nat) (s : Bytes) : Nat :=
  ((List.range nb).map (fun m => bitOf (s.getD (m / 8) 0#8).toNat (m % 8) * 2 ^ (nb - 1 - m))).sum

/-- `Cand(t)` (R139). -/
def cand (n d a t : Nat) : Nat := candOfBytes (bitcount n) (kdfSlice d a (t * kbytes n) (kbytes n))

/-- `Accept(c, n)` (R140). -/
def accept (c n : Nat) : Bool := decide (0 < c) && decide (c < n) && (modinv c n).isSome

/-- The least index from `t` on, among the next `fuel`, whose candidate is accepted. -/
def searchCand (n d a : Nat) : Nat → Nat → Option Nat
  | 0, _ => none
  | fuel + 1, t => if accept (cand n d a t) n then some t else searchCand n d a fuel (t + 1)

/-- The KDF block number is taken modulo 2^32 (R138), so the stream repeats after 2^38 bytes and the candidates
after 2^38 indices. -/
def candPeriod : Nat := 2 ^ 38

/-- `t*` of R140: the least index of an accepted candidate; none when no candidate of the whole stream is
accepted (R141; searching one period is searching all, Sys2Proof/Laws/Kdf.lean). -/
def blindingIndex (n d a : Nat) : Option Nat := searchCand n d a candPeriod 0

end Sys2Proof.Machine
end

