-- ==== Sys2Proof/Machine/Pku.lean ====
section
/-!
DEFINITION. The RSA exponentiator (41_rsa_exponentiator.md): PUBOP, CRTPOW in two forms, PRIVOP.
-/

namespace Sys2Proof.Machine

/-- The guard of PUBOP (R132): N, E and A present. -/
def guardPubop (_ : Params) (u : Instance) : Option ErrCode := firstFailing [requireRegs u [.n, .e, .a]]

/-- The effect of PUBOP (R132): `OBUF <- I2OSP(A^E mod N, k)`. -/
def effectPubop (u : Instance) : Option Instance :=
  match u.regs.n, u.regs.e, u.regs.a with
  | some n, some e, some a => some { u with obuf := i2osp (modpow a e n) (kbytes n) }
  | _, _, _ => none

/-- PUBOP (R132). -/
def execPubop (s : State) : Host.Outcome State Fault Refusal := runCommand .pubop guardPubop (noDraw effectPubop) s

/-- The guards of CRTPOW.r (R130, R134): the six registers present, then the key range. -/
def guardCrtpow (r : BigReg) (_ : Params) (u : Instance) : Option ErrCode :=
  firstFailing [requireRegs u [.n, .p, .q, .iqmp, .a, r], requireKeyRange u]

/-- The effect of CRTPOW.r (R134): `OBUF <- I2OSP(CrtModpow(A, x[r], N, P, Q, IQMP), k)`. -/
def effectCrtpow (r : BigReg) (u : Instance) : Option Instance :=
  match u.regs.n, u.regs.p, u.regs.q, u.regs.iqmp, u.regs.a, readReg u.regs r with
  | some n, some p, some q, some iqmp, some a, some exp =>
    some { u with
      obuf := i2osp (crtModpow a exp n p q iqmp) (kbytes n)
      scratch := crtScratch u.scratch a exp p q iqmp }
  | _, _, _, _, _, _ => none

/-- CRTPOW.E (R134): the exponent is `x[E]`. -/
def execCrtpowE (s : State) : Host.Outcome State Fault Refusal :=
  runCommand .crtpowE (guardCrtpow .e) (noDraw (effectCrtpow .e)) s

/-- CRTPOW.X (R134): the exponent is `x[X]`. -/
def execCrtpowX (s : State) : Host.Outcome State Fault Refusal :=
  runCommand .crtpowX (guardCrtpow .x) (noDraw (effectCrtpow .x)) s

/-- The guards of PRIVOP (R142): the seven registers present, then the key range. -/
def guardPrivop (_ : Params) (u : Instance) : Option ErrCode :=
  firstFailing [requireRegs u [.n, .e, .d, .p, .q, .iqmp, .a], requireKeyRange u]

/-- The encrypted blinding factor `r_enc` of R142. -/
def privopEnc (n e p q iqmp r : Nat) : Nat := crtModpow r e n p q iqmp

/-- The blinded input `x_b` of R142. -/
def privopBlind (n e p q iqmp a r : Nat) : Nat := modmul a (privopEnc n e p q iqmp r) n

/-- The blinded result `y_b` of R142. -/
def privopPower (n e d p q iqmp a r : Nat) : Nat := crtModpow (privopBlind n e p q iqmp a r) d n p q iqmp

/-- The result `y` of R142 for the blinding factor r with inverse `rInv`. -/
def privopResult (n e d p q iqmp a r rInv : Nat) : Nat := modmul (privopPower n e d p q iqmp a r) rInv n

/-- The scratch of R37 that PRIVOP leaves until it is wiped. -/
def privopScratch (sc : Scratch) (n e d p q iqmp a t r rInv : Nat) : Scratch :=
  { crtScratch sc (privopBlind n e p q iqmp a r) d p q iqmp with
    r := r
    rInv := rInv
    rEnc := privopEnc n e p q iqmp r
    xb := privopBlind n e p q iqmp a r
    yb := privopPower n e d p q iqmp a r
    y := privopResult n e d p q iqmp a r rInv
    kdfCounter := t * kbytes n / 64
    kdfDigest := kdfBlock (t * kbytes n / 64) d a }

/-- The effect of PRIVOP (R142), which exists only when an acceptable blinding candidate does (R141). -/
def effectPrivop (u : Instance) : Option Instance :=
  match u.regs.n, u.regs.e, u.regs.d, u.regs.p, u.regs.q, u.regs.iqmp, u.regs.a with
  | some n, some e, some d, some p, some q, some iqmp, some a =>
    match blindingIndex n d a with
    | none => none
    | some t =>
      match modinv (cand n d a t) n with
      | none => none
      | some rInv =>
        some { u with
          obuf := i2osp (privopResult n e d p q iqmp a (cand n d a t) rInv) (kbytes n)
          scratch := privopScratch u.scratch n e d p q iqmp a t (cand n d a t) rInv }
  | _, _, _, _, _, _, _ => none

/-- PRIVOP (R142). -/
def execPrivop (s : State) : Host.Outcome State Fault Refusal :=
  runCommand .privop guardPrivop (noDraw effectPrivop) s

end Sys2Proof.Machine
end

