-- ==== Sys2Proof/Machine/Dispatch.lean ====
section
/-!
DEFINITION. Dispatch: one arm per command, each one direct call of its meaning.
-/

namespace Sys2Proof.Machine

def exec (i : Instr) (s : State) : Host.Outcome State Fault Refusal :=
  match i with
  | .nop => Sys2Proof.Machine.execNop s
  | .ldrN => Sys2Proof.Machine.execLdrN s
  | .ldrE => Sys2Proof.Machine.execLdrE s
  | .ldrD => Sys2Proof.Machine.execLdrD s
  | .ldrP => Sys2Proof.Machine.execLdrP s
  | .ldrQ => Sys2Proof.Machine.execLdrQ s
  | .ldrIqmp => Sys2Proof.Machine.execLdrIqmp s
  | .ldrA => Sys2Proof.Machine.execLdrA s
  | .ldrX => Sys2Proof.Machine.execLdrX s
  | .wipek => Sys2Proof.Machine.execWipek s
  | .clrib => Sys2Proof.Machine.execClrib s
  | .clrob => Sys2Proof.Machine.execClrob s
  | .clrerr => Sys2Proof.Machine.execClrerr s
  | .wipeall => Sys2Proof.Machine.execWipeall s
  | .pubop => Sys2Proof.Machine.execPubop s
  | .crtpowE => Sys2Proof.Machine.execCrtpowE s
  | .crtpowX => Sys2Proof.Machine.execCrtpowX s
  | .privop => Sys2Proof.Machine.execPrivop s
  | .mgfx seedLen => Sys2Proof.Machine.execMgfx seedLen s
  | .oaepenc => Sys2Proof.Machine.execOaepenc s
  | .hmkey => Sys2Proof.Machine.execHmkey s
  | .hmstart => Sys2Proof.Machine.execHmstart s
  | .hmupd => Sys2Proof.Machine.execHmupd s
  | .hmfinal => Sys2Proof.Machine.execHmfinal s
  | .hmwipe => Sys2Proof.Machine.execHmwipe s

end Sys2Proof.Machine
end

