-- ==== Sys2Proof/Machine/Bus.lean ====
section
/-!
DEFINITION. The host interface (20_memory.md) and the turns of the other agents: address decoding (R60, R61,
R65), the host's reads (R62, R73) and writes (R63, R72, R221), the sequencer's completion step (10_state.md
R40) and the reset input (70_reset_and_hazards.md R250, R252).
-/

namespace Sys2Proof.Machine

/-- The instance whose 64-byte window holds the address, and the offset in it (R60, R61). -/
def windowOf (bases : List Nat) (addr : Nat) : Option (Nat × Nat) :=
  match bases.findIdx? (fun b => decide (b ≤ addr) && decide (addr < b + 0x40)) with
  | none => none
  | some k => some (k, addr - bases.getD k 0)

/-- The four writable registers: CMD, CFG, DATA_IN, IRQ_EN (R63). -/
def writableOffset (off : Nat) : Bool := off == 0x00 || off == 0x08 || off == 0x0C || off == 0x24

/-- The value a read of DATA_OUT returns (R73). -/
def dataOutWord (u : Instance) : Word :=
  if u.busy then 0#32
  else
    match u.obuf with
    | [] => 0#32
    | b :: _ => b.zeroExtend 32

/-- What a read of DATA_OUT leaves (R73): the first byte removed, nothing while BUSY or when OBUF is empty. -/
def popOut (u : Instance) : Instance :=
  if u.busy then u
  else
    match u.obuf with
    | [] => u
    | _ :: rest => { u with obuf := rest }

/-- What MemRead returns (R62). -/
def readWord (p : Params) (u : Instance) (off : Nat) : Word :=
  match off with
  | 0x00 => u.cmdl
  | 0x04 => statusWord u
  | 0x08 => cfgWord u.cfg
  | 0x10 => dataOutWord u
  | 0x14 => BitVec.ofNat 32 u.ibuf.length
  | 0x18 => BitVec.ofNat 32 u.obuf.length
  | 0x1C => BitVec.ofNat 32 (modulusBits u)
  | 0x20 => BitVec.ofNat 32 (modulusBytes u)
  | 0x24 => irqEnWord u.irqEn
  | 0x28 => p.idValue
  | _ => 0#32

/-- What MemRead does (R62): only DATA_OUT has a side effect. -/
def readEffect (u : Instance) (off : Nat) : Instance := if off = 0x10 then popOut u else u

/-- `MemRead(BASE[sel] + off, 4)` (R62). -/
def hostRead (off : Nat) (s : State) : Host.Outcome State Fault Refusal :=
  match selected s with
  | none => .refused .noSuchInstance
  | some u => .next { setSelected s (readEffect u off) with hostSaw := s.hostSaw ++ [readWord s.params u off] }

/-- A write of v to DATA_IN that is not ignored (R72). -/
def pushIn (p : Params) (v : Word) (u : Instance) : Instance :=
  if u.ibuf.length < p.ibmax then { u with ibuf := u.ibuf ++ [v.extractLsb' 0 8] } else setOvr u

/-- A write of v to CMD while BUSY = 0 (R40, R63, R221 (b)): a legal word is a command for `exec`; an illegal
one is launched and refused (R93), unless the halt gate ignores it. -/
def writeCmd (v : Word) (u : Instance) (s : State) : Host.Outcome State Fault Refusal :=
  match decode v with
  | .ok i => exec i s
  | .illegal _ => .next (setSelected s (launch v (some .illegal) u))

/-- `MemWrite(BASE[sel] + off, 4, v)` (R63): ignored while the reset input is asserted (R250); ignored with
`OVR <- 1` while BUSY = 1 if off is a writable register (R221 (a)); ignored at read-only and reserved offsets. -/
def hostWrite (off : Nat) (v : Word) (s : State) : Host.Outcome State Fault Refusal :=
  match selected s with
  | none => .refused .noSuchInstance
  | some u =>
    if u.inReset then .next s
    else if writableOffset off && u.busy then .next (setSelected s (setOvr u))
    else
      match off with
      | 0x00 => writeCmd v u s
      | 0x08 => .next (setSelected s { u with cfg := cfgOfWord v })
      | 0x0C => .next (setSelected s (pushIn s.params v u))
      | 0x24 => .next (setSelected s { u with irqEn := irqEnOfWord v })
      | _ => .next s

/-- A host access (R60, R61, R65): refused outside the windows and when it is not an aligned 32-bit one,
otherwise given to the instance and offset it reaches. -/
def hostAccess (addr width : Nat) (s : State) (act : Nat → State → Host.Outcome State Fault Refusal) :
    Host.Outcome State Fault Refusal :=
  match windowOf s.params.bases addr with
  | none => .refused .outsideWindows
  | some (k, off) =>
    if width = 32 ∧ addr % 4 = 0 then act off { s with sel := k } else .refused .undefinedAccess

/-- A turn of the sequencer of the selected instance (R40): when BUSY, the completion step of the command in
CMDL (R36), if it is enabled. -/
def sequencerStep (s : State) : Host.Outcome State Fault Refusal :=
  match selected s with
  | none => .refused .noSuchInstance
  | some u =>
    if u.busy then
      match decode u.cmdl with
      | .ok i => exec i s
      | .illegal _ => .next s
    else .next s

/-- What the reset input's level leaves of an instance (R250, R252): the reset state while asserted, whatever
was in flight; on release nothing but the level changes. -/
def setReset (asserted : Bool) (u : Instance) : Instance :=
  if asserted then { Instance.reset with inReset := true } else { u with inReset := false }

/-- The platform drives the reset input of the selected instance (R250). -/
def resetStep (asserted : Bool) (s : State) : Host.Outcome State Fault Refusal :=
  match selected s with
  | none => .refused .noSuchInstance
  | some u => .next (setSelected s (setReset asserted u))

/-- One turn (00_scope.md R6). -/
def takeTurn (t : Turn) (s : State) : Host.Outcome State Fault Refusal :=
  match t with
  | .read addr width => hostAccess addr width s hostRead
  | .write addr width v => hostAccess addr width s (fun off => hostWrite off v)
  | .sequencer k => sequencerStep { s with sel := k }
  | .reset k asserted => resetStep asserted { s with sel := k }

/-- Instance k of a state is BUSY. -/
def busyAt (s : State) (k : Nat) : Bool :=
  match s.insts[k]? with
  | some u => u.busy
  | none => false

/-- The state after instance k's completion step, when that step is enabled. -/
def completionOf (s : State) (k : Nat) : Option State :=
  match sequencerStep { s with sel := k } with
  | .next t => if busyAt s k && !busyAt t k then some t else none
  | _ => none

/-- What happens when no turn is pending: the host is silent, and the lowest-numbered instance whose completion
is enabled completes (R40: "an enabled completion is eventually taken"); when none is, nothing happens
(DESIGN CHOICE, log entry 1). -/
def idleStep (s : State) : State :=
  match (List.range s.insts.length).findSome? (completionOf s) with
  | some t => t
  | none => s

/-- One step of the platform: the oldest pending turn, or the idle step. -/
def machineStep (s : State) : Host.Outcome State Fault Refusal :=
  match s.turns with
  | [] => .next (idleStep s)
  | t :: rest => takeTurn t { s with turns := rest }

end Sys2Proof.Machine
end

