-- ==== Sys2Proof/Machine/Step.lean ====
section
/-!
DEFINITION. One step of the machine, and how the host places a command word where the next step takes it. The
block fetches nothing (10_state.md R39, 20_memory.md R70): a command is the value of the host's write to CMD.
-/

namespace Sys2Proof.Machine

/-- One step. -/
def step (s : State) : Host.Outcome State Fault Refusal := machineStep s

/-- The byte address of CMD of instance 0 (R61). -/
def firstCmdAddr (p : Params) : Nat := p.bases.getD 0 0 + 0x00

/-- The state in which the next move is the host's write of the command word w to CMD of instance 0 (log entry
1); the bits above `nbits` are 0. A command word has 32 bits (30_encoding.md R90). -/
def State.withFetchWord (s : State) (nbits w : Nat) : State :=
  { s with turns := .write (firstCmdAddr s.params) 32 (BitVec.ofNat 32 (w % 2 ^ nbits)) :: s.turns }

end Sys2Proof.Machine
end

