-- ==== Sys2Proof/Machine/Script.lean ====
section
/-!
DEFINITION. Host scripts (30_encoding.md R95, R96) as lists of turns, and the names of the MAC variants (43_hmac.md
R191). Each script line takes the base address of the window it talks to. WAIT is a loop on the host's side;
here it is the sequencer's turn and one poll of STATUS, the shortest run of that loop (DESIGN CHOICE, safe, log
entry 14).
-/

namespace Sys2Proof.Machine

/-- `WR <reg>, v` (R95). -/
def scriptWr (base off : Nat) (v : Word) : Turn := .write (base + off) 32 v

/-- `RD <reg>` (R95). -/
def scriptRd (base off : Nat) : Turn := .read (base + off) 32

/-- `CMD <mnemonic>` (R95). -/
def scriptCmd (base : Nat) (i : Instr) : Turn := scriptWr base 0x00 (encode i)

/-- `WAIT` (R96) for instance k. -/
def scriptWait (base k : Nat) : List Turn := [.sequencer k, scriptRd base 0x04]

/-- `RUN <mnemonic>` (R96). -/
def scriptRun (base k : Nat) (i : Instr) : List Turn := scriptCmd base i :: scriptWait base k

/-- `PUT <bytes>` (R96). -/
def scriptPut (base : Nat) (s : Bytes) : List Turn := s.map (fun b => scriptWr base 0x0C (b.zeroExtend 32))

/-- `GET <n>` (R96). -/
def scriptGet (base n : Nat) : List Turn := List.replicate n (scriptRd base 0x10)

/-- `LOAD <r>, <bytes>` (R96), with i the LDR form of r. -/
def scriptLoad (base k : Nat) (i : Instr) (s : Bytes) : List Turn := scriptPut base s ++ scriptRun base k i

/-- A MAC variant of R191: its name, its encrypt-then-MAC name if it has one, its CFG word. -/
structure MacVariant where
  name : String
  etmName : Option String
  cfg : Word
  deriving DecidableEq, Repr

/-- The table of R191. The names are not stored in the block (R34). -/
def macVariants : List MacVariant :=
  [ { name := "hmac-sha2-256", etmName := some "hmac-sha2-256-etm@openssh.com", cfg := 0x00000002#32 },
    { name := "hmac-sha1", etmName := some "hmac-sha1-etm@openssh.com", cfg := 0x00000001#32 },
    { name := "hmac-sha1-96", etmName := some "hmac-sha1-96-etm@openssh.com", cfg := 0x00000C01#32 },
    { name := "hmac-md5", etmName := some "hmac-md5-etm@openssh.com", cfg := 0x00000000#32 },
    { name := "hmac-sha1", etmName := none, cfg := 0x00000011#32 },
    { name := "hmac-sha1-96", etmName := none, cfg := 0x00000C11#32 } ]

end Sys2Proof.Machine
end

