-- ==== Sys2Proof/Safety.lean ====
section
/-!
DEFINITION. What counts as a legal state, in the terms the claims use: the invariants of 10_state.md R21, R26,
R27, R34 to R37 and 60_exceptions.md R225, as one predicate on states; the key invariants of R24 and the host's
key verification of 70_reset_and_hazards.md R256; what the host can see of an instance (R229); the situations
the claims about commands speak of.
-/

namespace Sys2Proof.Machine

/-- The first guard of command i that fails (60_exceptions.md R222, R223). -/
def guardsOf (i : Instr) (p : Params) (u : Instance) : Option ErrCode :=
  match i with
  | .nop => none
  | .ldrN => guardLdr .n p u
  | .ldrE => guardLdr .e p u
  | .ldrD => guardLdr .d p u
  | .ldrP => guardLdr .p p u
  | .ldrQ => guardLdr .q p u
  | .ldrIqmp => guardLdr .iqmp p u
  | .ldrA => guardLdr .a p u
  | .ldrX => guardLdr .x p u
  | .wipek => none
  | .clrib => none
  | .clrob => none
  | .clrerr => none
  | .wipeall => none
  | .pubop => guardPubop p u
  | .crtpowE => guardCrtpow .e p u
  | .crtpowX => guardCrtpow .x p u
  | .privop => guardPrivop p u
  | .mgfx seedLen => guardMgfx seedLen p u
  | .oaepenc => guardOaepenc p u
  | .hmkey => guardHmkey p u
  | .hmstart => guardHmstart p u
  | .hmupd => guardLive p u
  | .hmfinal => guardLive p u
  | .hmwipe => none

/-- The effect of command i at completion (40_data_commands.md R110), given how many bytes the random source has
given. -/
def effectOf (i : Instr) : Nat → Instance → Option (Instance × Nat) :=
  match i with
  | .nop => noDraw effectNop
  | .ldrN => noDraw (effectLdr .n)
  | .ldrE => noDraw (effectLdr .e)
  | .ldrD => noDraw (effectLdr .d)
  | .ldrP => noDraw (effectLdr .p)
  | .ldrQ => noDraw (effectLdr .q)
  | .ldrIqmp => noDraw (effectLdr .iqmp)
  | .ldrA => noDraw (effectLdr .a)
  | .ldrX => noDraw (effectLdr .x)
  | .wipek => noDraw (fun u => some (effectWipek u))
  | .clrib => noDraw (fun u => some (effectClrib u))
  | .clrob => noDraw (fun u => some (effectClrob u))
  | .clrerr => noDraw (fun u => some (clearErr u))
  | .wipeall => noDraw (fun u => some (effectWipeall u))
  | .pubop => noDraw effectPubop
  | .crtpowE => noDraw (effectCrtpow .e)
  | .crtpowX => noDraw (effectCrtpow .x)
  | .privop => noDraw effectPrivop
  | .mgfx seedLen => noDraw (effectMgfx seedLen)
  | .oaepenc => effectOaepenc
  | .hmkey => noDraw effectHmkey
  | .hmstart => noDraw effectHmstart
  | .hmupd => noDraw effectHmupd
  | .hmfinal => noDraw effectHmfinal
  | .hmwipe => noDraw (fun u => some (effectHmwipe u))

/-- R21: a present register holds at most KMAX bytes. -/
abbrev RegOk (p : Params) (v : Option Nat) : Prop := ∀ x ∈ v, kbytes x ≤ p.kmax

/-- R21: the register file; `x[N]`, once present, is never 0. -/
abbrev RegsOk (p : Params) (f : RegFile) : Prop :=
  RegOk p f.n ∧ (∀ x ∈ f.n, x ≠ 0) ∧ RegOk p f.e ∧ RegOk p f.d ∧ RegOk p f.p ∧ RegOk p f.q ∧ RegOk p f.iqmp
    ∧ RegOk p f.a ∧ RegOk p f.x

/-- R26, R27: the buffers hold at most their capacities. -/
abbrev BuffersOk (p : Params) (u : Instance) : Prop := u.ibuf.length ≤ p.ibmax ∧ u.obuf.length ≤ p.obmax

/-- R34, R35: the MAC context. -/
abbrev MacOk (m : MacCtx) : Prop :=
  (m.state = .unkeyed ↔ m.outer = none) ∧ (m.state = .unkeyed ↔ m.inner = none) ∧ (m.state = .live ↔ m.live ≠ none)
    ∧ (∀ st ∈ m.outer, st.alg = m.hsel) ∧ (∀ st ∈ m.inner, st.alg = m.hsel) ∧ (∀ st ∈ m.live, st.alg = m.hsel)
    ∧ (m.state = .unkeyed → m.outlen = 0) ∧ (m.state ≠ .unkeyed → 1 ≤ m.outlen ∧ m.outlen ≤ digestLen m.hsel)

/-- R37: every scratch item and DIG is all zero. -/
abbrev Wiped (u : Instance) : Prop := u.scratch = Scratch.zero ∧ u.mac.dig = digZero

/-- R36, R222, R225: the sequencer. While BUSY, DONE is 0 and the command in CMDL is legal with its guards
holding, and it is a recovery command if the instance is halted; ERR is no reserved code. -/
abbrev SequencerOk (p : Params) (u : Instance) : Prop :=
  u.err.toNat ≤ 8
    ∧ (u.busy = true → u.done = false ∧ (halted u = false ∨ u.cmdl ∈ recoveryWords)
        ∧ match decode u.cmdl with
          | .ok i => guardsOf i p u = none
          | .illegal _ => False)

/-- R250: while its reset input is asserted the instance holds the reset state. -/
abbrev ResetOk (u : Instance) : Prop := u.inReset = true → u = { Instance.reset with inReset := true }

/-- An instance in a legal state. -/
abbrev InstanceOk (p : Params) (u : Instance) : Prop :=
  RegsOk p u.regs ∧ BuffersOk p u ∧ MacOk u.mac ∧ Wiped u ∧ SequencerOk p u ∧ ResetOk u

/-- The invariant of the machine: legal parameters (00_scope.md R5), one window for each instance, every instance
in a legal state. -/
abbrev State.Inv (s : State) : Prop :=
  s.params.ok = true ∧ s.insts.length = s.params.bases.length ∧ ∀ u ∈ s.insts, InstanceOk s.params u

/-- The key invariants of R24: what the host owes before it relies on the laws. That p and q are prime, the rest of
R24, is said where a claim needs it. -/
def KeyInvariants (n e d p q iqmp : Nat) : Prop :=
  n = p * q ∧ (e * d) % (p - 1) = 1 % (p - 1) ∧ (e * d) % (q - 1) = 1 % (q - 1) ∧ q < p ∧ (iqmp * q) % p = 1

/-- Steps 2 and 4 of R256 on a key whose primes stand in order: the congruences and the inverse. -/
def verifyOrdered (n e d p q iqmp : Nat) : Bool :=
  decide (n = p * q) && decide ((e * d) % (p - 1) = 1 % (p - 1)) && decide ((e * d) % (q - 1) = 1 % (q - 1))
    && decide ((iqmp * q) % p = 1 % p)

/-- The host's verification and canonicalisation of a private key (R256): p, q and iqmp to load, or none when
the key is rejected. It is no command of the block (00_scope.md R4 (c)). -/
def hostVerifyKey (n e d p q iqmp : Nat) : Option (Nat × Nat × Nat) :=
  if p ≤ q then
    match modinv p q with
    | some u => if verifyOrdered n e d q p u then some (q, p, u) else none
    | none => none
  else if verifyOrdered n e d p q iqmp then some (p, q, iqmp) else none

/-- What the host can learn of an instance from reads and the interrupt (20_memory.md R62, R229, R232): the
register words and the level of the interrupt line. -/
structure HostView where
  cmd : Word
  status : Word
  cfg : Word
  dataOut : Word
  inCnt : Word
  outCnt : Word
  kbits : Word
  kbytesWord : Word
  irqEn : Word
  irq : Bool
  deriving DecidableEq, Repr

/-- The view of an instance. -/
def hostView (p : Params) (u : Instance) : HostView :=
  { cmd := readWord p u 0x00, status := readWord p u 0x04, cfg := readWord p u 0x08, dataOut := readWord p u 0x10,
    inCnt := readWord p u 0x14, outCnt := readWord p u 0x18, kbits := readWord p u 0x1C,
    kbytesWord := readWord p u 0x20, irqEn := readWord p u 0x24, irq := irqLevel u }

/-- The next move is the host's aligned 32-bit write of w to offset `off` of the window of instance k, whose state is
u (20_memory.md R60, R65). -/
def NextWrite (s : State) (k off : Nat) (w : Word) (rest : List Turn) (u : Instance) : Prop :=
  ∃ addr, s.turns = .write addr 32 w :: rest ∧ addr % 4 = 0 ∧ windowOf s.params.bases addr = some (k, off)
    ∧ s.insts[k]? = some u

/-- The next move is the host's aligned 32-bit read of offset `off` of the window of instance k, whose state is u. -/
def NextRead (s : State) (k off : Nat) (rest : List Turn) (u : Instance) : Prop :=
  ∃ addr, s.turns = .read addr 32 :: rest ∧ addr % 4 = 0 ∧ windowOf s.params.bases addr = some (k, off)
    ∧ s.insts[k]? = some u

/-- The state in which the move just taken from the turns addresses instance k. -/
def turnTo (s : State) (k : Nat) (rest : List Turn) : State := { s with turns := rest, sel := k }

/-- The state after a move that leaves instance k as v and changes nothing else. -/
def afterTurn (s : State) (k : Nat) (rest : List Turn) (v : Instance) : State :=
  { s with turns := rest, sel := k, insts := s.insts.set k v }

/-- A MAC context keyed with the effective key `key` for hash h, with no computation in progress (43_hmac.md R193,
R194). -/
def Keyed (h : HashAlg) (key : Bytes) (u : Instance) : Prop :=
  u.mac.state = .idle ∧ u.mac.hsel = h ∧ u.mac.live = none
    ∧ u.mac.outer = some { alg := h, absorbed := opadBlock h key }
    ∧ u.mac.inner = some { alg := h, absorbed := ipadBlock h key }

/-- A MAC context keyed with `key` whose live computation has been fed the message m so far (R195, R196). -/
def Computing (h : HashAlg) (key m : Bytes) (u : Instance) : Prop :=
  u.mac.state = .live ∧ u.mac.hsel = h
    ∧ u.mac.live = some { alg := h, absorbed := ipadBlock h key ++ m }
    ∧ u.mac.outer = some { alg := h, absorbed := opadBlock h key }
    ∧ u.mac.inner = some { alg := h, absorbed := ipadBlock h key }

/-- The commands that touch the MAC context (43_hmac.md R190, R199). -/
def touchesMac (i : Instr) : Bool :=
  i == .hmkey || i == .hmstart || i == .hmupd || i == .hmfinal || i == .hmwipe || i == .wipeall

/-- The instance with the value of `x[D]` hidden, its presence kept (10_state.md R25). -/
def hideD (u : Instance) : Instance := { u with regs := { u.regs with d := u.regs.d.map (fun _ => 0) } }

/-- u is the instance addressed and is not held in reset. -/
def Addressed (s : State) (u : Instance) : Prop := selected s = some u ∧ u.inReset = false

/-- What the refusal of word w with a code leaves of an instance (60_exceptions.md R224). -/
def refusedWith (w : Word) (code : BitVec 8) (u : Instance) : Instance :=
  { u with cmdl := w, done := false, err := code, ibuf := [], obuf := [], scratch := Scratch.zero,
           mac := { u.mac with dig := digZero } }

/-- `answer` is what the guards of LDR.r answer for a register other than N (40_data_commands.md R112). -/
abbrev LdrGuard (p : Params) (u : Instance) (answer : Option ErrCode) : Prop :=
  answer = if p.kmax < kbytes (os2ip u.ibuf) then some .len else none

/-- `answer` is what the guards of a command answer that reads registers, all there when `present`, and needs the key
range (41_rsa_exponentiator.md R131, 60_exceptions.md R223). -/
abbrev KeyGuard (u : Instance) (present : Bool) (answer : Option ErrCode) : Prop :=
  (present = false → answer = some .noReg)
    ∧ (present = true → ∀ n p q, u.regs.n = some n → u.regs.p = some p → u.regs.q = some q →
        answer = if 2 ≤ n ∧ 2 ≤ q ∧ q < p then none else some .keyRange)

/-- Command i is in flight in the instance addressed (R36, R40): BUSY = 1 and CMDL is its word. -/
def InFlight (i : Instr) (s : State) (u : Instance) : Prop :=
  Addressed s u ∧ u.busy = true ∧ u.cmdl = encode i

/-- The instance addressed can launch command i (R221): it is not BUSY, and it is not halted unless i is a
recovery command. -/
def CanLaunch (i : Instr) (s : State) (u : Instance) : Prop :=
  Addressed s u ∧ u.busy = false ∧ (u.err = 0#8 ∨ encode i ∈ recoveryWords)

/-- The state after a completion step that leaves the instance u' (R40, R110): BUSY = 0, DONE = 1, every scratch
item and DIG zero, nothing else changed. -/
def completed (s : State) (u' : Instance) : State :=
  { s with
    insts := s.insts.set s.sel
      { u' with busy := false, done := true, scratch := Scratch.zero, mac := { u'.mac with dig := digZero } } }

end Sys2Proof.Machine
end

