-- ==== Sys2Proof/Certificates/Slice0/Obligations.lean ====
section
/-!
DEFINITION. The statements for the provers. Each docstring names the rule of spec/ the statement formalises; a
clause that rests on a choice of the model names its log entry.
-/

open Sys2Proof Sys2Proof.Machine

/-! ## Encoding (30_encoding.md) -/

/-- R92: decoding the word of a well-formed command gives the command back, every operand at every value. -/
def Obligations.DecodeOfEncode : Prop := ∀ i : Instr, i.wf = true → decode (encode i) = .ok i

/-- R92: the command a word decodes to is well formed, and its word is that word, so no bit is dropped. -/
def Obligations.EncodeOfDecode : Prop := ∀ (w : Word) (i : Instr), decode w = .ok i → i.wf = true ∧ encode i = w

/-- R93: a word is legal exactly when it matches a row of the map; the clauses by which it is illegal; and what
launching an illegal word does. -/
def Obligations.LegalExactlyWhenARowMatches : Prop :=
  (∀ w : Word,
    ((∃ i, decode w = .ok i) ↔ ∃ row ∈ opcodeRows, w &&& row.1 = row.2)
      ∧ ((∃ why, decode w = .illegal why)
          ↔ (fieldOpc w ∉ [0x00, 0x01, 0x02, 0x03, 0x04, 0x05, 0x06, 0x10, 0x11, 0x12, 0x20, 0x21, 0x30, 0x31, 0x32,
                0x33, 0x34]
              ∨ fieldRsv w ≠ 0
              ∨ (fieldImm16 w ≠ 0 ∧ fieldOpc w ≠ 0x20)
              ∨ (fieldSel w ≠ 0 ∧ fieldOpc w ≠ 0x01 ∧ fieldOpc w ≠ 0x11)
              ∨ (fieldOpc w = 0x01 ∧ 7 < fieldSel w)
              ∨ (fieldOpc w = 0x11 ∧ fieldSel w ≠ 1 ∧ fieldSel w ≠ 7))))
    ∧ ∀ s k w rest u why, NextWrite s k 0x00 w rest u → u.inReset = false → u.busy = false → u.err = 0#8 →
        decode w = .illegal why →
        step s = .next (afterTurn s k rest (refusedWith w 0x01#8 u))

/-- R92: every row of the opcode map, its word written out. -/
def Obligations.WordsOfTheOpcodeMap : Prop :=
  decode 0x00000000#32 = .ok .nop ∧ decode 0x00000001#32 = .ok .ldrN ∧ decode 0x00000101#32 = .ok .ldrE
    ∧ decode 0x00000201#32 = .ok .ldrD ∧ decode 0x00000301#32 = .ok .ldrP ∧ decode 0x00000401#32 = .ok .ldrQ
    ∧ decode 0x00000501#32 = .ok .ldrIqmp ∧ decode 0x00000601#32 = .ok .ldrA ∧ decode 0x00000701#32 = .ok .ldrX
    ∧ decode 0x00000002#32 = .ok .wipek ∧ decode 0x00000003#32 = .ok .clrib ∧ decode 0x00000004#32 = .ok .clrob
    ∧ decode 0x00000005#32 = .ok .clrerr ∧ decode 0x00000006#32 = .ok .wipeall ∧ decode 0x00000010#32 = .ok .pubop
    ∧ decode 0x00000111#32 = .ok .crtpowE ∧ decode 0x00000711#32 = .ok .crtpowX ∧ decode 0x00000012#32 = .ok .privop
    ∧ decode 0x00000020#32 = .ok (.mgfx 0) ∧ decode 0x00030020#32 = .ok (.mgfx 3)
    ∧ decode 0xFFFF0020#32 = .ok (.mgfx 65535) ∧ decode 0x00000021#32 = .ok .oaepenc
    ∧ decode 0x00000030#32 = .ok .hmkey ∧ decode 0x00000031#32 = .ok .hmstart ∧ decode 0x00000032#32 = .ok .hmupd
    ∧ decode 0x00000033#32 = .ok .hmfinal ∧ decode 0x00000034#32 = .ok .hmwipe

/-! ## Reset (10_state.md R41, 70_reset_and_hazards.md R250 to R252) -/

/-- R41, R251: every value of the reset table, for every instance and whatever the parameters are. -/
def Obligations.ResetLeavesTheTable : Prop :=
  ∀ (p : Params), ∀ u ∈ (State.resetWith p).insts,
    (∀ r, readReg u.regs r = none) ∧ u.ibuf = [] ∧ u.obuf = [] ∧ u.cmdl = 0#32
      ∧ u.busy = false ∧ u.done = false ∧ u.ovr = false ∧ u.err = 0#8
      ∧ u.cfg = { hsel := 0#4, bugkey := false, outlen := 0#6 }
      ∧ u.irqEn = { doneIe := false, errIe := false } ∧ irqLevel u = false
      ∧ u.mac.state = .unkeyed ∧ u.mac.outer = none ∧ u.mac.inner = none ∧ u.mac.live = none
      ∧ u.mac.hsel = .md5 ∧ u.mac.outlen = 0 ∧ u.mac.dig = List.replicate 64 0#8
      ∧ u.scratch = Scratch.zero
      ∧ modulusBits u = 0 ∧ modulusBytes u = 0 ∧ kpub u = false ∧ kpriv u = false ∧ presBits u.regs = 0#8
      ∧ readWord p u 0x14 = 0#32 ∧ readWord p u 0x18 = 0#32 ∧ readWord p u 0x28 = p.idValue

/-- R5, R41: the invariant holds at reset for every legal choice of the parameters, and at `State.reset`; the
values of the parameters at `State.reset` are the model's choice (log entries 3 and 4). -/
def Obligations.ResetIsLegal : Prop := (∀ p : Params, p.ok = true → (State.resetWith p).Inv) ∧ State.reset.Inv

/-- R250, R252: asserting the reset input puts the instance into the reset state, whatever was in flight; while it
is asserted a host write changes nothing; releasing it changes only its level; no other instance changes. -/
def Obligations.ResetInputAbandonsTheCommand : Prop :=
  (∀ s k rest u, s.turns = .reset k true :: rest → s.insts[k]? = some u →
      step s = .next (afterTurn s k rest { Instance.reset with inReset := true }))
    ∧ (∀ s k rest u, s.turns = .reset k false :: rest → s.insts[k]? = some u →
      step s = .next (afterTurn s k rest { u with inReset := false }))
    ∧ ∀ s k off w rest u, NextWrite s k off w rest u → u.inReset = true → step s = .next (turnTo s k rest)

/-! ## A step runs the decoded command -/

/-- R40, R63: the host's write of a legal command word to CMD of an instance that is neither BUSY nor in reset
runs that command there; all that `step` adds is to take the move and to address the instance. -/
def Obligations.StepLaunchesTheDecodedCommand : Prop :=
  ∀ s k w rest u i, NextWrite s k 0x00 w rest u → u.inReset = false → u.busy = false → decode w = .ok i →
    step s = exec i (turnTo s k rest)

/-- R36, R40: a turn of the sequencer of a BUSY instance runs the command in CMDL there. -/
def Obligations.StepCompletesTheCommandInFlight : Prop :=
  ∀ s k rest u i, s.turns = .sequencer k :: rest → s.insts[k]? = some u → u.busy = true → decode u.cmdl = .ok i →
    step s = exec i (turnTo s k rest)

/-- Log entry 1 (the model's choice): with no move pending, a step is a completion step of a BUSY instance or
changes nothing; and it completes one whenever some instance's completion is enabled. -/
def Obligations.IdleStepCompletesOrStands : Prop :=
  ∀ s, s.turns = [] →
    (step s = .next s ∧ ∀ k t, sequencerStep { s with sel := k } = .next t → busyAt s k = true → busyAt t k = true)
      ∨ ∃ k t, step s = .next t ∧ sequencerStep { s with sel := k } = .next t ∧ busyAt s k = true ∧ busyAt t k = false

/-! ## The host interface (20_memory.md) -/

/-- R60, R61: with legal parameters, offset `off` of the window of instance k is reached at BASE[k] + off, and an
address in no window is reached nowhere and refused (log entry 10). -/
def Obligations.WindowsAreWhereTheBasesSay : Prop :=
  ∀ p : Params, p.ok = true →
    (∀ k off, k < p.bases.length → off < 0x40 → windowOf p.bases (p.bases.getD k 0 + off) = some (k, off))
      ∧ ∀ addr, (∀ b ∈ p.bases, addr < b ∨ b + 0x40 ≤ addr) →
          windowOf p.bases addr = none
            ∧ ∀ s width v rest, s.params = p →
                (s.turns = .read addr width :: rest → step s = .refused .outsideWindows)
                  ∧ (s.turns = .write addr width v :: rest → step s = .refused .outsideWindows)

/-- R65: an access that is not 32 bits wide or not at a multiple of 4 has no meaning; the model refuses the host
move that makes one. -/
def Obligations.UndefinedAccessIsRefused : Prop :=
  ∀ s addr width v rest k off, windowOf s.params.bases addr = some (k, off) → (width ≠ 32 ∨ addr % 4 ≠ 0) →
    (s.turns = .read addr width :: rest → step s = .refused .undefinedAccess)
      ∧ (s.turns = .write addr width v :: rest → step s = .refused .undefinedAccess)

/-- R62: what each read returns, in every state of the instance, and that only DATA_OUT's has a side effect. -/
def Obligations.ReadsReturnTheTable : Prop :=
  ∀ s k off rest u, NextRead s k off rest u →
    ∃ v u', step s = .next { afterTurn s k rest u' with hostSaw := s.hostSaw ++ [v] }
      ∧ (off ≠ 0x10 → u' = u) ∧ (off = 0x10 → v = dataOutWord u ∧ u' = popOut u)
      ∧ (off = 0x00 → v = u.cmdl) ∧ (off = 0x04 → v = statusWord u) ∧ (off = 0x08 → v = cfgWord u.cfg)
      ∧ (off = 0x0C → v = 0#32) ∧ (off = 0x14 → v = BitVec.ofNat 32 u.ibuf.length)
      ∧ (off = 0x18 → v = BitVec.ofNat 32 u.obuf.length)
      ∧ (off = 0x1C → v = BitVec.ofNat 32 (match u.regs.n with | some n => bitcount n | none => 0))
      ∧ (off = 0x20 → v = BitVec.ofNat 32 (match u.regs.n with | some n => (bitcount n + 7) / 8 | none => 0))
      ∧ (off = 0x24 → v = irqEnWord u.irqEn) ∧ (off = 0x28 → v = s.params.idValue)
      ∧ (0x2C ≤ off → v = 0#32)

/-- R73: a read of DATA_OUT removes and returns the first byte of OBUF when BUSY = 0 and OBUF is not empty, and
otherwise returns 0 and changes nothing. -/
def Obligations.DataOutRemovesTheFirstByte : Prop :=
  ∀ s k rest u, NextRead s k 0x10 rest u →
    (∀ b t, u.busy = false → u.obuf = b :: t →
        step s = .next { afterTurn s k rest { u with obuf := t } with hostSaw := s.hostSaw ++ [b.zeroExtend 32] })
      ∧ ((u.busy = true ∨ u.obuf = []) →
        step s = .next { afterTurn s k rest u with hostSaw := s.hostSaw ++ [0#32] })

/-- R72: a write to DATA_IN that is not ignored appends bits 7:0 of the value to IBUF, or sets OVR when IBUF is
full. -/
def Obligations.DataInAppendsAByte : Prop :=
  ∀ s k v rest u, NextWrite s k 0x0C v rest u → u.inReset = false → u.busy = false →
    (u.ibuf.length < s.params.ibmax →
        step s = .next (afterTurn s k rest { u with ibuf := u.ibuf ++ [v.extractLsb' 0 8] }))
      ∧ (u.ibuf.length = s.params.ibmax → step s = .next (afterTurn s k rest { u with ovr := true }))

/-- R63: writes to CFG and IRQ_EN store their fields; writes to read-only and reserved offsets are ignored in every
state. -/
def Obligations.RegisterWritesStoreTheirFields : Prop :=
  ∀ s k off v rest u, NextWrite s k off v rest u →
    (off = 0x08 → u.inReset = false → u.busy = false →
        step s = .next (afterTurn s k rest
          { u with cfg := { hsel := v.extractLsb' 0 4, bugkey := v.getLsbD 4, outlen := v.extractLsb' 8 6 } }))
      ∧ (off = 0x24 → u.inReset = false → u.busy = false →
        step s = .next (afterTurn s k rest { u with irqEn := { doneIe := v.getLsbD 0, errIe := v.getLsbD 1 } }))
      ∧ ((off = 0x04 ∨ (0x10 ≤ off ∧ off ≤ 0x20) ∨ (0x28 ≤ off ∧ off ≤ 0x3C)) → step s = .next (turnTo s k rest))

/-- R221: (a) a write to a writable register while BUSY = 1 is ignored but for OVR; (b) a write to CMD while
halted is ignored, with no state change at all, unless it is the exact word of a recovery command. -/
def Obligations.IgnoredWrites : Prop :=
  (∀ s k off w rest u, NextWrite s k off w rest u → u.inReset = false → u.busy = true →
      (off = 0x00 ∨ off = 0x08 ∨ off = 0x0C ∨ off = 0x24) →
      step s = .next (afterTurn s k rest { u with ovr := true }))
    ∧ (∀ s k w rest u, NextWrite s k 0x00 w rest u → u.inReset = false → u.busy = false → u.err ≠ 0#8 →
      w ∉ [0x00000005#32, 0x00000003#32, 0x00000004#32, 0x00000002#32, 0x00000034#32, 0x00000006#32] →
      step s = .next (turnTo s k rest))
    ∧ ∀ s k w rest u, NextWrite s k 0x00 w rest u → u.inReset = false → u.busy = false →
      w ∈ [0x00000005#32, 0x00000003#32, 0x00000004#32, 0x00000002#32, 0x00000034#32, 0x00000006#32] →
      step s = .next (afterTurn s k rest { u with cmdl := w, done := false, busy := true })

/-- R22, R30, R31, R32: the fields of STATUS, bit by bit; CFG and IRQ_EN read back what was written, reserved bits
dropped. -/
def Obligations.RegisterWordFields : Prop :=
  (∀ v : Word, cfgWord (cfgOfWord v) = v &&& 0x00003F1F#32 ∧ irqEnWord (irqEnOfWord v) = v &&& 0x00000003#32)
    ∧ ∀ u : Instance,
    (statusWord u).getLsbD 0 = u.busy ∧ (statusWord u).getLsbD 1 = u.done ∧ (statusWord u).getLsbD 2 = u.ovr
      ∧ (statusWord u).getLsbD 3 = false
      ∧ (statusWord u).extractLsb' 4 2
          = (match u.mac.state with | .unkeyed => 0#2 | .idle => 1#2 | .live => 2#2)
      ∧ (statusWord u).getLsbD 6 = (u.regs.n.isSome && u.regs.e.isSome)
      ∧ (statusWord u).getLsbD 7
          = (u.regs.n.isSome && u.regs.e.isSome && u.regs.d.isSome && u.regs.p.isSome && u.regs.q.isSome
              && u.regs.iqmp.isSome)
      ∧ (statusWord u).extractLsb' 8 8 = u.err
      ∧ (statusWord u).getLsbD 16 = u.regs.n.isSome ∧ (statusWord u).getLsbD 17 = u.regs.e.isSome
      ∧ (statusWord u).getLsbD 18 = u.regs.d.isSome ∧ (statusWord u).getLsbD 19 = u.regs.p.isSome
      ∧ (statusWord u).getLsbD 20 = u.regs.q.isSome ∧ (statusWord u).getLsbD 21 = u.regs.iqmp.isSome
      ∧ (statusWord u).getLsbD 22 = u.regs.a.isSome ∧ (statusWord u).getLsbD 23 = u.regs.x.isSome
      ∧ (statusWord u).extractLsb' 24 8 = 0#8

/-- R228: the interrupt level. -/
def Obligations.InterruptLevel : Prop :=
  ∀ u : Instance, irqLevel u = true ↔ (u.irqEn.doneIe = true ∧ u.done = true) ∨ (u.irqEn.errIe = true ∧ u.err ≠ 0#8)

/-! ## Launch and refusal (10_state.md R40, 60_exceptions.md R222 to R225) -/

/-- R222, R224: the refusal of any command, and of any illegal word, in one launch step: `CMDL <- w`, `DONE <- 0`,
`ERR <- code`, both buffers emptied, scratch wiped, and nothing else changes; and the codes. -/
def Obligations.RefusalEntry : Prop :=
  (∀ i s u c, CanLaunch i s u → guardsOf i s.params u = some c →
      exec i s = .next (setSelected s
        { u with
          cmdl := encode i
          done := false
          err := errByte c
          ibuf := []
          obuf := []
          scratch := Scratch.zero
          mac := { u.mac with dig := digZero } }))
    ∧ (∀ s k w rest u why, NextWrite s k 0x00 w rest u → u.inReset = false → u.busy = false → u.err = 0#8 →
      decode w = .illegal why →
      step s = .next (afterTurn s k rest
        { u with
          cmdl := w
          done := false
          err := 0x01#8
          ibuf := []
          obuf := []
          scratch := Scratch.zero
          mac := { u.mac with dig := digZero } }))
    ∧ errByte .illegal = 0x01#8 ∧ errByte .cfg = 0x02#8 ∧ errByte .noReg = 0x03#8 ∧ errByte .keyRange = 0x04#8
    ∧ errByte .len = 0x05#8 ∧ errByte .zeroMod = 0x06#8 ∧ errByte .oaepLen = 0x07#8 ∧ errByte .hmState = 0x08#8

/-- R40, R110: the launch of any command all of whose guards pass sets CMDL, DONE and BUSY and changes nothing
else. -/
def Obligations.AcceptedLaunch : Prop :=
  ∀ i s u, CanLaunch i s u → guardsOf i s.params u = none →
    exec i s = .next (setSelected s { u with cmdl := encode i, done := false, busy := true })

/-- R225: a refusal's code is never overwritten by a second one; only 0 can replace it. -/
def Obligations.FirstErrorCodeIsKept : Prop :=
  ∀ (s t : State) (k : Nat) (u v : Instance), step s = .next t → s.insts[k]? = some u → t.insts[k]? = some v → u.err ≠ 0#8 →
    v.err = u.err ∨ v.err = 0#8

/-! ## Data-movement and housekeeping commands (40_data_commands.md) -/

/-- R111: NOP. -/
def Obligations.NopCommand : Prop :=
  encode .nop = 0x00000000#32 ∧ (∀ p u, guardsOf .nop p u = none) ∧ encode .nop ∉ recoveryWords
    ∧ (∀ s u, InFlight .nop s u → exec .nop s = .next (completed s u))
    ∧ ∀ s u, Addressed s u → u.busy = false → u.err ≠ 0#8 → exec .nop s = .next s

/-- R112: LDR in its eight forms: the encoding, the guards in order, and `x[r] <- OS2IP(IBUF)`, `IBUF <- empty`,
every other register kept. -/
def Obligations.LdrCommand : Prop :=
  (encode .ldrN = 0x00000001#32 ∧ encode .ldrE = 0x00000101#32 ∧ encode .ldrD = 0x00000201#32
      ∧ encode .ldrP = 0x00000301#32 ∧ encode .ldrQ = 0x00000401#32 ∧ encode .ldrIqmp = 0x00000501#32
      ∧ encode .ldrA = 0x00000601#32 ∧ encode .ldrX = 0x00000701#32)
    ∧ (∀ p u,
        (guardsOf .ldrN p u
            = if p.kmax < kbytes (os2ip u.ibuf) then some .len else if os2ip u.ibuf = 0 then some .zeroMod else none)
          ∧ LdrGuard p u (guardsOf .ldrE p u) ∧ LdrGuard p u (guardsOf .ldrD p u) ∧ LdrGuard p u (guardsOf .ldrP p u)
          ∧ LdrGuard p u (guardsOf .ldrQ p u) ∧ LdrGuard p u (guardsOf .ldrIqmp p u)
          ∧ LdrGuard p u (guardsOf .ldrA p u) ∧ LdrGuard p u (guardsOf .ldrX p u))
    ∧ ∀ s u, kbytes (os2ip u.ibuf) ≤ s.params.kmax →
        (InFlight .ldrN s u → os2ip u.ibuf ≠ 0 →
            exec .ldrN s = .next (completed s { u with regs := { u.regs with n := some (os2ip u.ibuf) }, ibuf := [] }))
          ∧ (InFlight .ldrE s u →
            exec .ldrE s = .next (completed s { u with regs := { u.regs with e := some (os2ip u.ibuf) }, ibuf := [] }))
          ∧ (InFlight .ldrD s u →
            exec .ldrD s = .next (completed s { u with regs := { u.regs with d := some (os2ip u.ibuf) }, ibuf := [] }))
          ∧ (InFlight .ldrP s u →
            exec .ldrP s = .next (completed s { u with regs := { u.regs with p := some (os2ip u.ibuf) }, ibuf := [] }))
          ∧ (InFlight .ldrQ s u →
            exec .ldrQ s = .next (completed s { u with regs := { u.regs with q := some (os2ip u.ibuf) }, ibuf := [] }))
          ∧ (InFlight .ldrIqmp s u →
            exec .ldrIqmp s
              = .next (completed s { u with regs := { u.regs with iqmp := some (os2ip u.ibuf) }, ibuf := [] }))
          ∧ (InFlight .ldrA s u →
            exec .ldrA s = .next (completed s { u with regs := { u.regs with a := some (os2ip u.ibuf) }, ibuf := [] }))
          ∧ (InFlight .ldrX s u →
            exec .ldrX s = .next (completed s { u with regs := { u.regs with x := some (os2ip u.ibuf) }, ibuf := [] }))

/-- R7, R112: leading zero bytes change neither the number loaded nor its byte length; a number round-trips
through its own bytes. -/
def Obligations.LeadingZerosAreFree : Prop :=
  (∀ (s : Bytes) (m : Nat), os2ip (zeros m ++ s) = os2ip s)
    ∧ (∀ x k : Nat, (i2osp x k).length = k ∧ (kbytes x ≤ k → os2ip (i2osp x k) = x))
    ∧ ∀ x : Nat, kbytes x = (Nat.size x + 7) / 8

/-- R113: WIPEK. -/
def Obligations.WipekCommand : Prop :=
  encode .wipek = 0x00000002#32 ∧ encode .wipek ∈ recoveryWords ∧ (∀ p u, guardsOf .wipek p u = none)
    ∧ ∀ s u, InFlight .wipek s u →
        exec .wipek s
          = .next (completed s
              { u with
                regs :=
                  { n := none, e := none, d := none, p := none, q := none, iqmp := none, a := none, x := none } })

/-- R114, R115: CLRIB and CLROB. -/
def Obligations.ClearBufferCommands : Prop :=
  encode .clrib = 0x00000003#32 ∧ encode .clrob = 0x00000004#32
    ∧ encode .clrib ∈ recoveryWords ∧ encode .clrob ∈ recoveryWords
    ∧ (∀ p u, guardsOf .clrib p u = none ∧ guardsOf .clrob p u = none)
    ∧ ∀ s u,
        (InFlight .clrib s u → exec .clrib s = .next (completed s { u with ibuf := [] }))
          ∧ (InFlight .clrob s u → exec .clrob s = .next (completed s { u with obuf := [] }))

/-- R116, R226: CLRERR, the return from the halted state, and the only command besides WIPEALL that clears ERR. -/
def Obligations.ClrerrCommand : Prop :=
  encode .clrerr = 0x00000005#32 ∧ encode .clrerr ∈ recoveryWords ∧ (∀ p u, guardsOf .clrerr p u = none)
    ∧ (∀ s u, InFlight .clrerr s u → exec .clrerr s = .next (completed s { u with err := 0#8, ovr := false }))
    ∧ ∀ i s t u v, selected s = some u → exec i s = .next t → selected t = some v → u.err ≠ 0#8 → v.err = 0#8 →
        i = .clrerr ∨ i = .wipeall

/-- R117: WIPEALL leaves every piece of state at its reset value but CMDL, DONE and IRQ_EN; it cannot be launched
while another command is in flight. -/
def Obligations.WipeallCommand : Prop :=
  encode .wipeall = 0x00000006#32 ∧ encode .wipeall ∈ recoveryWords ∧ (∀ p u, guardsOf .wipeall p u = none)
    ∧ (∀ s u, InFlight .wipeall s u →
        exec .wipeall s
          = .next (setSelected s { Instance.reset with cmdl := 0x00000006#32, done := true, irqEn := u.irqEn }))
    ∧ ∀ s u, Addressed s u → u.busy = true → u.cmdl ≠ 0x00000006#32 →
        exec .wipeall s = .next (setSelected s { u with ovr := true })

/-! ## The RSA exponentiator (41_rsa_exponentiator.md) -/

/-- R132: PUBOP. -/
def Obligations.PubopCommand : Prop :=
  encode .pubop = 0x00000010#32
    ∧ (∀ p u, guardsOf .pubop p u
        = if u.regs.n.isSome ∧ u.regs.e.isSome ∧ u.regs.a.isSome then none else some .noReg)
    ∧ ∀ s u n e a, InFlight .pubop s u → u.regs.n = some n → u.regs.e = some e → u.regs.a = some a →
        exec .pubop s = .next (completed s { u with obuf := i2osp (a ^ e % n) ((bitcount n + 7) / 8) })

/-- R133: `CrtModpow`, every temporary written out, inside the domain of R131; its result is below n. The clause for
n = p * q is an inference the spec marks as its own: "When n = p * q the two readings give the same number", marked
"[derived: from this rule]". -/
def Obligations.CrtModpowFormula : Prop :=
  ∀ base exp n p q u : Nat, 1 ≤ n → 2 ≤ q → q < p →
    (∀ presult qresult, presult = base ^ (exp % (p - 1)) % p → qresult = base ^ (exp % (q - 1)) % q →
        crtModpow base exp n p q u
          = (qresult + ((if presult < qresult then presult + p else presult) - qresult) * u * q) % n
        ∧ qresult ≤ (if presult < qresult then presult + p else presult)
        ∧ (n = p * q →
            crtModpow base exp n p q u
              = qresult + ((if presult < qresult then presult + p else presult) - qresult) * u * q % n))
      ∧ crtModpow base exp n p q u < n

/-- R130, R131, R134: CRTPOW in its two forms. -/
def Obligations.CrtpowCommand : Prop :=
  encode .crtpowE = 0x00000111#32 ∧ encode .crtpowX = 0x00000711#32 ∧ decode 0x00000211#32 = .illegal .badRegister
    ∧ (∀ p u,
        KeyGuard u (u.regs.n.isSome && u.regs.p.isSome && u.regs.q.isSome && u.regs.iqmp.isSome && u.regs.a.isSome
            && u.regs.e.isSome) (guardsOf .crtpowE p u)
          ∧ KeyGuard u (u.regs.n.isSome && u.regs.p.isSome && u.regs.q.isSome && u.regs.iqmp.isSome
            && u.regs.a.isSome && u.regs.x.isSome) (guardsOf .crtpowX p u))
    ∧ ∀ s u n p q iqmp a exp,
        u.regs.n = some n → u.regs.p = some p → u.regs.q = some q → u.regs.iqmp = some iqmp → u.regs.a = some a →
        2 ≤ n → 2 ≤ q → q < p →
        (InFlight .crtpowE s u → u.regs.e = some exp →
            exec .crtpowE s = .next (completed s { u with obuf := i2osp (crtModpow a exp n p q iqmp) (kbytes n) }))
          ∧ (InFlight .crtpowX s u → u.regs.x = some exp →
            exec .crtpowX s = .next (completed s { u with obuf := i2osp (crtModpow a exp n p q iqmp) (kbytes n) }))

/-- R138, R139: the candidates as the rules write them: bit m of the stream bytes of candidate t, least significant
bit of each byte first, weighs 2^(nb-1-m). -/
def Obligations.CandidatesFollowTheStream : Prop :=
  ∀ n d a t : Nat,
    cand n d a t
        = ∑ m ∈ Finset.range (bitcount n),
            ((kdfStream d a (t * ((bitcount n + 7) / 8) + m / 8)).toNat / 2 ^ (m % 8) % 2) * 2 ^ (bitcount n - 1 - m)
      ∧ cand n d a t < 2 ^ bitcount n
      ∧ ∀ i, kdfStream d a i
          = (hash .sha512 (hash .sha512 (kdfLabel ++ be32 (i / 64) ++ mpEncode d) ++ mpEncode a)).getD (i % 64) 0#8

/-- R130, R140, R142: PRIVOP, with the blinding factor the least accepted candidate. -/
def Obligations.PrivopCommand : Prop :=
  encode .privop = 0x00000012#32
    ∧ (∀ p u,
        KeyGuard u (u.regs.n.isSome && u.regs.e.isSome && u.regs.d.isSome && u.regs.p.isSome && u.regs.q.isSome
          && u.regs.iqmp.isSome && u.regs.a.isSome) (guardsOf .privop p u))
    ∧ ∀ s u n e d p q iqmp a t r rInv,
        InFlight .privop s u →
        u.regs.n = some n → u.regs.e = some e → u.regs.d = some d → u.regs.p = some p → u.regs.q = some q →
        u.regs.iqmp = some iqmp → u.regs.a = some a → 2 ≤ n → 2 ≤ q → q < p →
        r = cand n d a t → (0 < r ∧ r < n ∧ Nat.Coprime r n) →
        (∀ j < t, ¬ (0 < cand n d a j ∧ cand n d a j < n ∧ Nat.Coprime (cand n d a j) n)) →
        rInv < n → r * rInv % n = 1 % n →
        exec .privop s
          = .next (completed s
              { u with
                obuf :=
                  i2osp (crtModpow (a * crtModpow r e n p q iqmp % n) d n p q iqmp * rInv % n) (kbytes n) })

/-- R141: a PRIVOP for which no candidate is acceptable has no completion step; its instance stays BUSY with no error
raised, its registers as they were, through every step but an assertion of its reset input. -/
def Obligations.PrivopWithoutCandidateStaysBusy : Prop :=
  (∀ s u n d a, InFlight .privop s u → u.regs.n = some n → u.regs.d = some d → u.regs.a = some a →
      (∀ t, ¬ (0 < cand n d a t ∧ cand n d a t < n ∧ Nat.Coprime (cand n d a t) n)) →
      exec .privop s = .next s)
    ∧ ∀ s t k u n d a, s.insts[k]? = some u → u.busy = true → u.cmdl = 0x00000012#32 →
      u.regs.n = some n → u.regs.d = some d → u.regs.a = some a →
      (∀ j, ¬ (0 < cand n d a j ∧ cand n d a j < n ∧ Nat.Coprime (cand n d a j) n)) →
      (∀ rest, s.turns ≠ .reset k true :: rest) → step s = .next t →
      ∃ v, t.insts[k]? = some v ∧ v.busy = true ∧ v.done = u.done ∧ v.cmdl = u.cmdl ∧ v.err = u.err ∧ v.regs = u.regs

/-- R135, which the spec marks derived: the CRT law, outside the case the rule excepts. -/
def Obligations.CrtLaw : Prop :=
  ∀ base exp p q u : Nat, p.Prime → q.Prime → q < p → u * q % p = 1 →
    (∀ r, (r = p ∨ r = q) → ¬ (r ∣ base ∧ 0 < exp ∧ exp % (r - 1) = 0)) →
    crtModpow base exp (p * q) p q u = base ^ exp % (p * q)

/-- R143: whenever PRIVOP completes on a key that satisfies the invariants with odd primes, its result is
`A^D mod N`, whatever the accepted blinding factor is. -/
def Obligations.PrivopLaw : Prop :=
  ∀ s u n e d p q iqmp a,
    InFlight .privop s u →
    u.regs.n = some n → u.regs.e = some e → u.regs.d = some d → u.regs.p = some p → u.regs.q = some q →
    u.regs.iqmp = some iqmp → u.regs.a = some a →
    KeyInvariants n e d p q iqmp → p.Prime → q.Prime → 3 ≤ q →
    (∃ t, 0 < cand n d a t ∧ cand n d a t < n ∧ Nat.Coprime (cand n d a t) n) →
    exec .privop s = .next (completed s { u with obuf := i2osp (a ^ d % n) (kbytes n) })

/-- R143: PUBOP applied to the result of PRIVOP returns `a mod n`. -/
def Obligations.PubopUndoesPrivop : Prop :=
  ∀ s u n e d p q iqmp a,
    InFlight .pubop s u → u.regs.n = some n → u.regs.e = some e → u.regs.a = some (a ^ d % n) →
    KeyInvariants n e d p q iqmp → p.Prime → q.Prime → 3 ≤ q →
    exec .pubop s = .next (completed s { u with obuf := i2osp (a % n) (kbytes n) })

/-- R25: `x[D]` is read by PRIVOP and by no other command: replacing its value changes nothing of what any other
command does, but the value itself where it is kept; and no form of CRTPOW selects it. -/
def Obligations.OnlyPrivopReadsD : Prop :=
  (decode 0x00000211#32 = .illegal .badRegister) ∧ ∀ i s u d d', i ≠ .privop → selected s = some u → u.regs.d = some d →
    ∀ t, exec i s = .next t →
      ∃ t' v v', exec i (setSelected s { u with regs := { u.regs with d := some d' } }) = .next t'
        ∧ selected t = some v ∧ selected t' = some v' ∧ hideD v = hideD v' ∧ t'.draws = t.draws
        ∧ t'.hostSaw = t.hostSaw ∧ t'.turns = t.turns

/-- R24, R256: a key the host's verification accepts, with the parts it answers, satisfies the key invariants. -/
def Obligations.VerifiedKeysSatisfyTheInvariants : Prop :=
  ∀ n e d p q iqmp p' q' u', 2 ≤ p → 2 ≤ q → hostVerifyKey n e d p q iqmp = some (p', q', u') →
    KeyInvariants n e d p' q' u'

/-! ## The OAEP unit (42_oaep.md) -/

/-- R171: the bytes of `MgfXor`. -/
def Obligations.MgfXorBytes : Prop :=
  ∀ (h : HashAlg) (seed target : Bytes),
    (mgfXor h seed target).length = target.length
      ∧ ∀ i < target.length,
          (mgfXor h seed target)[i]?
            = some (target.getD i 0#8 ^^^ (hash h (seed ++ be32 (i / digestLen h))).getD (i % digestLen h) 0#8)

/-- R172: MGFX S. -/
def Obligations.MgfxCommand : Prop :=
  ∀ S : Nat,
    (S < 2 ^ 16 → encode (.mgfx S) = BitVec.ofNat 32 (0x00000020 + S * 0x10000))
      ∧ (∀ p u, guardsOf (.mgfx S) p u
          = if 3 < u.cfg.hsel.toNat then some .cfg else if u.ibuf.length < S then some .len else none)
      ∧ ∀ s u h, InFlight (.mgfx S) s u → hashOfSel u.cfg.hsel = some h → S ≤ u.ibuf.length →
          exec (.mgfx S) s
            = .next (completed s { u with obuf := mgfXor h (u.ibuf.take S) (u.ibuf.drop S), ibuf := [] })

/-- R173: the layout of the encoded block, byte 1 + i being the i-th draw (the bytes drawn are free values, log
entry 6). -/
def Obligations.OaepBlockLayout : Prop :=
  ∀ (h : HashAlg) (k : Nat) (seed msg : Bytes), seed.length = digestLen h → msg.length + 2 * digestLen h + 2 ≤ k →
    (oaepBuild h k seed msg).length = k
      ∧ slice (oaepBuild h k seed msg) 0 1 = [0x00#8]
      ∧ slice (oaepBuild h k seed msg) 1 (1 + digestLen h) = seed
      ∧ (∀ drawn i, seed = drawBytes drawn (digestLen h) → i < digestLen h →
          (oaepBuild h k seed msg)[1 + i]? = some (Config.drawByte (drawn + i)))
      ∧ slice (oaepBuild h k seed msg) (1 + digestLen h) (1 + 2 * digestLen h) = hash h []
      ∧ slice (oaepBuild h k seed msg) (1 + 2 * digestLen h) (k - msg.length - 1)
          = zeros (k - msg.length - 2 * digestLen h - 2)
      ∧ slice (oaepBuild h k seed msg) (k - msg.length - 1) (k - msg.length) = [0x01#8]
      ∧ slice (oaepBuild h k seed msg) (k - msg.length) k = msg
      ∧ (slice (oaepBuild h k seed msg) (1 + digestLen h) k).length = k - digestLen h - 1

/-- R174: OAEPENC, the block built and masked as the rule writes it; exactly H draws in increasing order. The bytes
drawn are free values (log entry 6): the statement holds whatever they are. -/
def Obligations.OaepencCommand : Prop :=
  encode .oaepenc = 0x00000021#32
    ∧ (∀ p u h, hashOfSel u.cfg.hsel = none ∨ hashOfSel u.cfg.hsel = some h →
        guardsOf .oaepenc p u
          = if hashOfSel u.cfg.hsel = none then some .cfg
            else if ¬ (u.regs.n.isSome ∧ u.regs.e.isSome) then some .noReg
            else if 0 < u.ibuf.length ∧ u.ibuf.length + 2 * digestLen h + 2 ≤ modulusBytes u then none
            else some .oaepLen)
    ∧ ∀ s u h n e db maskedDb maskedSeed,
        InFlight .oaepenc s u → hashOfSel u.cfg.hsel = some h → u.regs.n = some n → u.regs.e = some e →
        0 < u.ibuf.length → u.ibuf.length + 2 * digestLen h + 2 ≤ kbytes n →
        db = hash h [] ++ zeros (kbytes n - u.ibuf.length - 2 * digestLen h - 2) ++ [0x01#8] ++ u.ibuf →
        maskedDb = mgfXor h (drawBytes s.draws (digestLen h)) db →
        maskedSeed = mgfXor h maskedDb (drawBytes s.draws (digestLen h)) →
        exec .oaepenc s
          = .next { completed s
                { u with
                  obuf := i2osp (os2ip ([0x00#8] ++ maskedSeed ++ maskedDb) ^ e % n) (kbytes n)
                  ibuf := [] } with
              draws := s.draws + digestLen h }

/-- R175 (a), (e): the masked block is below every modulus of its byte length, and reversing the two masks, the seed
first and then the data block, gives the built block back, so the message is recovered, whatever the seed. -/
def Obligations.OaepBlockIsRecoverable : Prop :=
  ∀ (h : HashAlg) (k : Nat) (seed msg maskedSeed maskedDb : Bytes), seed.length = digestLen h →
    msg.length + 2 * digestLen h + 2 ≤ k →
    maskedSeed = slice (oaepEm h k seed msg) 1 (1 + digestLen h) →
    maskedDb = slice (oaepEm h k seed msg) (1 + digestLen h) k →
    (oaepEm h k seed msg).length = k ∧ (oaepEm h k seed msg).head? = some 0x00#8
      ∧ (∀ n, n ≠ 0 → kbytes n = k → os2ip (oaepEm h k seed msg) < n)
      ∧ mgfXor h maskedDb maskedSeed = seed
      ∧ [0x00#8] ++ seed ++ mgfXor h seed maskedDb = oaepBuild h k seed msg

/-- R10: only OAEPENC draws: exactly H bytes at its completion, and no byte in any other step of any command. -/
def Obligations.OnlyOaepencDraws : Prop :=
  ∀ i s t u v, selected s = some u → exec i s = .next t → selected t = some v →
    (i = .oaepenc ∧ u.busy = true ∧ v.busy = false →
        ∃ h, hashOfSel u.cfg.hsel = some h ∧ t.draws = s.draws + digestLen h)
      ∧ (¬ (i = .oaepenc ∧ u.busy = true ∧ v.busy = false) → t.draws = s.draws)

/-! ## The HMAC unit (43_hmac.md) -/

/-- R192: the effective key, in all its cases. The last clause is an inference the spec marks as its own: "In every
case `len(key') <= B`", marked "[derived: from 00_scope.md rule R13, H <= B for all four hashes]"; the lengths of R13
are log entry 7's. -/
def Obligations.EffectiveKey : Prop :=
  ∀ (h : HashAlg) (key : Bytes),
    effectiveKey h true key = key.take (min 16 key.length)
      ∧ (blockLen h < key.length → effectiveKey h false key = hash h key)
      ∧ (key.length ≤ blockLen h → effectiveKey h false key = key)
      ∧ ∀ bug, (effectiveKey h bug key).length ≤ blockLen h

/-- R193, R194: HMKEY: both states absorb their pad block, the variant is latched, the context is IDLE, the key
bytes leave IBUF. -/
def Obligations.HmkeyCommand : Prop :=
  encode .hmkey = 0x00000030#32
    ∧ (∀ p u h, hashOfSel u.cfg.hsel = none ∨ hashOfSel u.cfg.hsel = some h →
        guardsOf .hmkey p u
          = if hashOfSel u.cfg.hsel = none then some .cfg
            else if digestLen h < u.cfg.outlen.toNat then some .cfg
            else if u.mac.state = .live then some .hmState else none)
    ∧ ∀ s u h key opad ipad,
        InFlight .hmkey s u → hashOfSel u.cfg.hsel = some h → u.cfg.outlen.toNat ≤ digestLen h → u.mac.state ≠ .live →
        key = effectiveKey h u.cfg.bugkey u.ibuf →
        opad.length = blockLen h → ipad.length = blockLen h →
        (∀ i < blockLen h, opad[i]? = some (key.getD i 0x00#8 ^^^ 0x5C#8)) →
        (∀ i < blockLen h, ipad[i]? = some (key.getD i 0x00#8 ^^^ 0x36#8)) →
        exec .hmkey s
          = .next (completed s
              { u with
                ibuf := []
                mac :=
                  { u.mac with
                    state := .idle
                    hsel := h
                    outlen := if u.cfg.outlen = 0#6 then digestLen h else u.cfg.outlen.toNat
                    outer := some { alg := h, absorbed := opad }
                    inner := some { alg := h, absorbed := ipad } } })

/-- R195, R196: HMSTART and HMUPD. -/
def Obligations.HmstartAndHmupdCommands : Prop :=
  encode .hmstart = 0x00000031#32 ∧ encode .hmupd = 0x00000032#32
    ∧ (∀ p u, guardsOf .hmstart p u = (if u.mac.state = .idle then none else some .hmState)
        ∧ guardsOf .hmupd p u = (if u.mac.state = .live then none else some .hmState))
    ∧ ∀ s u st,
        (InFlight .hmstart s u → u.mac.state = .idle → u.mac.inner = some st →
            exec .hmstart s = .next (completed s { u with mac := { u.mac with live := some st, state := .live } }))
          ∧ (InFlight .hmupd s u → u.mac.state = .live → u.mac.live = some st →
            exec .hmupd s
              = .next (completed s
                  { u with
                    ibuf := []
                    mac := { u.mac with live := some { st with absorbed := st.absorbed ++ u.ibuf } } }))

/-- R197: HMFINAL: the outer digest of the inner digest, its first HM_OUTLEN bytes in OBUF, the context IDLE and
still keyed, DIG wiped. -/
def Obligations.HmfinalCommand : Prop :=
  encode .hmfinal = 0x00000033#32
    ∧ (∀ p u, guardsOf .hmfinal p u = if u.mac.state = .live then none else some .hmState)
    ∧ ∀ s u live outer,
        InFlight .hmfinal s u → u.mac.state = .live → u.mac.live = some live → u.mac.outer = some outer →
        live.alg = u.mac.hsel → outer.alg = u.mac.hsel → u.mac.outlen ≤ digestLen u.mac.hsel →
        exec .hmfinal s
          = .next (completed s
              { u with
                obuf :=
                  (hash u.mac.hsel (outer.absorbed ++ hash u.mac.hsel live.absorbed)).take u.mac.outlen
                mac := { u.mac with live := none, state := .idle } })

/-- R198: HMWIPE. -/
def Obligations.HmwipeCommand : Prop :=
  encode .hmwipe = 0x00000034#32 ∧ encode .hmwipe ∈ recoveryWords ∧ (∀ p u, guardsOf .hmwipe p u = none)
    ∧ ∀ s u, InFlight .hmwipe s u →
        exec .hmwipe s
          = .next (completed s
              { u with
                mac :=
                  { state := .unkeyed, hsel := .md5, outlen := 0, outer := none, inner := none, live := none,
                    dig := digZero } })

/-- R200: the MAC law as an invariant of the computation. A context keyed by HMKEY, then HMSTART, HMUPDs whose
inputs concatenate to m in whatever pieces, with any step of any other command in between, gives at HMFINAL the
first HM_OUTLEN bytes of `Hash_h(opad ++ Hash_h(ipad ++ m))`, and is then keyed as before. -/
def Obligations.MacLaw : Prop :=
  ∀ (h : HashAlg) (key m : Bytes) (s t : State) (u v : Instance),
    s.Inv → selected s = some u → selected t = some v →
    (InFlight .hmkey s u → hashOfSel u.cfg.hsel = some h → key = effectiveKey h u.cfg.bugkey u.ibuf →
        exec .hmkey s = .next t → Keyed h key v)
      ∧ (Keyed h key u → InFlight .hmstart s u → exec .hmstart s = .next t → Computing h key [] v)
      ∧ (Computing h key m u → InFlight .hmupd s u → exec .hmupd s = .next t → Computing h key (m ++ u.ibuf) v)
      ∧ (Computing h key m u → InFlight .hmfinal s u → exec .hmfinal s = .next t →
        Keyed h key v ∧ v.obuf = (hash h (opadBlock h key ++ hash h (ipadBlock h key ++ m))).take u.mac.outlen)
      ∧ (∀ i, touchesMac i = false → exec i s = .next t →
        (Keyed h key u → Keyed h key v) ∧ (Computing h key m u → Computing h key m v))

/-- R199: the transitions of HM_STATE: which MAC command is refused in which state, the state each leads to when it
completes; reset leads to UNKEYED; every other step of a command leaves HM_STATE as it was. -/
def Obligations.MacTransitions : Prop :=
  (∀ p u,
      (u.mac.state = .unkeyed →
        guardsOf .hmstart p u = some .hmState ∧ guardsOf .hmupd p u = some .hmState
          ∧ guardsOf .hmfinal p u = some .hmState)
        ∧ (u.mac.state = .idle →
          guardsOf .hmstart p u = none ∧ guardsOf .hmupd p u = some .hmState ∧ guardsOf .hmfinal p u = some .hmState)
        ∧ (u.mac.state = .live →
          guardsOf .hmstart p u = some .hmState ∧ guardsOf .hmupd p u = none ∧ guardsOf .hmfinal p u = none)
        ∧ (∀ h, hashOfSel u.cfg.hsel = some h → u.cfg.outlen.toNat ≤ digestLen h →
          guardsOf .hmkey p u = if u.mac.state = .live then some .hmState else none)
        ∧ guardsOf .hmwipe p u = none)
    ∧ (∀ i s t u v, selected s = some u → exec i s = .next t → selected t = some v →
        (u.busy = true → v.busy = false →
            (i = .hmkey → u.mac.state ≠ .live ∧ v.mac.state = .idle)
              ∧ (i = .hmstart → u.mac.state = .idle ∧ v.mac.state = .live)
              ∧ (i = .hmupd → u.mac.state = .live ∧ v.mac.state = .live)
              ∧ (i = .hmfinal → u.mac.state = .live ∧ v.mac.state = .idle)
              ∧ (i = .hmwipe ∨ i = .wipeall → v.mac.state = .unkeyed))
          ∧ (touchesMac i = false ∨ u.busy = false ∨ v.busy = true → v.mac.state = u.mac.state))
    ∧ Instance.reset.mac.state = .unkeyed

/-- R190, R199, R224, R227: no command but the five MAC commands and WIPEALL touches the MAC context, and the launch
of any command, refused or not, leaves HM_STATE and the three hash states as they were. -/
def Obligations.OtherCommandsKeepTheMacContext : Prop :=
  ∀ i s t u v, selected s = some u → selected t = some v → exec i s = .next t →
    (touchesMac i = false ∨ u.busy = false) →
    v.mac.state = u.mac.state ∧ v.mac.hsel = u.mac.hsel ∧ v.mac.outlen = u.mac.outlen ∧ v.mac.outer = u.mac.outer
      ∧ v.mac.inner = u.mac.inner ∧ v.mac.live = u.mac.live

/-! ## The whole machine -/

/-- R21, R26, R27, R34 to R37, R225, R250: every step keeps the machine in a legal state. -/
def Obligations.StepKeepsTheMachineLegal : Prop := ∀ s t : State, s.Inv → step s = .next t → t.Inv

/-- R37: whenever BUSY = 0, every scratch item and DIG is all zero. -/
def Obligations.ScratchIsZeroWhenNotBusy : Prop :=
  ∀ s t : State, (∀ u ∈ s.insts, u.busy = false → Wiped u) → step s = .next t →
    ∀ v ∈ t.insts, v.busy = false → Wiped v

/-- R110: no command changes IRQ_EN, or CFG unless it is WIPEALL; ERR and OVR change only by a refusal, by CLRERR
and by WIPEALL (and OVR by the ignored launch of R221 (a)); nothing outside its instance changes. -/
def Obligations.CommandsKeepEverythingElse : Prop :=
  ∀ i s t u, selected s = some u → exec i s = .next t →
    ∃ v, selected t = some v ∧ v.irqEn = u.irqEn ∧ v.inReset = u.inReset
      ∧ (i ≠ .wipeall → v.cfg = u.cfg)
      ∧ (u.busy = true → i ≠ .wipeall → i ≠ .clrerr → v.err = u.err)
      ∧ (u.busy = false ∨ (u.cmdl = encode i ∧ i ≠ .wipeall ∧ i ≠ .clrerr) → v.ovr = u.ovr)
      ∧ t.params = s.params ∧ t.sel = s.sel ∧ t.turns = s.turns ∧ t.hostSaw = s.hostSaw
      ∧ ∀ k, k ≠ s.sel → t.insts[k]? = s.insts[k]?

/-- R230: instances share no state: a step changes at most the instance it addresses, and never the parameters or
the number of instances. -/
def Obligations.InstancesShareNothing : Prop :=
  ∀ s t, step s = .next t →
    t.params = s.params ∧ t.insts.length = s.insts.length ∧ ∀ k, k ≠ t.sel → t.insts[k]? = s.insts[k]?

/-- R40, R263: every command other than PRIVOP completes when its sequencer takes a turn. -/
def Obligations.CommandsOtherThanPrivopComplete : Prop :=
  ∀ s k rest u, s.Inv → s.turns = .sequencer k :: rest → s.insts[k]? = some u → u.busy = true →
    u.cmdl ≠ 0x00000012#32 →
    ∃ t v, step s = .next t ∧ t.insts[k]? = some v ∧ v.busy = false ∧ v.done = true

/-- R229, R232: what the host sees of an instance depends only on its public parts: the registers' presence and the
modulus, the lengths of the buffers, the output, the flags, CFG, IRQ_EN and the MAC state; so no read shows any
other register, a hash state or scratch. -/
def Obligations.ReadsShowNoSecret : Prop :=
  ∀ (p : Params) (u v : Instance),
    u.regs.n = v.regs.n → u.regs.e.isSome = v.regs.e.isSome → u.regs.d.isSome = v.regs.d.isSome →
    u.regs.p.isSome = v.regs.p.isSome → u.regs.q.isSome = v.regs.q.isSome →
    u.regs.iqmp.isSome = v.regs.iqmp.isSome → u.regs.a.isSome = v.regs.a.isSome →
    u.regs.x.isSome = v.regs.x.isSome → u.ibuf.length = v.ibuf.length → u.obuf = v.obuf → u.cfg = v.cfg →
    u.irqEn = v.irqEn → u.busy = v.busy → u.done = v.done → u.ovr = v.ovr → u.err = v.err → u.cmdl = v.cmdl →
    u.mac.state = v.mac.state →
    hostView p u = hostView p v ∧ ∀ off, readWord p u off = readWord p v off
end

