-- ==== Sys2Proof/Laws/Bytes.lean ====
section
/-!
SUPPORT. Byte strings and numbers (00_scope.md R7): lengths, bounds and the round trips.
-/

namespace Sys2Proof.Machine

@[simp] theorem i2osp_length (x k : Nat) : (i2osp x k).length = k := by simp [i2osp]

@[simp] theorem be32_length (j : Nat) : (be32 j).length = 4 := by simp [be32]

@[simp] theorem zeros_length (n : Nat) : (zeros n).length = n := by simp [zeros]

@[simp] theorem xorBytes_length (s t : Bytes) : (xorBytes s t).length = min s.length t.length := by
  simp [xorBytes]

theorem slice_length (s : Bytes) (a b : Nat) (h : b ≤ s.length) : (slice s a b).length = b - a := by
  simp [slice]; omega

@[simp] theorem os2ip_nil : os2ip [] = 0 := rfl

theorem os2ip_foldl (s : Bytes) (acc : Nat) :
    s.foldl (fun acc b => acc * 256 + b.toNat) acc = acc * 256 ^ s.length + os2ip s := by
  unfold os2ip
  induction s generalizing acc with
  | nil => simp
  | cons b t ih =>
    rw [List.foldl_cons, ih, List.foldl_cons, ih (0 * 256 + b.toNat), List.length_cons, pow_succ]
    ring

/-- `OS2IP` of a string with one more byte in front. -/
theorem os2ip_cons (b : Byte) (s : Bytes) : os2ip (b :: s) = b.toNat * 256 ^ s.length + os2ip s := by
  have h := os2ip_foldl s (0 * 256 + b.toNat)
  rw [show os2ip (b :: s) = s.foldl (fun acc b => acc * 256 + b.toNat) (0 * 256 + b.toNat) from rfl, h]
  ring

/-- `OS2IP` of a concatenation. -/
theorem os2ip_append (s t : Bytes) : os2ip (s ++ t) = os2ip s * 256 ^ t.length + os2ip t := by
  unfold os2ip
  rw [List.foldl_append, os2ip_foldl t]
  rfl

/-- A byte string of k bytes is a number below 256^k. -/
theorem os2ip_lt (s : Bytes) : os2ip s < 256 ^ s.length := by
  induction s with
  | nil => simp
  | cons b t ih =>
    have hb := b.isLt
    rw [os2ip_cons, List.length_cons, pow_succ]
    have : b.toNat * 256 ^ t.length ≤ 255 * 256 ^ t.length := Nat.mul_le_mul_right _ (by omega)
    omega

/-- A string one byte shorter holds the high bytes. -/
theorem i2osp_succ (x k : Nat) : i2osp x (k + 1) = byteOf x k :: i2osp x k := by
  unfold i2osp
  rw [List.range_succ_eq_map, List.map_cons, List.map_map]
  refine congrArg₂ _ (by simp) (List.map_congr_left fun i _ => ?_)
  simp only [Function.comp]
  congr 1
  omega

/-- `OS2IP(I2OSP(x, k)) = x mod 256^k`: higher bytes are dropped (R7). -/
theorem os2ip_i2osp (x k : Nat) : os2ip (i2osp x k) = x % 256 ^ k := by
  induction k with
  | zero => simp [i2osp, Nat.mod_one]
  | succ k ih =>
    rw [i2osp_succ, os2ip_cons, ih, i2osp_length, pow_succ, Nat.mod_mul]
    simp only [byteOf, BitVec.toNat_ofNat]
    ring

theorem lt_two_pow_bitcount (x : Nat) : x < 2 ^ bitcount x := by
  unfold bitcount
  split
  · simp_all
  · exact Nat.lt_log2_self

theorem two_pow_bitcount_le (x : Nat) (h : x ≠ 0) : 2 ^ (bitcount x - 1) ≤ x := by
  unfold bitcount
  rw [if_neg h, Nat.add_sub_cancel]
  exact Nat.log2_self_le h

/-- A number fits its own byte length (R7). -/
theorem lt_pow_kbytes (x : Nat) : x < 256 ^ kbytes x := by
  have h := lt_two_pow_bitcount x
  rw [show (256 : Nat) = 2 ^ 8 from rfl, ← pow_mul]
  exact lt_of_lt_of_le h (Nat.pow_le_pow_right (by norm_num) (by unfold kbytes; omega))

/-- And no shorter one (42_oaep.md R175 (a)). -/
theorem pow_kbytes_pred_le (x : Nat) (h : x ≠ 0) : 256 ^ (kbytes x - 1) ≤ x := by
  have h1 := two_pow_bitcount_le x h
  have hpos : 1 ≤ bitcount x := by unfold bitcount; rw [if_neg h]; omega
  rw [show (256 : Nat) = 2 ^ 8 from rfl, ← pow_mul]
  exact le_trans (Nat.pow_le_pow_right (by norm_num) (by unfold kbytes; omega)) h1

/-- A number below 256^k is given back by the round trip through k bytes (R7). -/
theorem os2ip_i2osp_of_lt (x k : Nat) (h : x < 256 ^ k) : os2ip (i2osp x k) = x := by
  rw [os2ip_i2osp, Nat.mod_eq_of_lt h]

/-- XOR twice with the same mask is the string itself. -/
theorem xorBytes_cancel (s m : Bytes) (h : s.length ≤ m.length) : xorBytes (xorBytes s m) m = s := by
  induction s generalizing m with
  | nil => simp [xorBytes]
  | cons b t ih =>
    cases m with
    | nil => simp at h
    | cons c m =>
      have := ih m (by simpa using h)
      simp only [xorBytes, List.zipWith_cons_cons] at *
      rw [this, BitVec.xor_assoc, BitVec.xor_self, BitVec.xor_zero]

end Sys2Proof.Machine
end

