-- ==== Sys2Proof/Laws/BigInt.lean ====
section
/-!
SUPPORT. The algorithms of Machine/BigInt.lean are the functions of 00_scope.md R8.
-/

namespace Sys2Proof.Machine

theorem modpowLoop_eq (m fuel b e acc : Nat) (he : e < 2 ^ fuel) (hacc : acc % m = acc) :
    modpowLoop m fuel b e acc = acc * b ^ e % m := by
  induction fuel generalizing b e acc with
  | zero =>
    have : e = 0 := by simpa using he
    simp [modpowLoop, this, hacc]
  | succ fuel ih =>
    have hlt : e / 2 < 2 ^ fuel := by rw [pow_succ] at he; omega
    have hdiv : e = 2 * (e / 2) + e % 2 := (Nat.div_add_mod e 2).symm
    unfold modpowLoop
    by_cases hodd : e % 2 = 1
    · rw [if_pos hodd, ih _ _ _ hlt (Nat.mod_mod _ _)]
      conv_rhs => rw [hdiv, hodd, pow_succ, pow_mul, pow_two]
      rw [Nat.mul_mod, Nat.mod_mod, ← Nat.pow_mod, ← Nat.mul_mod]
      congr 1; ring
    · have h0 : e % 2 = 0 := by omega
      rw [if_neg hodd, ih _ _ _ hlt hacc]
      conv_rhs => rw [hdiv, h0, add_zero, pow_mul, pow_two]
      rw [Nat.mul_mod, ← Nat.pow_mod, ← Nat.mul_mod]

/-- `BN.modpow(b, e, m) = (b^e) mod m` (R8). -/
theorem modpow_eq (b e m : Nat) : modpow b e m = b ^ e % m := by
  unfold modpow
  rw [modpowLoop_eq m _ _ _ _ (lt_two_pow_bitcount e) (Nat.mod_mod _ _), Nat.mul_mod, Nat.mod_mod, ← Nat.pow_mod,
    ← Nat.mul_mod, one_mul]

theorem euclidLoop_spec (a m fuel r0 r1 t0 t1 : Nat) (hm : 1 ≤ m) (hf : r1 < fuel) (h0 : a * t0 % m = r0 % m)
    (h1 : a * t1 % m = r1 % m) :
    (euclidLoop m fuel r0 r1 t0 t1).1 = Nat.gcd r0 r1
      ∧ a * (euclidLoop m fuel r0 r1 t0 t1).2 % m = Nat.gcd r0 r1 % m := by
  induction fuel generalizing r0 r1 t0 t1 with
  | zero => omega
  | succ fuel ih =>
    unfold euclidLoop
    by_cases hr : r1 = 0
    · simp [hr, h0]
    · rw [if_neg hr]
      have hlt : r0 % r1 < r1 := Nat.mod_lt _ (Nat.pos_of_ne_zero hr)
      have hstep : a * ((t0 + (m - r0 / r1 * t1 % m)) % m) % m = r0 % r1 % m := by
        have hq : r0 / r1 * t1 % m < m := Nat.mod_lt _ hm
        zify [hq.le] at *
        have e0 : (a * t0 : Int) ≡ r0 [ZMOD m] := h0
        have e1 : (a * t1 : Int) ≡ r1 [ZMOD m] := h1
        change (a * ((t0 + (m - (r0 / r1 : Int) * t1 % m)) % m) : Int) ≡ r0 % r1 [ZMOD m]
        have hmod : ((t0 + (m - (r0 / r1 : Int) * t1 % m)) % m : Int) ≡ t0 + (m - (r0 / r1 : Int) * t1) [ZMOD m] :=
          (Int.mod_modEq _ _).trans (Int.ModEq.add_left _ (Int.ModEq.sub_left _ (Int.mod_modEq _ _)))
        calc (a * ((t0 + (m - (r0 / r1 : Int) * t1 % m)) % m) : Int)
            ≡ a * (t0 + (m - (r0 / r1 : Int) * t1)) [ZMOD m] := Int.ModEq.mul_left _ hmod
          _ = a * t0 - (r0 / r1 : Int) * (a * t1) + m * a := by ring
          _ ≡ a * t0 - (r0 / r1 : Int) * (a * t1) [ZMOD m] := by
              simp [Int.ModEq]
          _ ≡ r0 - (r0 / r1 : Int) * r1 [ZMOD m] := Int.ModEq.sub e0 (Int.ModEq.mul_left _ e1)
          _ = r0 % r1 := by rw [Int.emod_def]; ring
      obtain ⟨g1, g2⟩ := ih r1 (r0 % r1) t1 _ (by omega) h1 hstep
      have hg : Nat.gcd r1 (r0 % r1) = Nat.gcd r0 r1 := by
        rw [Nat.gcd_comm r1, ← Nat.gcd_rec, Nat.gcd_comm]
      rw [hg] at g1 g2
      exact ⟨g1, g2⟩

theorem modinv_start (a m : Nat) (hm : 1 ≤ m) :
    (euclidLoop m (m + 1) m (a % m) 0 (1 % m)).1 = Nat.gcd a m
      ∧ a * (euclidLoop m (m + 1) m (a % m) 0 (1 % m)).2 % m = Nat.gcd a m % m := by
  have h := euclidLoop_spec a m (m + 1) m (a % m) 0 (1 % m) hm (by have := Nat.mod_lt a hm; omega) (by simp) (by simp)
  rwa [Nat.gcd_comm m, ← Nat.gcd_rec, Nat.gcd_comm m a] at h

/-- When gcd(a, m) = 1, `BN.modinv(a, m)` is the y in [0, m) with `a*y mod m = 1 mod m` (R8). -/
theorem modinv_coprime (a m : Nat) (hm : 1 ≤ m) (h : Nat.Coprime a m) :
    ∃ y, modinv a m = some y ∧ y < m ∧ a * y % m = 1 % m := by
  obtain ⟨h1, h2⟩ := modinv_start a m hm
  rw [h.gcd_eq_one] at h1 h2
  refine ⟨(euclidLoop m (m + 1) m (a % m) 0 (1 % m)).2 % m, by simp [modinv, h1], Nat.mod_lt _ hm, ?_⟩
  simpa [Nat.mul_mod] using h2

/-- Otherwise it is `none` (R8, R145). -/
theorem modinv_none_iff (a m : Nat) (hm : 1 ≤ m) : modinv a m = none ↔ ¬ Nat.Coprime a m := by
  obtain ⟨h1, -⟩ := modinv_start a m hm
  rw [Nat.coprime_iff_gcd_eq_one, ← h1]
  simp [modinv]

/-- Two inverses of one number below the modulus are the same (R8: "the unique y"). -/
theorem inverse_unique (a m y z : Nat) (h : Nat.Coprime a m) (hy : y < m) (hz : z < m) (e : a * y % m = a * z % m) :
    y = z := by
  have : y ≡ z [MOD m] := Nat.ModEq.cancel_left_of_coprime h.symm e
  rwa [Nat.ModEq, Nat.mod_eq_of_lt hy, Nat.mod_eq_of_lt hz] at this

/-- `BN.modinv(a, m) = some y` exactly when y is the inverse (R8). -/
theorem modinv_eq_some_iff (a m y : Nat) (hm : 1 ≤ m) : modinv a m = some y ↔ y < m ∧ a * y % m = 1 % m := by
  constructor
  · intro h
    have hc : Nat.Coprime a m := by
      by_contra hn
      rw [(modinv_none_iff a m hm).2 hn] at h
      cases h
    obtain ⟨z, hz, hlt, he⟩ := modinv_coprime a m hm hc
    rw [h] at hz
    cases hz
    exact ⟨hlt, he⟩
  · rintro ⟨hlt, he⟩
    have hc : Nat.Coprime a m := by
      have : a * y ≡ 1 [MOD m] := he
      have hg : Nat.Coprime (a * y) m := by rw [Nat.coprime_iff_gcd_eq_one, this.gcd_eq, Nat.gcd_one_left]
      exact hg.coprime_mul_right
    obtain ⟨z, hz, hzlt, hze⟩ := modinv_coprime a m hm hc
    rw [hz, inverse_unique a m z y hc hzlt hlt (hze.trans he.symm)]

end Sys2Proof.Machine
end

