-- ==== Sys2Proof/Laws/State.lean ====
section
/-!
SUPPORT. One lemma per field for each update of the state, true by unfolding, so that no proof unfolds a record
update.
-/

namespace Sys2Proof.Machine

@[simp] theorem setSelected_params (s : State) (u : Instance) : (setSelected s u).params = s.params := rfl
@[simp] theorem setSelected_insts (s : State) (u : Instance) : (setSelected s u).insts = s.insts.set s.sel u := rfl
@[simp] theorem setSelected_sel (s : State) (u : Instance) : (setSelected s u).sel = s.sel := rfl
@[simp] theorem setSelected_turns (s : State) (u : Instance) : (setSelected s u).turns = s.turns := rfl
@[simp] theorem setSelected_hostSaw (s : State) (u : Instance) : (setSelected s u).hostSaw = s.hostSaw := rfl
@[simp] theorem setSelected_draws (s : State) (u : Instance) : (setSelected s u).draws = s.draws := rfl

@[simp] theorem withFetchWord_params (s : State) (nbits w : Nat) : (s.withFetchWord nbits w).params = s.params := rfl
@[simp] theorem withFetchWord_insts (s : State) (nbits w : Nat) : (s.withFetchWord nbits w).insts = s.insts := rfl
@[simp] theorem withFetchWord_sel (s : State) (nbits w : Nat) : (s.withFetchWord nbits w).sel = s.sel := rfl
@[simp] theorem withFetchWord_turns (s : State) (nbits w : Nat) : (s.withFetchWord nbits w).turns = .write (firstCmdAddr s.params) 32 (BitVec.ofNat 32 (w % 2 ^ nbits)) :: s.turns := rfl
@[simp] theorem withFetchWord_hostSaw (s : State) (nbits w : Nat) : (s.withFetchWord nbits w).hostSaw = s.hostSaw := rfl
@[simp] theorem withFetchWord_draws (s : State) (nbits w : Nat) : (s.withFetchWord nbits w).draws = s.draws := rfl

@[simp] theorem setOvr_regs (u : Instance) : (setOvr u).regs = u.regs := rfl
@[simp] theorem setOvr_ibuf (u : Instance) : (setOvr u).ibuf = u.ibuf := rfl
@[simp] theorem setOvr_obuf (u : Instance) : (setOvr u).obuf = u.obuf := rfl
@[simp] theorem setOvr_cfg (u : Instance) : (setOvr u).cfg = u.cfg := rfl
@[simp] theorem setOvr_irqEn (u : Instance) : (setOvr u).irqEn = u.irqEn := rfl
@[simp] theorem setOvr_busy (u : Instance) : (setOvr u).busy = u.busy := rfl
@[simp] theorem setOvr_done (u : Instance) : (setOvr u).done = u.done := rfl
@[simp] theorem setOvr_ovr (u : Instance) : (setOvr u).ovr = true := rfl
@[simp] theorem setOvr_err (u : Instance) : (setOvr u).err = u.err := rfl
@[simp] theorem setOvr_cmdl (u : Instance) : (setOvr u).cmdl = u.cmdl := rfl
@[simp] theorem setOvr_mac (u : Instance) : (setOvr u).mac = u.mac := rfl
@[simp] theorem setOvr_scratch (u : Instance) : (setOvr u).scratch = u.scratch := rfl
@[simp] theorem setOvr_inReset (u : Instance) : (setOvr u).inReset = u.inReset := rfl

@[simp] theorem wipeScratch_regs (u : Instance) : (wipeScratch u).regs = u.regs := rfl
@[simp] theorem wipeScratch_ibuf (u : Instance) : (wipeScratch u).ibuf = u.ibuf := rfl
@[simp] theorem wipeScratch_obuf (u : Instance) : (wipeScratch u).obuf = u.obuf := rfl
@[simp] theorem wipeScratch_cfg (u : Instance) : (wipeScratch u).cfg = u.cfg := rfl
@[simp] theorem wipeScratch_irqEn (u : Instance) : (wipeScratch u).irqEn = u.irqEn := rfl
@[simp] theorem wipeScratch_busy (u : Instance) : (wipeScratch u).busy = u.busy := rfl
@[simp] theorem wipeScratch_done (u : Instance) : (wipeScratch u).done = u.done := rfl
@[simp] theorem wipeScratch_ovr (u : Instance) : (wipeScratch u).ovr = u.ovr := rfl
@[simp] theorem wipeScratch_err (u : Instance) : (wipeScratch u).err = u.err := rfl
@[simp] theorem wipeScratch_cmdl (u : Instance) : (wipeScratch u).cmdl = u.cmdl := rfl
@[simp] theorem wipeScratch_mac (u : Instance) : (wipeScratch u).mac = { u.mac with dig := digZero } := rfl
@[simp] theorem wipeScratch_scratch (u : Instance) : (wipeScratch u).scratch = Scratch.zero := rfl
@[simp] theorem wipeScratch_inReset (u : Instance) : (wipeScratch u).inReset = u.inReset := rfl

@[simp] theorem raiseErr_regs (w : Word) (c : ErrCode) (u : Instance) : (raiseErr w c u).regs = u.regs := rfl
@[simp] theorem raiseErr_ibuf (w : Word) (c : ErrCode) (u : Instance) : (raiseErr w c u).ibuf = [] := rfl
@[simp] theorem raiseErr_obuf (w : Word) (c : ErrCode) (u : Instance) : (raiseErr w c u).obuf = [] := rfl
@[simp] theorem raiseErr_cfg (w : Word) (c : ErrCode) (u : Instance) : (raiseErr w c u).cfg = u.cfg := rfl
@[simp] theorem raiseErr_irqEn (w : Word) (c : ErrCode) (u : Instance) : (raiseErr w c u).irqEn = u.irqEn := rfl
@[simp] theorem raiseErr_busy (w : Word) (c : ErrCode) (u : Instance) : (raiseErr w c u).busy = false := rfl
@[simp] theorem raiseErr_done (w : Word) (c : ErrCode) (u : Instance) : (raiseErr w c u).done = false := rfl
@[simp] theorem raiseErr_ovr (w : Word) (c : ErrCode) (u : Instance) : (raiseErr w c u).ovr = u.ovr := rfl
@[simp] theorem raiseErr_err (w : Word) (c : ErrCode) (u : Instance) : (raiseErr w c u).err = errByte c := rfl
@[simp] theorem raiseErr_cmdl (w : Word) (c : ErrCode) (u : Instance) : (raiseErr w c u).cmdl = w := rfl
@[simp] theorem raiseErr_mac (w : Word) (c : ErrCode) (u : Instance) : (raiseErr w c u).mac = { u.mac with dig := digZero } := rfl
@[simp] theorem raiseErr_scratch (w : Word) (c : ErrCode) (u : Instance) : (raiseErr w c u).scratch = Scratch.zero := rfl
@[simp] theorem raiseErr_inReset (w : Word) (c : ErrCode) (u : Instance) : (raiseErr w c u).inReset = u.inReset := rfl

@[simp] theorem clearErr_regs (u : Instance) : (clearErr u).regs = u.regs := rfl
@[simp] theorem clearErr_ibuf (u : Instance) : (clearErr u).ibuf = u.ibuf := rfl
@[simp] theorem clearErr_obuf (u : Instance) : (clearErr u).obuf = u.obuf := rfl
@[simp] theorem clearErr_cfg (u : Instance) : (clearErr u).cfg = u.cfg := rfl
@[simp] theorem clearErr_irqEn (u : Instance) : (clearErr u).irqEn = u.irqEn := rfl
@[simp] theorem clearErr_busy (u : Instance) : (clearErr u).busy = u.busy := rfl
@[simp] theorem clearErr_done (u : Instance) : (clearErr u).done = u.done := rfl
@[simp] theorem clearErr_ovr (u : Instance) : (clearErr u).ovr = false := rfl
@[simp] theorem clearErr_err (u : Instance) : (clearErr u).err = 0#8 := rfl
@[simp] theorem clearErr_cmdl (u : Instance) : (clearErr u).cmdl = u.cmdl := rfl
@[simp] theorem clearErr_mac (u : Instance) : (clearErr u).mac = u.mac := rfl
@[simp] theorem clearErr_scratch (u : Instance) : (clearErr u).scratch = u.scratch := rfl
@[simp] theorem clearErr_inReset (u : Instance) : (clearErr u).inReset = u.inReset := rfl

@[simp] theorem finish_regs (u : Instance) : (finish u).regs = u.regs := rfl
@[simp] theorem finish_ibuf (u : Instance) : (finish u).ibuf = u.ibuf := rfl
@[simp] theorem finish_obuf (u : Instance) : (finish u).obuf = u.obuf := rfl
@[simp] theorem finish_cfg (u : Instance) : (finish u).cfg = u.cfg := rfl
@[simp] theorem finish_irqEn (u : Instance) : (finish u).irqEn = u.irqEn := rfl
@[simp] theorem finish_busy (u : Instance) : (finish u).busy = false := rfl
@[simp] theorem finish_done (u : Instance) : (finish u).done = true := rfl
@[simp] theorem finish_ovr (u : Instance) : (finish u).ovr = u.ovr := rfl
@[simp] theorem finish_err (u : Instance) : (finish u).err = u.err := rfl
@[simp] theorem finish_cmdl (u : Instance) : (finish u).cmdl = u.cmdl := rfl
@[simp] theorem finish_mac (u : Instance) : (finish u).mac = { u.mac with dig := digZero } := rfl
@[simp] theorem finish_scratch (u : Instance) : (finish u).scratch = Scratch.zero := rfl
@[simp] theorem finish_inReset (u : Instance) : (finish u).inReset = u.inReset := rfl

@[simp] theorem effectWipek_regs (u : Instance) : (effectWipek u).regs = RegFile.absent := rfl
@[simp] theorem effectWipek_ibuf (u : Instance) : (effectWipek u).ibuf = u.ibuf := rfl
@[simp] theorem effectWipek_obuf (u : Instance) : (effectWipek u).obuf = u.obuf := rfl
@[simp] theorem effectWipek_cfg (u : Instance) : (effectWipek u).cfg = u.cfg := rfl
@[simp] theorem effectWipek_irqEn (u : Instance) : (effectWipek u).irqEn = u.irqEn := rfl
@[simp] theorem effectWipek_busy (u : Instance) : (effectWipek u).busy = u.busy := rfl
@[simp] theorem effectWipek_done (u : Instance) : (effectWipek u).done = u.done := rfl
@[simp] theorem effectWipek_ovr (u : Instance) : (effectWipek u).ovr = u.ovr := rfl
@[simp] theorem effectWipek_err (u : Instance) : (effectWipek u).err = u.err := rfl
@[simp] theorem effectWipek_cmdl (u : Instance) : (effectWipek u).cmdl = u.cmdl := rfl
@[simp] theorem effectWipek_mac (u : Instance) : (effectWipek u).mac = u.mac := rfl
@[simp] theorem effectWipek_scratch (u : Instance) : (effectWipek u).scratch = u.scratch := rfl
@[simp] theorem effectWipek_inReset (u : Instance) : (effectWipek u).inReset = u.inReset := rfl

@[simp] theorem effectClrib_regs (u : Instance) : (effectClrib u).regs = u.regs := rfl
@[simp] theorem effectClrib_ibuf (u : Instance) : (effectClrib u).ibuf = [] := rfl
@[simp] theorem effectClrib_obuf (u : Instance) : (effectClrib u).obuf = u.obuf := rfl
@[simp] theorem effectClrib_cfg (u : Instance) : (effectClrib u).cfg = u.cfg := rfl
@[simp] theorem effectClrib_irqEn (u : Instance) : (effectClrib u).irqEn = u.irqEn := rfl
@[simp] theorem effectClrib_busy (u : Instance) : (effectClrib u).busy = u.busy := rfl
@[simp] theorem effectClrib_done (u : Instance) : (effectClrib u).done = u.done := rfl
@[simp] theorem effectClrib_ovr (u : Instance) : (effectClrib u).ovr = u.ovr := rfl
@[simp] theorem effectClrib_err (u : Instance) : (effectClrib u).err = u.err := rfl
@[simp] theorem effectClrib_cmdl (u : Instance) : (effectClrib u).cmdl = u.cmdl := rfl
@[simp] theorem effectClrib_mac (u : Instance) : (effectClrib u).mac = u.mac := rfl
@[simp] theorem effectClrib_scratch (u : Instance) : (effectClrib u).scratch = u.scratch := rfl
@[simp] theorem effectClrib_inReset (u : Instance) : (effectClrib u).inReset = u.inReset := rfl

@[simp] theorem effectClrob_regs (u : Instance) : (effectClrob u).regs = u.regs := rfl
@[simp] theorem effectClrob_ibuf (u : Instance) : (effectClrob u).ibuf = u.ibuf := rfl
@[simp] theorem effectClrob_obuf (u : Instance) : (effectClrob u).obuf = [] := rfl
@[simp] theorem effectClrob_cfg (u : Instance) : (effectClrob u).cfg = u.cfg := rfl
@[simp] theorem effectClrob_irqEn (u : Instance) : (effectClrob u).irqEn = u.irqEn := rfl
@[simp] theorem effectClrob_busy (u : Instance) : (effectClrob u).busy = u.busy := rfl
@[simp] theorem effectClrob_done (u : Instance) : (effectClrob u).done = u.done := rfl
@[simp] theorem effectClrob_ovr (u : Instance) : (effectClrob u).ovr = u.ovr := rfl
@[simp] theorem effectClrob_err (u : Instance) : (effectClrob u).err = u.err := rfl
@[simp] theorem effectClrob_cmdl (u : Instance) : (effectClrob u).cmdl = u.cmdl := rfl
@[simp] theorem effectClrob_mac (u : Instance) : (effectClrob u).mac = u.mac := rfl
@[simp] theorem effectClrob_scratch (u : Instance) : (effectClrob u).scratch = u.scratch := rfl
@[simp] theorem effectClrob_inReset (u : Instance) : (effectClrob u).inReset = u.inReset := rfl

@[simp] theorem effectHmwipe_regs (u : Instance) : (effectHmwipe u).regs = u.regs := rfl
@[simp] theorem effectHmwipe_ibuf (u : Instance) : (effectHmwipe u).ibuf = u.ibuf := rfl
@[simp] theorem effectHmwipe_obuf (u : Instance) : (effectHmwipe u).obuf = u.obuf := rfl
@[simp] theorem effectHmwipe_cfg (u : Instance) : (effectHmwipe u).cfg = u.cfg := rfl
@[simp] theorem effectHmwipe_irqEn (u : Instance) : (effectHmwipe u).irqEn = u.irqEn := rfl
@[simp] theorem effectHmwipe_busy (u : Instance) : (effectHmwipe u).busy = u.busy := rfl
@[simp] theorem effectHmwipe_done (u : Instance) : (effectHmwipe u).done = u.done := rfl
@[simp] theorem effectHmwipe_ovr (u : Instance) : (effectHmwipe u).ovr = u.ovr := rfl
@[simp] theorem effectHmwipe_err (u : Instance) : (effectHmwipe u).err = u.err := rfl
@[simp] theorem effectHmwipe_cmdl (u : Instance) : (effectHmwipe u).cmdl = u.cmdl := rfl
@[simp] theorem effectHmwipe_mac (u : Instance) : (effectHmwipe u).mac = MacCtx.unkeyed := rfl
@[simp] theorem effectHmwipe_scratch (u : Instance) : (effectHmwipe u).scratch = u.scratch := rfl
@[simp] theorem effectHmwipe_inReset (u : Instance) : (effectHmwipe u).inReset = u.inReset := rfl

@[simp] theorem effectWipeall_regs (u : Instance) : (effectWipeall u).regs = RegFile.absent := rfl
@[simp] theorem effectWipeall_ibuf (u : Instance) : (effectWipeall u).ibuf = [] := rfl
@[simp] theorem effectWipeall_obuf (u : Instance) : (effectWipeall u).obuf = [] := rfl
@[simp] theorem effectWipeall_cfg (u : Instance) : (effectWipeall u).cfg = Cfg.zero := rfl
@[simp] theorem effectWipeall_irqEn (u : Instance) : (effectWipeall u).irqEn = u.irqEn := rfl
@[simp] theorem effectWipeall_busy (u : Instance) : (effectWipeall u).busy = u.busy := rfl
@[simp] theorem effectWipeall_done (u : Instance) : (effectWipeall u).done = u.done := rfl
@[simp] theorem effectWipeall_ovr (u : Instance) : (effectWipeall u).ovr = false := rfl
@[simp] theorem effectWipeall_err (u : Instance) : (effectWipeall u).err = 0#8 := rfl
@[simp] theorem effectWipeall_cmdl (u : Instance) : (effectWipeall u).cmdl = u.cmdl := rfl
@[simp] theorem effectWipeall_mac (u : Instance) : (effectWipeall u).mac = MacCtx.unkeyed := rfl
@[simp] theorem effectWipeall_scratch (u : Instance) : (effectWipeall u).scratch = u.scratch := rfl
@[simp] theorem effectWipeall_inReset (u : Instance) : (effectWipeall u).inReset = u.inReset := rfl

@[simp] theorem completed_params (s : State) (u : Instance) : (completed s u).params = s.params := rfl
@[simp] theorem completed_insts (s : State) (u : Instance) : (completed s u).insts = s.insts.set s.sel
    { u with busy := false, done := true, scratch := Scratch.zero, mac := { u.mac with dig := digZero } } := rfl
@[simp] theorem completed_sel (s : State) (u : Instance) : (completed s u).sel = s.sel := rfl
@[simp] theorem completed_turns (s : State) (u : Instance) : (completed s u).turns = s.turns := rfl
@[simp] theorem completed_hostSaw (s : State) (u : Instance) : (completed s u).hostSaw = s.hostSaw := rfl
@[simp] theorem completed_draws (s : State) (u : Instance) : (completed s u).draws = s.draws := rfl

/-- Writing a register and reading it back (R11). -/
@[simp] theorem readReg_writeReg_same (f : RegFile) (r : BigReg) (v : Nat) : readReg (writeReg f r v) r = some v := by
  cases r <;> rfl

/-- Writing a register leaves the others (R11). -/
theorem readReg_writeReg_other (f : RegFile) (r r' : BigReg) (v : Nat) (h : r' ≠ r) :
    readReg (writeReg f r v) r' = readReg f r' := by
  cases r <;> cases r' <;> first | rfl | exact absurd rfl h

/-- The absent register file has no register (R41). -/
@[simp] theorem readReg_absent (r : BigReg) : readReg RegFile.absent r = none := by cases r <;> rfl

/-- The instance addressed exists exactly when `sel` is in range. -/
theorem selected_eq_some_iff (s : State) (u : Instance) : selected s = some u ↔ ∃ h : s.sel < s.insts.length, s.insts[s.sel] = u := by
  simp [selected, List.getElem?_eq_some_iff]

/-- After replacing the selected instance, it is the one selected. -/
theorem selected_setSelected (s : State) (u v : Instance) (h : selected s = some u) : selected (setSelected s v) = some v := by
  obtain ⟨hlt, -⟩ := (selected_eq_some_iff s u).1 h
  simp [selected, setSelected, hlt]

/-- Replacing the selected instance leaves every other one (60_exceptions.md R230). -/
theorem setSelected_other (s : State) (v : Instance) (k : Nat) (h : k ≠ s.sel) : (setSelected s v).insts[k]? = s.insts[k]? := by
  simp [setSelected, List.getElem?_set_ne (Ne.symm h)]

/-- The instance addressed is one of the platform's. -/
theorem selected_mem (s : State) (u : Instance) (h : selected s = some u) : u ∈ s.insts := List.mem_of_getElem? h

end Sys2Proof.Machine
end

