-- ==== Sys2Proof/Laws/Ops.lean ====
section
/-!
SUPPORT. What the shared operations can do, said once: the launch, the completion, one step of a command; and
that every arm of `exec` is `runCommand` with the command's own guards and effect.
-/

namespace Sys2Proof.Machine

/-- A launch does one of three things (R40, R221 (b), R224). -/
theorem launch_cases (w : Word) (g : Option ErrCode) (u : Instance) :
    (halted u = true ∧ w ∉ recoveryWords ∧ launch w g u = u)
      ∨ ((halted u = false ∨ w ∈ recoveryWords) ∧ ∃ c, g = some c ∧ launch w g u = raiseErr w c u)
      ∨ ((halted u = false ∨ w ∈ recoveryWords) ∧ g = none
          ∧ launch w g u = { u with cmdl := w, done := false, busy := true }) := by
  unfold launch
  by_cases hg : (halted u && !recoveryWords.contains w) = true
  · simp only [Bool.and_eq_true, Bool.not_eq_true', List.contains_eq_mem, decide_eq_false_iff_not] at hg
    refine .inl ⟨hg.1, hg.2, ?_⟩
    simp [hg.1, hg.2]
  · have hok : halted u = false ∨ w ∈ recoveryWords := by
      simp only [Bool.and_eq_true, Bool.not_eq_true', List.contains_eq_mem, decide_eq_false_iff_not] at hg
      by_cases hh : halted u = true
      · exact .inr (by_contra fun hw => hg ⟨hh, hw⟩)
      · exact .inl (by simpa using hh)
    rw [if_neg hg]
    cases g with
    | none => exact .inr (.inr ⟨hok, rfl, rfl⟩)
    | some c => exact .inr (.inl ⟨hok, c, rfl, rfl⟩)

/-- A completion step does nothing or applies the effect (R40). -/
theorem complete_cases (g : Option ErrCode) (effect : Nat → Instance → Option (Instance × Nat)) (s : State) (u : Instance) :
    complete g effect s u = s
      ∨ ∃ u' d, g = none ∧ effect s.draws u = some (u', d)
          ∧ complete g effect s u = { setSelected s (finish u') with draws := d } := by
  cases g with
  | some c => exact .inl rfl
  | none =>
    cases h : effect s.draws u with
    | none => left; simp [complete, h]
    | some r =>
      obtain ⟨u', d⟩ := r
      exact .inr ⟨u', d, rfl, rfl, by simp [complete, h]⟩

/-- The enabled completion (R40). -/
theorem complete_enabled {effect : Nat → Instance → Option (Instance × Nat)} {s : State} {u u' : Instance} {d : Nat}
    (h : effect s.draws u = some (u', d)) :
    complete none effect s u = { setSelected s (finish u') with draws := d } := by
  simp [complete, h]

/-- Every command's meaning is `runCommand` with its guards and its effect (R110). -/
theorem exec_eq (i : Instr) (s : State) : exec i s = runCommand i (guardsOf i) (effectOf i) s := by
  cases i <;> rfl

/-- What one step of a command can do (R40, R221, R250). -/
theorem exec_cases (i : Instr) (s : State) :
    (selected s = none ∧ exec i s = .fault .noInstance)
      ∨ ∃ u, selected s = some u
          ∧ ((u.inReset = true ∧ exec i s = .next s)
            ∨ (u.inReset = false ∧ u.busy = true ∧ u.cmdl = encode i
                ∧ exec i s = .next (complete (guardsOf i s.params u) (effectOf i) s u))
            ∨ (u.inReset = false ∧ u.busy = true ∧ u.cmdl ≠ encode i ∧ exec i s = .next (setSelected s (setOvr u)))
            ∨ (u.inReset = false ∧ u.busy = false
                ∧ exec i s = .next (setSelected s (launch (encode i) (guardsOf i s.params u) u)))) := by
  rw [exec_eq]
  cases hu : selected s with
  | none => exact .inl ⟨rfl, by simp [runCommand, hu]⟩
  | some u =>
    refine .inr ⟨u, rfl, ?_⟩
    cases hr : u.inReset with
    | true => exact .inl ⟨rfl, by simp [runCommand, hu, hr]⟩
    | false =>
      cases hb : u.busy with
      | false => exact .inr (.inr (.inr ⟨rfl, rfl, by simp [runCommand, hu, hr, hb]⟩))
      | true =>
        by_cases hc : u.cmdl = encode i
        · exact .inr (.inl ⟨rfl, rfl, hc, by simp [runCommand, hu, hr, hb, hc]⟩)
        · exact .inr (.inr (.inl ⟨rfl, rfl, hc, by simp [runCommand, hu, hr, hb, hc]⟩))

/-- `exec` in flight is the completion step. -/
theorem exec_inFlight {i : Instr} {s : State} {u : Instance} (h : InFlight i s u) :
    exec i s = .next (complete (guardsOf i s.params u) (effectOf i) s u) := by
  obtain ⟨⟨hs, hr⟩, hb, hc⟩ := h
  rw [exec_eq]; simp [runCommand, hs, hr, hb, hc]

/-- A command in flight whose guards hold and whose effect exists completes with it (R40). -/
theorem exec_completes {i : Instr} {s : State} {u u' : Instance} {d : Nat} (h : InFlight i s u)
    (hg : guardsOf i s.params u = none) (he : effectOf i s.draws u = some (u', d)) :
    exec i s = .next { completed s u' with draws := d } := by
  rw [exec_inFlight h, hg, complete_enabled he]; rfl

/-- `exec` of a command that can be launched is the launch. -/
theorem exec_launch {i : Instr} {s : State} {u : Instance} (hs : selected s = some u) (hr : u.inReset = false)
    (hb : u.busy = false) : exec i s = .next (setSelected s (launch (encode i) (guardsOf i s.params u) u)) := by
  rw [exec_eq]; simp [runCommand, hs, hr, hb]

/-- The only draw is OAEPENC's (00_scope.md R10). -/
theorem effectOf_draws {i : Instr} {d d' : Nat} {u u' : Instance} (h : effectOf i d u = some (u', d')) :
    d' = d ∨ i = .oaepenc := by
  cases i <;> first | exact .inr rfl | (left; simp only [effectOf, noDraw, Option.map_eq_some_iff, Prod.mk.injEq] at h; obtain ⟨_, _, _, h⟩ := h; exact h.symm)

end Sys2Proof.Machine
end

