-- ==== Sys2Proof/Laws/Step.lean ====
section
/-!
SUPPORT. What one step can do, said once: at most one instance moves, and it moves in one of the ways listed in
`Moved`. Every claim about all steps is a case analysis of it.
-/

namespace Sys2Proof.Machine

/-- What one step does to the instance k it addresses, `x` being the turn it takes (none for the idle step): from `u`,
with `d` bytes drawn so far, to `v`, with `d'`. -/
inductive Moved (p : Params) (x : Option Turn) (k d : Nat) (u : Instance) : Instance → Nat → Prop
  /-- Nothing: a read without side effect, an ignored write, a turn of an idle sequencer. -/
  | same : Moved p x k d u u d
  /-- A read of DATA_OUT (R73). -/
  | pop : Moved p x k d u (popOut u) d
  /-- A write or a launch ignored while BUSY (R221 (a)). -/
  | ovr (hb : u.busy = true) : Moved p x k d u (setOvr u) d
  /-- A write to CFG (R63). -/
  | cfg (v : Word) (hr : u.inReset = false) (hb : u.busy = false) : Moved p x k d u { u with cfg := cfgOfWord v } d
  /-- A write to DATA_IN (R72). -/
  | push (v : Word) (hr : u.inReset = false) (hb : u.busy = false) : Moved p x k d u (pushIn p v u) d
  /-- A write to IRQ_EN (R63). -/
  | irqEn (v : Word) (hr : u.inReset = false) (hb : u.busy = false) :
    Moved p x k d u { u with irqEn := irqEnOfWord v } d
  /-- The launch of a command (R40). -/
  | launch (i : Instr) (hr : u.inReset = false) (hb : u.busy = false) :
    Moved p x k d u (launch (encode i) (guardsOf i p u) u) d
  /-- The launch of an illegal word (R93). -/
  | illegal (w : Word) (why : IllegalWord) (hw : decode w = .illegal why) (hr : u.inReset = false)
    (hb : u.busy = false) : Moved p x k d u (Machine.launch w (some .illegal) u) d
  /-- A completion step (R40). -/
  | finish (i : Instr) (u' : Instance) (d' : Nat) (hr : u.inReset = false) (hb : u.busy = true)
    (hc : u.cmdl = encode i) (hg : guardsOf i p u = none) (he : effectOf i d u = some (u', d')) :
    Moved p x k d u (finish u') d'
  /-- The reset input (R250, R252). -/
  | reset (asserted : Bool) (hx : x = some (.reset k asserted)) : Moved p x k d u (setReset asserted u) d

/-- A state in which instance `sel` has moved and, but for what the host read, nothing else. -/
def SelMoved (x : Option Turn) (s t : State) : Prop :=
  ∃ u v, selected s = some u ∧ Moved s.params x s.sel s.draws u v t.draws ∧ t.insts = s.insts.set s.sel v
    ∧ t.params = s.params ∧ t.sel = s.sel ∧ t.turns = s.turns

theorem set_sel_self {s : State} {u : Instance} (h : selected s = some u) : s.insts.set s.sel u = s.insts := by
  obtain ⟨hlt, hget⟩ := (selected_eq_some_iff s u).1 h
  exact hget ▸ List.set_getElem_self hlt

theorem selMoved_refl {x : Option Turn} {s : State} {u : Instance} (h : selected s = some u) : SelMoved x s s :=
  ⟨u, u, h, .same, (set_sel_self h).symm, rfl, rfl, rfl⟩

/-- A command's step moves the instance addressed (R40, R230). -/
theorem exec_selMoved {x : Option Turn} {i : Instr} {s t : State} (h : exec i s = .next t) : SelMoved x s t := by
  rcases exec_cases i s with ⟨-, he⟩ | ⟨u, hu, hcase⟩
  · rw [he] at h; cases h
  rcases hcase with ⟨hr, he⟩ | ⟨hr, hb, hc, he⟩ | ⟨hr, hb, hc, he⟩ | ⟨hr, hb, he⟩
  · rw [he] at h; cases h; exact selMoved_refl hu
  · rw [he] at h
    cases h
    rcases complete_cases (guardsOf i s.params u) (effectOf i) s u with hs | ⟨u', d, hg, hf, hs⟩
    · rw [hs]; exact selMoved_refl hu
    · rw [hs]; exact ⟨u, finish u', hu, .finish i u' d hr hb hc hg hf, rfl, rfl, rfl, rfl⟩
  · rw [he] at h; cases h; exact ⟨u, _, hu, .ovr hb, rfl, rfl, rfl, rfl⟩
  · rw [he] at h; cases h; exact ⟨u, _, hu, .launch i hr hb, rfl, rfl, rfl, rfl⟩

theorem hostRead_selMoved {x : Option Turn} {off : Nat} {s t : State} (h : hostRead off s = .next t) : SelMoved x s t := by
  unfold hostRead at h
  split at h
  · cases h
  · rename_i u hu
    cases h
    refine ⟨u, readEffect u off, hu, ?_, rfl, rfl, rfl, rfl⟩
    unfold readEffect
    split
    · exact .pop
    · exact .same

theorem hostWrite_selMoved {x : Option Turn} {off : Nat} {v : Word} {s t : State} (h : hostWrite off v s = .next t) :
    SelMoved x s t := by
  unfold hostWrite at h
  split at h
  · cases h
  rename_i u hu
  split at h
  · cases h; exact selMoved_refl hu
  rename_i hr
  have hr : u.inReset = false := by simpa using hr
  split at h
  · rename_i hb
    cases h
    exact ⟨u, _, hu, .ovr (Bool.and_eq_true_iff.1 hb).2, rfl, rfl, rfl, rfl⟩
  rename_i hb
  have hbusy : writableOffset off = true → u.busy = false := by
    intro hw; rw [hw] at hb; simpa using hb
  split at h
  · unfold writeCmd at h
    split at h
    · exact exec_selMoved h
    · cases h; exact ⟨u, _, hu, .illegal v _ ‹_› hr (hbusy rfl), rfl, rfl, rfl, rfl⟩
  · cases h; exact ⟨u, _, hu, .cfg v hr (hbusy rfl), rfl, rfl, rfl, rfl⟩
  · cases h; exact ⟨u, _, hu, .push v hr (hbusy rfl), rfl, rfl, rfl, rfl⟩
  · cases h; exact ⟨u, _, hu, .irqEn v hr (hbusy rfl), rfl, rfl, rfl, rfl⟩
  · cases h; exact selMoved_refl hu

theorem sequencerStep_selMoved {x : Option Turn} {s t : State} (h : sequencerStep s = .next t) : SelMoved x s t := by
  unfold sequencerStep at h
  split at h
  · cases h
  rename_i u hu
  split at h
  · split at h
    · exact exec_selMoved h
    · cases h; exact selMoved_refl hu
  · cases h; exact selMoved_refl hu

theorem resetStep_selMoved {a : Bool} {s t : State} (h : resetStep a s = .next t) :
    SelMoved (some (.reset s.sel a)) s t := by
  unfold resetStep at h
  split at h
  · cases h
  · rename_i u hu; cases h; exact ⟨u, _, hu, .reset a rfl, rfl, rfl, rfl, rfl⟩

theorem hostAccess_next {addr width : Nat} {s t : State} {act : Nat → State → Host.Outcome State Fault Refusal}
    (h : hostAccess addr width s act = .next t) :
    ∃ k off, windowOf s.params.bases addr = some (k, off) ∧ width = 32 ∧ addr % 4 = 0
      ∧ act off { s with sel := k } = .next t := by
  unfold hostAccess at h
  split at h
  · cases h
  · rename_i k off hw
    split at h
    · rename_i hal; exact ⟨k, off, hw, hal.1, hal.2, h⟩
    · cases h

/-- A turn moves the one instance it addresses. -/
theorem takeTurn_selMoved {x : Turn} {s t : State} (h : takeTurn x s = .next t) :
    ∃ k, SelMoved (some x) { s with sel := k } t := by
  cases x with
  | read addr width =>
    obtain ⟨k, off, -, -, -, h⟩ := hostAccess_next h
    exact ⟨k, hostRead_selMoved h⟩
  | write addr width v =>
    obtain ⟨k, off, -, -, -, h⟩ := hostAccess_next h
    exact ⟨k, hostWrite_selMoved h⟩
  | sequencer k => exact ⟨k, sequencerStep_selMoved h⟩
  | reset k a => exact ⟨k, resetStep_selMoved h⟩

/-- The idle step is a completion step of some instance, or nothing. -/
theorem idleStep_cases (s : State) :
    idleStep s = s
      ∨ ∃ k, sequencerStep { s with sel := k } = .next (idleStep s) ∧ busyAt s k = true
          ∧ busyAt (idleStep s) k = false := by
  unfold idleStep
  split
  · rename_i t ht
    obtain ⟨k, -, hk⟩ := List.exists_of_findSome?_eq_some ht
    right
    refine ⟨k, ?_⟩
    unfold completionOf at hk
    split at hk
    · rename_i t' ht'
      split at hk
      · rename_i hb
        cases hk
        rw [Bool.and_eq_true, Bool.not_eq_true'] at hb
        exact ⟨ht', hb.1, hb.2⟩
      · cases hk
    · cases hk
  · exact .inl rfl

/-- What a step can do: nothing, or one instance moves. -/
theorem step_cases {s t : State} (h : step s = .next t) :
    t = s ∨ ∃ rest k, SelMoved s.turns.head? { s with turns := rest, sel := k } t := by
  unfold step machineStep at h
  split at h
  · cases h
    rcases idleStep_cases s with hs | ⟨k, hs, -, -⟩
    · exact .inl hs
    · exact .inr ⟨s.turns, k, sequencerStep_selMoved hs⟩
  · rename_i x rest hx
    obtain ⟨k, hk⟩ := takeTurn_selMoved h
    exact .inr ⟨rest, k, by rw [hx]; exact hk⟩

/-- The same, for one instance: it moves, or it is as it was. -/
theorem step_instance {s t : State} {k : Nat} {v : Instance} (h : step s = .next t) (hv : t.insts[k]? = some v) :
    ∃ u, s.insts[k]? = some u ∧ (v = u ∨ Moved s.params s.turns.head? k s.draws u v t.draws) := by
  rcases step_cases h with rfl | ⟨rest, k', u, w, hu, hm, hi, -⟩
  · exact ⟨v, hv, .inl rfl⟩
  · rw [hi] at hv
    by_cases hk : k' = k
    · subst hk
      have hlt : k' < s.insts.length := ((selected_eq_some_iff _ u).1 hu).1
      have : v = w := by simpa [List.getElem?_set_self hlt] using hv.symm
      exact ⟨u, hu, .inr (this ▸ hm)⟩
    · rw [List.getElem?_set_ne hk] at hv
      exact ⟨v, hv, .inl rfl⟩

/-- The same, for membership. -/
theorem step_mem {s t : State} {v : Instance} (h : step s = .next t) (hv : v ∈ t.insts) :
    ∃ u ∈ s.insts, v = u ∨ ∃ k, Moved s.params s.turns.head? k s.draws u v t.draws := by
  obtain ⟨k, hk⟩ := List.mem_iff_getElem?.1 hv
  obtain ⟨u, hu, hm⟩ := step_instance h hk
  exact ⟨u, List.mem_of_getElem? hu, hm.imp_right fun h => ⟨k, h⟩⟩

/-- A step never changes the parameters or the number of instances (R230). -/
theorem step_params {s t : State} (h : step s = .next t) : t.params = s.params ∧ t.insts.length = s.insts.length := by
  rcases step_cases h with rfl | ⟨rest, k, u, v, -, -, hi, hp, -⟩
  · exact ⟨rfl, rfl⟩
  · exact ⟨hp, by rw [hi, List.length_set]⟩

end Sys2Proof.Machine
end

