-- ==== Sys2Proof/Laws/Bus.lean ====
section
/-!
SUPPORT. What the host's moves do (20_memory.md R62, R63), said once: the next aligned write or read is the bus
operation on the instance and offset it reaches, and what that operation does in each situation.
-/

namespace Sys2Proof.Machine

/-- The next write is `hostWrite` at the offset it reaches (R60). -/
theorem step_nextWrite {s : State} {k off : Nat} {w : Word} {rest : List Turn} {u : Instance}
    (h : NextWrite s k off w rest u) :
    step s = hostWrite off w (turnTo s k rest) ∧ selected (turnTo s k rest) = some u := by
  obtain ⟨addr, ht, hal, hwin, hu⟩ := h
  exact ⟨by simp [step, machineStep, ht, takeTurn, hostAccess, hwin, hal, turnTo], hu⟩

/-- The next read is `hostRead` at the offset it reaches (R60). -/
theorem step_nextRead {s : State} {k off : Nat} {rest : List Turn} {u : Instance} (h : NextRead s k off rest u) :
    step s = hostRead off (turnTo s k rest) ∧ selected (turnTo s k rest) = some u := by
  obtain ⟨addr, ht, hal, hwin, hu⟩ := h
  exact ⟨by simp [step, machineStep, ht, takeTurn, hostAccess, hwin, hal, turnTo], hu⟩

/-- A read of an instance that exists (R62). -/
theorem hostRead_eq {s : State} {u : Instance} (off : Nat) (hs : selected s = some u) :
    hostRead off s
      = .next { setSelected s (readEffect u off) with hostSaw := s.hostSaw ++ [readWord s.params u off] } := by
  unfold hostRead; rw [hs]

/-- A write that is not ignored (R63). -/
theorem hostWrite_idle {s : State} {u : Instance} (off : Nat) (v : Word) (hs : selected s = some u)
    (hr : u.inReset = false) (hb : u.busy = false) :
    hostWrite off v s
      = (match off with
        | 0x00 => writeCmd v u s
        | 0x08 => .next (setSelected s { u with cfg := cfgOfWord v })
        | 0x0C => .next (setSelected s (pushIn s.params v u))
        | 0x24 => .next (setSelected s { u with irqEn := irqEnOfWord v })
        | _ => .next s) := by
  unfold hostWrite; rw [hs]; exact (if_neg (by simp [hr])).trans (if_neg (by simp [hb]))

/-- A write to a writable register while BUSY (R221 (a)). -/
theorem hostWrite_busy {s : State} {u : Instance} {off : Nat} (v : Word) (hs : selected s = some u)
    (hr : u.inReset = false) (hb : u.busy = true) (ho : writableOffset off = true) :
    hostWrite off v s = .next (setSelected s (setOvr u)) := by
  unfold hostWrite; rw [hs]; simp only [hr, hb, ho, Bool.and_true, Bool.false_eq_true, if_false, if_true]

/-- Putting the instance addressed back as it is changes nothing. -/
theorem setSelected_self {s : State} {u : Instance} (h : selected s = some u) : setSelected s u = s := by
  simp only [setSelected, set_sel_self h]

end Sys2Proof.Machine
end

