-- ==== Sys2Proof/Laws/Hash.lean ====
section
/-!
SUPPORT. The laws of the hash capability (00_scope.md R9, R13) that the other proofs use: the digest length and
the incremental states; and the mask and pad lengths that follow.
-/

namespace Sys2Proof.Machine

/-- `Hash_h` answers H bytes (R9). -/
@[simp] theorem hash_length (h : HashAlg) (s : Bytes) : (hash h s).length = digestLen h := by
  cases h <;> simp [hash, digestLen, md5, sha1, sha256, sha512, sha2Digest, leBytes32, beBytes32]

theorem digestLen_pos (h : HashAlg) : 1 ≤ digestLen h := by cases h <;> decide

theorem digestLen_le_64 (h : HashAlg) : digestLen h ≤ 64 := by cases h <;> decide

/-- H <= B for all four hashes (43_hmac.md R192). -/
theorem digestLen_le_blockLen (h : HashAlg) : digestLen h ≤ blockLen h := by cases h <;> decide

/-- Updating twice is updating with the concatenation (R9). -/
theorem hsUpdate_append (st : HashState) (s t : Bytes) : hsUpdate (hsUpdate st s) t = hsUpdate st (s ++ t) := by
  simp [hsUpdate, List.append_assoc]

/-- Updating with nothing changes nothing (R9). -/
@[simp] theorem hsUpdate_nil (st : HashState) : hsUpdate st [] = st := by simp [hsUpdate]

/-- The digest of a state that absorbed m is `Hash_h(m)` (R9). -/
@[simp] theorem hsFinal_update_init (h : HashAlg) (m : Bytes) : hsFinal (hsUpdate (hsInit h) m) = hash h m := by
  simp [hsFinal, hsUpdate, hsInit]

@[simp] theorem hsUpdate_alg (st : HashState) (s : Bytes) : (hsUpdate st s).alg = st.alg := rfl

@[simp] theorem hsInit_alg (h : HashAlg) : (hsInit h).alg = h := rfl

@[simp] theorem hsClone_eq (st : HashState) : hsClone st = st := rfl

/-- A concatenation of equal-length pieces has the bytes of its pieces. -/
theorem flatMap_range_getElem? (f : Nat → Bytes) (w : Nat) (hf : ∀ c, (f c).length = w) (k i : Nat) (hi : i < k * w) :
    ((List.range k).flatMap f)[i]? = (f (i / w))[i % w]? := by
  induction k with
  | zero => omega
  | succ k ih =>
    have hlen : ((List.range k).flatMap f).length = k * w := by
      clear ih hi
      induction k with
      | zero => simp
      | succ k ih => rw [List.range_succ, List.flatMap_append, List.length_append, ih]; simp [hf]; ring
    have hw : 0 < w := Nat.pos_of_ne_zero (by rintro rfl; simp at hi)
    rw [List.range_succ, List.flatMap_append]
    by_cases h : i < k * w
    · rw [List.getElem?_append_left (by omega), ih h]
    · have hge : k * w ≤ i := by omega
      have hlt : i - k * w < w := by rw [Nat.succ_mul] at hi; omega
      have hdiv : i / w = k := Nat.div_eq_of_lt_le (by omega) (by omega)
      have hmod : i % w = i - k * w := by
        have := Nat.div_add_mod i w
        rw [hdiv, Nat.mul_comm] at this
        omega
      rw [List.getElem?_append_right (by omega), hlen, hdiv, hmod]
      simp

theorem flatMap_range_length (f : Nat → Bytes) (w : Nat) (hf : ∀ c, (f c).length = w) (k : Nat) :
    ((List.range k).flatMap f).length = k * w := by
  induction k with
  | zero => simp
  | succ k ih => rw [List.range_succ, List.flatMap_append, List.length_append, ih]; simp [hf]; ring

/-- The mask covers its target (42_oaep.md R171). -/
@[simp] theorem mgfMask_length (h : HashAlg) (seed : Bytes) (len : Nat) : (mgfMask h seed len).length = len := by
  have hH := digestLen_pos h
  rw [mgfMask, List.length_take, flatMap_range_length _ (digestLen h) (by simp [mgfBlock])]
  refine Nat.min_eq_left ?_
  unfold mgfBlocks
  have h1 := Nat.div_add_mod (len + digestLen h - 1) (digestLen h)
  have h2 := Nat.mod_lt (len + digestLen h - 1) hH
  rw [Nat.mul_comm]
  omega

@[simp] theorem mgfXor_length (h : HashAlg) (seed target : Bytes) : (mgfXor h seed target).length = target.length := by
  simp [mgfXor]

/-- `draw()` is made once for each byte (00_scope.md R10). -/
@[simp] theorem drawBytes_length (d k : Nat) : (drawBytes d k).length = k := by simp [drawBytes]

@[simp] theorem opadBlock_length (h : HashAlg) (key : Bytes) : (opadBlock h key).length = blockLen h := by
  simp [opadBlock, padBlock]

@[simp] theorem ipadBlock_length (h : HashAlg) (key : Bytes) : (ipadBlock h key).length = blockLen h := by
  simp [ipadBlock, padBlock]

/-- The effective key fits the block (43_hmac.md R192). -/
theorem effectiveKey_length_le (h : HashAlg) (bug : Bool) (key : Bytes) :
    (effectiveKey h bug key).length ≤ blockLen h := by
  unfold effectiveKey
  split
  · simp only [List.length_take]
    have : 16 ≤ blockLen h := by cases h <;> decide
    omega
  · split
    · simpa using digestLen_le_blockLen h
    · omega

end Sys2Proof.Machine
end

