-- ==== Sys2Proof/Laws/Kdf.lean ====
section
/-!
SUPPORT. The blinding derivation (41_rsa_exponentiator.md R137 to R141): the sliced stream is R138's stream,
the stream and the candidates repeat, and the bounded search finds R140's least accepted candidate whenever
there is one.
-/

namespace Sys2Proof.Machine

@[simp] theorem kdfBlock_length (j d a : Nat) : (kdfBlock j d a).length = 64 := by simp [kdfBlock, digestLen]

/-- The slice has the length asked for. -/
@[simp] theorem kdfSlice_length (d a start len : Nat) : (kdfSlice d a start len).length = len := by
  rw [kdfSlice, List.length_take, List.length_drop, flatMap_range_length _ 64 (by simp)]
  omega

/-- Byte i of the slice is byte `start + i` of the stream (R138). -/
theorem kdfSlice_getElem? (d a start len i : Nat) (hi : i < len) :
    (kdfSlice d a start len)[i]? = some (kdfStream d a (start + i)) := by
  have hlt : start % 64 + i < (start % 64 + len + 63) / 64 * 64 := by omega
  rw [kdfSlice, List.getElem?_take_of_lt hi, List.getElem?_drop,
    flatMap_range_getElem? (fun j => kdfBlock (start / 64 + j) d a) 64 (by simp) _ _ hlt, kdfStream]
  have h1 : start / 64 + (start % 64 + i) / 64 = (start + i) / 64 := by omega
  have h2 : (start % 64 + i) % 64 = (start + i) % 64 := by omega
  rw [h1, h2, List.getD_eq_getElem?_getD]
  have h3 : (start + i) % 64 < (kdfBlock ((start + i) / 64) d a).length := by simp; omega
  rw [List.getElem?_eq_getElem h3]
  simp

/-- The slice as R138's stream bytes. -/
theorem kdfSlice_eq (d a start len : Nat) : kdfSlice d a start len = (List.range len).map (fun i => kdfStream d a (start + i)) := by
  apply List.ext_getElem?
  intro i
  by_cases hi : i < len
  · rw [kdfSlice_getElem? _ _ _ _ _ hi]
    simp [hi]
  · rw [List.getElem?_eq_none (by simp; omega), List.getElem?_eq_none (by simp; omega)]

/-- The block number enters modulo 2^32 (R138). -/
theorem kdfBlock_period (j k d a : Nat) : kdfBlock (j + k * 2 ^ 32) d a = kdfBlock j d a := by
  simp [kdfBlock, kdfInner, be32]

/-- The stream repeats after 2^38 bytes. -/
theorem kdfStream_period (d a i k : Nat) : kdfStream d a (i + k * 2 ^ 38) = kdfStream d a i := by
  have h1 : (i + k * 2 ^ 38) / 64 = i / 64 + k * 2 ^ 32 := by omega
  have h2 : (i + k * 2 ^ 38) % 64 = i % 64 := by omega
  simp only [kdfStream, h1, h2, kdfBlock_period]

/-- The candidates repeat after `candPeriod` indices. -/
theorem cand_period (n d a t k : Nat) : cand n d a (t + k * candPeriod) = cand n d a t := by
  have : kdfSlice d a ((t + k * candPeriod) * kbytes n) (kbytes n) = kdfSlice d a (t * kbytes n) (kbytes n) := by
    rw [kdfSlice_eq, kdfSlice_eq]
    refine List.map_congr_left fun i _ => ?_
    rw [show (t + k * candPeriod) * kbytes n + i = (t * kbytes n + i) + (k * kbytes n) * 2 ^ 38 by
      unfold candPeriod; ring, kdfStream_period]
  rw [cand, cand, this]

/-- Any candidate is a candidate of the first period. -/
theorem cand_mod (n d a t : Nat) : cand n d a (t % candPeriod) = cand n d a t := by
  conv_rhs => rw [← Nat.mod_add_div t candPeriod, Nat.mul_comm, cand_period]

/-- `Accept` in R140's own terms. -/
theorem accept_iff (c n : Nat) : accept c n = true ↔ 0 < c ∧ c < n ∧ Nat.Coprime c n := by
  unfold accept
  by_cases hn : 1 ≤ n
  · have := modinv_none_iff c n hn
    rw [Bool.and_eq_true, Bool.and_eq_true, decide_eq_true_iff, decide_eq_true_iff, Option.isSome_iff_ne_none, Ne, this]
    tauto
  · have : n = 0 := by omega
    simp [this]

theorem searchCand_some {n d a fuel t r : Nat} (h : searchCand n d a fuel t = some r) :
    t ≤ r ∧ r < t + fuel ∧ accept (cand n d a r) n = true ∧ ∀ j, t ≤ j → j < r → accept (cand n d a j) n = false := by
  induction fuel generalizing t with
  | zero => cases h
  | succ fuel ih =>
    unfold searchCand at h
    split at h
    · cases h
      exact ⟨le_refl _, by omega, ‹_›, fun j h1 h2 => by omega⟩
    · rename_i hna
      obtain ⟨h1, h2, h3, h4⟩ := ih h
      refine ⟨by omega, by omega, h3, fun j hj hr => ?_⟩
      rcases Nat.eq_or_lt_of_le hj with rfl | hlt
      · simpa using hna
      · exact h4 j hlt hr

theorem searchCand_none {n d a fuel t : Nat} (h : searchCand n d a fuel t = none) (j : Nat) (h1 : t ≤ j) (h2 : j < t + fuel) :
    accept (cand n d a j) n = false := by
  induction fuel generalizing t with
  | zero => omega
  | succ fuel ih =>
    unfold searchCand at h
    split at h
    · cases h
    · rename_i hna
      rcases Nat.eq_or_lt_of_le h1 with rfl | hlt
      · simpa using hna
      · exact ih h hlt (by omega)

/-- `t*` is the least index of an accepted candidate (R140). -/
theorem blindingIndex_eq_some_iff (n d a t : Nat) :
    blindingIndex n d a = some t
      ↔ accept (cand n d a t) n = true ∧ ∀ j < t, accept (cand n d a j) n = false := by
  constructor
  · intro h
    obtain ⟨-, -, h3, h4⟩ := searchCand_some h
    exact ⟨h3, fun j hj => h4 j (Nat.zero_le _) hj⟩
  · rintro ⟨ht, hmin⟩
    cases h : blindingIndex n d a with
    | none =>
      have := searchCand_none h (t % candPeriod) (Nat.zero_le _)
        (by have := Nat.mod_lt t (show 0 < candPeriod by unfold candPeriod; positivity); omega)
      rw [cand_mod, ht] at this
      cases this
    | some r =>
      obtain ⟨-, -, h3, h4⟩ := searchCand_some h
      rcases Nat.lt_trichotomy r t with hlt | rfl | hgt
      · rw [hmin r hlt] at h3; cases h3
      · rfl
      · rw [h4 t (Nat.zero_le _) hgt] at ht; cases ht

/-- The search fails exactly when no candidate at all is acceptable (R141). -/
theorem blindingIndex_eq_none_iff (n d a : Nat) :
    blindingIndex n d a = none ↔ ∀ t, accept (cand n d a t) n = false := by
  constructor
  · intro h t
    rw [← cand_mod]
    exact searchCand_none h _ (Nat.zero_le _)
      (by have := Nat.mod_lt t (show 0 < candPeriod by unfold candPeriod; positivity); omega)
  · intro h
    cases hb : blindingIndex n d a with
    | none => rfl
    | some r =>
      have := ((blindingIndex_eq_some_iff n d a r).1 hb).1
      rw [h r] at this
      cases this

/-- A candidate has at most `nb` bits (R139). -/
theorem candOfBytes_lt (nb : Nat) (s : Bytes) : candOfBytes nb s < 2 ^ nb := by
  have key : ∀ (k : Nat), k ≤ nb →
      ((List.range k).map (fun m => bitOf (s.getD (m / 8) 0#8).toNat (m % 8) * 2 ^ (nb - 1 - m))).sum + 2 ^ (nb - k)
        ≤ 2 ^ nb := by
    intro k
    induction k with
    | zero => simp
    | succ k ih =>
      intro hk
      have h := ih (by omega)
      rw [List.range_succ, List.map_append, List.sum_append, List.map_singleton, List.sum_singleton]
      have hb : bitOf (s.getD (k / 8) 0#8).toNat (k % 8) ≤ 1 := by unfold bitOf; omega
      have he : 2 ^ (nb - k) = 2 * 2 ^ (nb - (k + 1)) := by
        rw [← pow_succ']; congr 1; omega
      have he2 : nb - 1 - k = nb - (k + 1) := by omega
      have hmul : bitOf (s.getD (k / 8) 0#8).toNat (k % 8) * 2 ^ (nb - 1 - k) ≤ 1 * 2 ^ (nb - (k + 1)) := by
        rw [he2]; exact Nat.mul_le_mul_right _ hb
      omega
  have h := key nb (le_refl _)
  have hp : 0 < 2 ^ (nb - nb) := by positivity
  unfold candOfBytes
  omega

end Sys2Proof.Machine
end

