-- ==== Sys2Proof/Laws/Effects.lean ====
section
/-!
SUPPORT. What the effect of a command can do to an instance (40_data_commands.md R110), said once for all
commands: the fields it leaves, the lengths of the buffers, the MAC context, and when it exists.
-/

namespace Sys2Proof.Machine

/-- What every effect leaves: no command changes IRQ_EN, CMDL or the reset input, none but WIPEALL changes CFG, none
but CLRERR and WIPEALL writes ERR or OVR (R110). -/
theorem effect_frame {i : Instr} {d d' : Nat} {u u' : Instance} (h : effectOf i d u = some (u', d')) :
    u'.irqEn = u.irqEn ∧ u'.inReset = u.inReset ∧ u'.cmdl = u.cmdl ∧ (i ≠ .wipeall → u'.cfg = u.cfg)
      ∧ (i ≠ .wipeall → i ≠ .clrerr → u'.err = u.err ∧ u'.ovr = u.ovr)
      ∧ ((i = .wipeall ∨ i = .clrerr) → u'.err = 0#8 ∧ u'.ovr = false)
      ∧ (touchesMac i = false → u'.mac = u.mac) := by
  cases i <;>
    simp only [effectOf, noDraw, effectNop, effectLdr, effectPubop, effectCrtpow, effectPrivop, effectMgfx,
      effectOaepenc, effectHmkey, effectHmstart, effectHmupd, effectHmfinal, Option.map_eq_some_iff, Prod.mk.injEq]
      at h
  case oaepenc =>
    split at h
    · cases h; exact ⟨rfl, rfl, rfl, fun _ => rfl, fun _ _ => ⟨rfl, rfl⟩, by simp, fun _ => rfl⟩
    · cases h
  all_goals
    obtain ⟨a, h1, h2, -⟩ := h
    subst h2
    repeat' split at h1
    all_goals first
      | (cases h1; done)
      | (cases h1
         exact ⟨rfl, rfl, rfl, fun _ => rfl, fun _ _ => ⟨rfl, rfl⟩, by simp, fun hm => by first | rfl | cases hm⟩)
      | (cases h1
         exact ⟨rfl, rfl, rfl, fun hi => by first | rfl | exact absurd rfl hi,
           fun h1 h2 => by first | exact absurd rfl h1 | exact absurd rfl h2, fun _ => ⟨rfl, rfl⟩,
           fun hm => by first | rfl | cases hm⟩)

/-- The registers after an effect: WIPEK and WIPEALL empty the file, LDR writes one register, every other command
leaves it. -/
theorem effect_regs {i : Instr} {d d' : Nat} {u u' : Instance} (h : effectOf i d u = some (u', d')) :
    u'.regs = u.regs ∨ u'.regs = RegFile.absent
      ∨ ∃ r, u'.regs = writeReg u.regs r (os2ip u.ibuf)
          ∧ ∀ p, guardsOf i p u = guardLdr r p u := by
  cases i <;>
    simp only [effectOf, noDraw, effectNop, effectLdr, effectPubop, effectCrtpow, effectPrivop, effectMgfx,
      effectOaepenc, effectHmkey, effectHmstart, effectHmupd, effectHmfinal, Option.map_eq_some_iff, Prod.mk.injEq]
      at h
  case oaepenc =>
    split at h
    · cases h; exact .inl rfl
    · cases h
  all_goals
    obtain ⟨a, h1, h2, -⟩ := h
    subst h2
    repeat' split at h1
    all_goals first
      | (cases h1; done)
      | (cases h1; exact .inl rfl)
      | (cases h1; exact .inr (.inl rfl))
      | (cases h1; exact .inr (.inr ⟨_, rfl, fun _ => rfl⟩))

/-- The input buffer after an effect is what it was or empty (R26). -/
theorem effect_ibuf {i : Instr} {d d' : Nat} {u u' : Instance} (h : effectOf i d u = some (u', d')) :
    u'.ibuf = u.ibuf ∨ u'.ibuf = [] := by
  cases i <;>
    simp only [effectOf, noDraw, effectNop, effectLdr, effectPubop, effectCrtpow, effectPrivop, effectMgfx,
      effectOaepenc, effectHmkey, effectHmstart, effectHmupd, effectHmfinal, Option.map_eq_some_iff, Prod.mk.injEq]
      at h
  case oaepenc =>
    split at h
    · cases h; exact .inr rfl
    · cases h
  all_goals
    obtain ⟨a, h1, h2, -⟩ := h
    subst h2
    repeat' split at h1
    all_goals first
      | (cases h1; done)
      | (cases h1; exact .inl rfl)
      | (cases h1; exact .inr rfl)

/-- The output buffer after an effect (R27): what it was, empty, a number of k bytes, at most as many bytes as IBUF
held, or at most HM_OUTLEN bytes. -/
theorem effect_obuf {i : Instr} {d d' : Nat} {u u' : Instance} (h : effectOf i d u = some (u', d')) :
    u'.obuf = u.obuf ∨ u'.obuf = [] ∨ (∃ n, u.regs.n = some n ∧ u'.obuf.length = kbytes n)
      ∨ u'.obuf.length ≤ u.ibuf.length ∨ u'.obuf.length ≤ u.mac.outlen := by
  cases i <;>
    simp only [effectOf, noDraw, effectNop, effectLdr, effectPubop, effectCrtpow, effectPrivop, effectMgfx,
      effectOaepenc, effectHmkey, effectHmstart, effectHmupd, effectHmfinal, Option.map_eq_some_iff, Prod.mk.injEq]
      at h
  case oaepenc =>
    split at h
    · cases h
      exact .inr (.inr (.inl ⟨_, ‹u.regs.n = some _›, by simp⟩))
    · cases h
  all_goals
    obtain ⟨a, h1, h2, -⟩ := h
    subst h2
    repeat' split at h1
    all_goals first
      | (cases h1; done)
      | (cases h1; exact .inl rfl)
      | (cases h1; exact .inr (.inl rfl))
      | (cases h1; exact .inr (.inr (.inl ⟨_, ‹u.regs.n = some _›, by simp⟩)))
      | (cases h1; exact .inr (.inr (.inr (.inr (List.length_take_le _ _)))))
      | (cases h1; exact .inr (.inr (.inr (.inl (by simp)))))

end Sys2Proof.Machine
end

