-- ==== Sys2Proof/Laws/PerInstr.lean ====
section
/-!
SUPPORT. The family of statements made per command: its word matches a row of the opcode map and its reserved field
is 0 (30_encoding.md R90, R92). One lemma for each constructor.
-/

namespace Sys2Proof.Laws.WordMatchesARow

/-- The word of the command matches a row of the opcode map, and its reserved field is 0 (R90, R92). -/
def Statement (i : Instr) : Prop := (∃ row ∈ opcodeRows, encode i &&& row.1 = row.2) ∧ fieldRsv (encode i) = 0

theorem nop : Statement .nop := by unfold Statement; decide
theorem ldrN : Statement .ldrN := by unfold Statement; decide
theorem ldrE : Statement .ldrE := by unfold Statement; decide
theorem ldrD : Statement .ldrD := by unfold Statement; decide
theorem ldrP : Statement .ldrP := by unfold Statement; decide
theorem ldrQ : Statement .ldrQ := by unfold Statement; decide
theorem ldrIqmp : Statement .ldrIqmp := by unfold Statement; decide
theorem ldrA : Statement .ldrA := by unfold Statement; decide
theorem ldrX : Statement .ldrX := by unfold Statement; decide
theorem wipek : Statement .wipek := by unfold Statement; decide
theorem clrib : Statement .clrib := by unfold Statement; decide
theorem clrob : Statement .clrob := by unfold Statement; decide
theorem clrerr : Statement .clrerr := by unfold Statement; decide
theorem wipeall : Statement .wipeall := by unfold Statement; decide
theorem pubop : Statement .pubop := by unfold Statement; decide
theorem crtpowE : Statement .crtpowE := by unfold Statement; decide
theorem crtpowX : Statement .crtpowX := by unfold Statement; decide
theorem privop : Statement .privop := by unfold Statement; decide

/-- For every seed length: only bits 15:0 are matched. -/
theorem mgfx (seedLen : Nat) : Statement (.mgfx seedLen) := by
  have hw : (encode (.mgfx seedLen)).toNat = 0x20 + seedLen % 0x10000 * 0x10000 := by simp [encode, assemble]; omega
  refine ⟨⟨(0x0000FFFF#32, 0x00000020#32), by decide, ?_⟩, by rw [fieldRsv, hw]; omega⟩
  apply BitVec.eq_of_toNat_eq
  rw [BitVec.toNat_and, hw, show (0x0000FFFF#32).toNat = 2 ^ 16 - 1 from rfl, Nat.and_two_pow_sub_one_eq_mod]
  simp only [BitVec.toNat_ofNat]
  omega

theorem oaepenc : Statement .oaepenc := by unfold Statement; decide
theorem hmkey : Statement .hmkey := by unfold Statement; decide
theorem hmstart : Statement .hmstart := by unfold Statement; decide
theorem hmupd : Statement .hmupd := by unfold Statement; decide
theorem hmfinal : Statement .hmfinal := by unfold Statement; decide
theorem hmwipe : Statement .hmwipe := by unfold Statement; decide

end Sys2Proof.Laws.WordMatchesARow
end

