-- ==== Sys2Proof/Tests/Slice0.lean ====
section
/-!
SUPPORT. Tests. Expected values are those of spec/95_test_vectors.md (the id stands at each test) or are worked out
from the rules; each runs one step on a small state. Below them, a witness for every statement that has hypotheses.
-/

namespace Sys2Proof.Tests

open Sys2Proof.Machine

/-! ## States to test on -/

/-- The platform of `State.reset` with its one instance in the state u. -/
def one (u : Instance) : State := { State.reset with insts := [u] }

/-- The same, with one move pending. -/
def oneTurn (u : Instance) (x : Turn) : State := { one u with turns := [x] }

/-- Command i is in flight. -/
def inFlight (i : Instr) (u : Instance) : Instance := { u with busy := true, cmdl := encode i }

/-- The instance after a next state. -/
def after (o : Host.Outcome State Fault Refusal) : Option Instance :=
  match o with
  | .next t => selected t
  | _ => none

/-- The instance after the completion of i from u. -/
def completion (i : Instr) (u : Instance) : Option Instance := after (exec i (one (inFlight i u)))

/-- The instance after the launch of i in u. -/
def launched (i : Instr) (u : Instance) : Option Instance := after (exec i (one u))

/-- Key T1 of spec/95, with A = 2 and X = 13. -/
def keyT1 : RegFile :=
  { n := some 77, e := some 7, d := some 13, p := some 11, q := some 7, iqmp := some 8, a := some 2, x := some 13 }

/-- Key T2 of spec/95, with A = 65. -/
def keyT2 : RegFile :=
  { n := some 3233, e := some 17, d := some 2753, p := some 61, q := some 53, iqmp := some 38, a := some 65, x := none }

/-- An instance with T1 loaded. -/
def withT1 : Instance := { Instance.reset with regs := keyT1 }

/-- An instance with bytes in IBUF and a CFG word. -/
def withInput (cfg : Word) (s : Bytes) : Instance := { Instance.reset with cfg := cfgOfWord cfg, ibuf := s }

/-- "Jefe". -/
def jefe : Bytes := [0x4A#8, 0x65#8, 0x66#8, 0x65#8]

/-- "what do ya want for nothing?". -/
def whatDoYaWant : Bytes :=
  [0x77#8, 0x68#8, 0x61#8, 0x74#8, 0x20#8, 0x64#8, 0x6F#8, 0x20#8, 0x79#8, 0x61#8, 0x20#8, 0x77#8, 0x61#8, 0x6E#8,
   0x74#8, 0x20#8, 0x66#8, 0x6F#8, 0x72#8, 0x20#8, 0x6E#8, 0x6F#8, 0x74#8, 0x68#8, 0x69#8, 0x6E#8, 0x67#8, 0x3F#8]

/-- An instance keyed with "Jefe" for SHA-1, full output length (R194's example). -/
def keyedJefe : Instance :=
  { Instance.reset with
    cfg := cfgOfWord 1#32
    mac :=
      { MacCtx.unkeyed with
        state := .idle
        hsel := .sha1
        outlen := 20
        outer := some { alg := .sha1, absorbed := opadBlock .sha1 jefe }
        inner := some { alg := .sha1, absorbed := ipadBlock .sha1 jefe } } }

/-- The same, live, fed the message m. -/
def liveJefe (m : Bytes) : Instance :=
  { keyedJefe with
    mac := { keyedJefe.mac with state := .live, live := some { alg := .sha1, absorbed := ipadBlock .sha1 jefe ++ m } } }

/-! ## Encoding -/

/-- WellFormed refuses a seed length of 17 bits (R91), the one ill-formed term there is. -/
theorem test_wf_mgfx : (Instr.mgfx 65536).wf = false ∧ (Instr.mgfx 65535).wf = true := by decide

/-- The words of R92, field by field: OPC, then SEL at bit 8, IMM16 at bit 16. -/
theorem test_decode_data :
    decode 0x00000000#32 = .ok .nop ∧ decode 0x00000001#32 = .ok .ldrN ∧ decode 0x00000101#32 = .ok .ldrE
      ∧ decode 0x00000201#32 = .ok .ldrD ∧ decode 0x00000301#32 = .ok .ldrP ∧ decode 0x00000401#32 = .ok .ldrQ
      ∧ decode 0x00000501#32 = .ok .ldrIqmp ∧ decode 0x00000601#32 = .ok .ldrA ∧ decode 0x00000701#32 = .ok .ldrX
      ∧ decode 0x00000002#32 = .ok .wipek ∧ decode 0x00000003#32 = .ok .clrib ∧ decode 0x00000004#32 = .ok .clrob
      ∧ decode 0x00000005#32 = .ok .clrerr ∧ decode 0x00000006#32 = .ok .wipeall := by decide

theorem test_decode_units :
    decode 0x00000010#32 = .ok .pubop ∧ decode 0x00000111#32 = .ok .crtpowE ∧ decode 0x00000711#32 = .ok .crtpowX
      ∧ decode 0x00000012#32 = .ok .privop ∧ decode 0x00140020#32 = .ok (.mgfx 20)
      ∧ decode 0x00000021#32 = .ok .oaepenc ∧ decode 0x00000030#32 = .ok .hmkey ∧ decode 0x00000031#32 = .ok .hmstart
      ∧ decode 0x00000032#32 = .ok .hmupd ∧ decode 0x00000033#32 = .ok .hmfinal
      ∧ decode 0x00000034#32 = .ok .hmwipe := by decide

/-- V-ERR-1 to V-ERR-6, V-GRD-10, V-MGF-12: illegal words. -/
theorem test_decode_illegal :
    decode 0x00001000#32 = .illegal .reservedBits ∧ decode 0x00010000#32 = .illegal .strayImm
      ∧ decode 0x00000110#32 = .illegal .straySel ∧ decode 0x00000801#32 = .illegal .badRegister
      ∧ decode 0x00000011#32 = .illegal .badRegister ∧ decode 0x00000611#32 = .illegal .badRegister
      ∧ decode 0x00000007#32 = .illegal .badOpcode ∧ decode 0x00000013#32 = .illegal .badOpcode
      ∧ decode 0x00000022#32 = .illegal .badOpcode ∧ decode 0x00000035#32 = .illegal .badOpcode
      ∧ (decode 0xFFFFFFFF#32).instr? = none ∧ decode 0x00000211#32 = .illegal .badRegister
      ∧ decode 0x00031020#32 = .illegal .reservedBits := by decide

/-- The table's numbering (bit 0 of the word is bit 0 of w), and a word placed is launched by the next step. -/
theorem test_table_word :
    decodeTableWord 32 0x711 = some .crtpowX ∧ decodeTableWord 32 0x30020 = some (.mgfx 3)
      ∧ decodeTableWord 32 0x211 = none
      ∧ (after (step (State.reset.withFetchWord 32 0x30))).map (fun u => (u.cmdl, u.busy)) = some (0x30#32, true) := by
  decide

/-! ## Hash functions: `Hash_h(empty)` of spec/95 section 4.1, and one two-block value -/

theorem test_hash_md5 : os2ip (hash .md5 []) = 0xd41d8cd98f00b204e9800998ecf8427e := by decide +kernel

theorem test_hash_sha1 : os2ip (hash .sha1 []) = 0xda39a3ee5e6b4b0d3255bfef95601890afd80709 := by decide +kernel

theorem test_hash_sha256 :
    os2ip (hash .sha256 []) = 0xe3b0c44298fc1c149afbf4c8996fb92427ae41e4649b934ca495991b7852b855 := by decide +kernel

/-- V-KDF-2's digest covers SHA-512: `KdfBlock(0)` for d = 13, a = 2. -/
theorem test_kdf_block :
    os2ip (kdfBlock 0 13 2)
      = 0x259631cc163998dada9e5347f64f0d1afb1f9ba5241e9574625050fda0a2845885293a1b5b9040eeed054ecdb011a308935086b95aab9aed2f14dc84d5a1232f := by
  decide +kernel

/-- V-KDF-3, V-KDF-4: the candidates of T1 and T2. -/
theorem test_candidates : cand 77 13 2 0 = 82 ∧ cand 77 13 2 1 = 52 ∧ cand 3233 2753 65 0 = 2207 := by decide +kernel

/-! ## Data-movement and housekeeping commands -/

/-- V-DC-1. -/
theorem test_nop : (completion .nop Instance.reset).map statusWord = some 0x00000002#32 := by decide

/-- V-ERR-9: halted, NOP is ignored. -/
theorem test_nop_halted :
    launched .nop { Instance.reset with err := 0x03#8, cmdl := 0x12#32 }
      = some { Instance.reset with err := 0x03#8, cmdl := 0x12#32 } := by decide

/-- V-DC-2: `00 4D` into N; the leading zero byte does not count. -/
theorem test_ldrN :
    (completion .ldrN (withInput 0 [0x00#8, 0x4D#8])).map (fun u => (u.regs.n, modulusBits u, u.ibuf, statusWord u))
      = some (some 77, 7, [], 0x00010002#32) := by decide

/-- V-DC-5: a zero modulus is refused with ERR_ZEROMOD. -/
theorem test_ldrN_zero : (launched .ldrN Instance.reset).map statusWord = some 0x00000600#32 := by decide

/-- V-DC-4: an empty IBUF loads 0 into A, which is then present; big-endian, first byte most significant, elsewhere. -/
theorem test_ldrA : (completion .ldrA Instance.reset).map (fun u => (u.regs.a, statusWord u)) = some (some 0, 0x00400002#32) := by
  decide

/-- Each form writes its own register (PRES bits of R30). -/
theorem test_ldr_forms :
    (completion .ldrE (withInput 0 [1#8, 2#8])).map (·.regs) = some { RegFile.absent with e := some 258 }
      ∧ (completion .ldrD (withInput 0 [1#8, 2#8])).map (·.regs) = some { RegFile.absent with d := some 258 }
      ∧ (completion .ldrP (withInput 0 [1#8, 2#8])).map (·.regs) = some { RegFile.absent with p := some 258 }
      ∧ (completion .ldrQ (withInput 0 [1#8, 2#8])).map (·.regs) = some { RegFile.absent with q := some 258 }
      ∧ (completion .ldrIqmp (withInput 0 [1#8, 2#8])).map (·.regs) = some { RegFile.absent with iqmp := some 258 }
      ∧ (completion .ldrX (withInput 0 [1#8, 2#8])).map (·.regs) = some { RegFile.absent with x := some 258 } := by
  decide

/-- V-ERR-10: WIPEK is launched while halted. -/
theorem test_wipek : (completion .wipek { withT1 with err := 0x03#8 }).map statusWord = some 0x00000302#32 := by decide

/-- V-DC-12. -/
theorem test_clrib : (completion .clrib (withInput 0 [1#8, 2#8, 3#8])).map (·.ibuf) = some [] := by decide

/-- V-DC-13. -/
theorem test_clrob : (completion .clrob { withT1 with obuf := [0x33#8] }).map (·.obuf) = some [] := by decide

/-- V-DC-14. -/
theorem test_clrerr :
    (completion .clrerr { Instance.reset with err := 0x01#8, ovr := true }).map statusWord = some 0x00000002#32 := by
  decide

/-- V-DC-15: IRQ_EN stays, everything else is reset but CMDL and DONE. -/
theorem test_wipeall :
    completion .wipeall { liveJefe [] with regs := keyT1, irqEn := irqEnOfWord 3#32, ibuf := [1#8, 2#8], err := 3#8 }
      = some { Instance.reset with cmdl := 0x00000006#32, done := true, irqEn := irqEnOfWord 3#32 } := by decide

/-! ## The RSA exponentiator -/

/-- V-PUB-6. -/
theorem test_pubop : (completion .pubop { Instance.reset with regs := keyT2 }).map (·.obuf) = some [0x0A#8, 0xE6#8] := by
  decide

/-- V-PUB-10: A absent. -/
theorem test_pubop_noreg :
    (launched .pubop { Instance.reset with regs := { RegFile.absent with n := some 77, e := some 7 } }).map statusWord
      = some 0x00030340#32 := by decide

/-- V-GRD-8: D is not read. -/
theorem test_crtpowE :
    (completion .crtpowE { withT1 with regs := { keyT1 with d := none } }).map (·.obuf) = some [0x33#8] := by decide

/-- V-GRD-1: P <= Q. -/
theorem test_crtpowE_range :
    (launched .crtpowE { withT1 with regs := { keyT1 with p := some 7, q := some 11 } }).map (·.err) = some 0x04#8 := by
  decide

/-- R134's example. -/
theorem test_crtpowX : (completion .crtpowX withT1).map (·.obuf) = some [0x1E#8] := by decide

/-- R136 (c), (d), (e), (f): the corner cases of `CrtModpow`. -/
theorem test_crtModpow :
    crtModpow 22 10 77 11 7 8 = 1 ∧ crtModpow 2 5 6 3 2 2 = 5 ∧ crtModpow 11 7 77 11 7 8 = 11
      ∧ crtModpow 2 7 80 11 7 8 = 42 := by decide

/-- V-PRV-1. -/
theorem test_privop : (completion .privop withT1).map (·.obuf) = some [0x1E#8] := by decide +kernel

/-- V-ERR-8: ERR_NOREG comes before ERR_KEYRANGE. -/
theorem test_privop_priority :
    (launched .privop { withT1 with regs := { keyT1 with p := some 7, q := some 11, d := none } }).map (·.err)
      = some 0x03#8 := by decide

/-! ## The OAEP unit -/

/-- V-MGF-8. -/
theorem test_mgfx :
    (completion (.mgfx 3)
        (withInput 1#32 [0x61#8, 0x62#8, 0x63#8, 0xFF#8, 0xFF#8, 0xFF#8, 0xFF#8, 0x00#8, 0x00#8])).map
        (fun u => (u.obuf, u.ibuf))
      = some ([0x5F#8, 0xC1#8, 0x47#8, 0x53#8, 0x3E#8, 0x6A#8], []) := by decide +kernel

/-- V-MGF-10. -/
theorem test_mgfx_len :
    (launched (.mgfx 4) (withInput 1#32 [0x61#8, 0x62#8, 0x63#8])).map (fun u => (u.err, u.cmdl))
      = some (0x05#8, 0x00040020#32) := by decide

/-- V-OAEP-1: EM after both masks (the draws themselves are free values). -/
theorem test_oaep_block :
    os2ip (oaepEm .sha1 64 ((List.range 20).map (fun i => BitVec.ofNat 8 (0xA0 + i))) [0x61#8, 0x62#8, 0x63#8])
      = 0x00b0309623534f62710a625c3f7809905b8a4917324d8b66bc2dc1950c4b5daed0671c812f3e939c44fb1fa037de6db86bd3e6186d2c8e3c5fe61c5d9497c2d9 := by
  decide +kernel

/-- V-OAEP-9: ERR_CFG comes before ERR_NOREG. -/
theorem test_oaepenc_priority : (launched .oaepenc (withInput 9#32 [0x61#8])).map (·.err) = some 0x02#8 := by decide

/-! ## The HMAC unit -/

/-- R194's example: INNER has absorbed `7C 53 50 53` followed by sixty bytes 0x36. -/
theorem test_hmkey :
    (completion .hmkey (withInput 1#32 jefe)).map (fun u => (u.mac.inner, u.mac.outlen, statusWord u))
      = some (some { alg := .sha1, absorbed := [0x7C#8, 0x53#8, 0x50#8, 0x53#8] ++ List.replicate 60 0x36#8 }, 20,
          0x00000012#32) := by decide

/-- V-HMS-10: OUTLEN 21 > 20. -/
theorem test_hmkey_cfg : (launched .hmkey (withInput 0x00001501#32 jefe)).map statusWord = some 0x00000200#32 := by decide

/-- V-HMS-6: HMSTART while LIVE is refused and the computation is kept. -/
theorem test_hmstart_live :
    (launched .hmstart (liveJefe whatDoYaWant)).map (fun u => (statusWord u, u.mac))
      = some (0x00000820#32, (liveJefe whatDoYaWant).mac) := by decide

/-- R195's example. -/
theorem test_hmstart : (completion .hmstart keyedJefe).map (fun u => (hmstBits u.mac.state, u.mac.inner)) = some (2#2, keyedJefe.mac.inner) := by
  decide

/-- R196's example. -/
theorem test_hmupd :
    (completion .hmupd { liveJefe [] with ibuf := [0x77#8, 0x68#8, 0x61#8, 0x74#8] }).map (fun u => (u.mac, u.ibuf))
      = some ((liveJefe [0x77#8, 0x68#8, 0x61#8, 0x74#8]).mac, []) := by decide

/-- V-HMS-4. -/
theorem test_hmupd_idle : (launched .hmupd keyedJefe).map statusWord = some 0x00000810#32 := by decide

/-- V-HM-4. -/
theorem test_hmfinal :
    (completion .hmfinal (liveJefe whatDoYaWant)).map (fun u => (os2ip u.obuf, u.obuf.length, u.mac))
      = some (0xeffcdf6ae5eb2fa2d27416d5f184df9c259a7c79, 20, keyedJefe.mac) := by decide +kernel

/-- V-HMS-9. -/
theorem test_hmwipe : (completion .hmwipe (liveJefe [])).map (·.mac) = some MacCtx.unkeyed := by decide

/-! ## The host interface -/

/-- V-DC-16, V-DC-17: reserved bits are dropped. -/
theorem test_config_words :
    cfgWord (cfgOfWord 0xFFFFFFFF#32) = 0x00003F1F#32 ∧ irqEnWord (irqEnOfWord 0xFFFFFFFF#32) = 0x00000003#32 := by decide

/-- V-DC-20: only bits 7:0 enter. -/
theorem test_data_in :
    (after (step (oneTurn Instance.reset (.write 0x0C 32 0x12345678#32)))).map (·.ibuf) = some [0x78#8] := by decide

/-- V-ERR-12: writes while BUSY set OVR, and STATUS reads 0x007F00C5. -/
theorem test_write_busy :
    (after (step (oneTurn (inFlight .privop { withT1 with regs := { keyT1 with x := none } }) (.write 0x08 32 3#32)))).map
        (fun u => (statusWord u, u.cfg))
      = some (0x007F00C5#32, Cfg.zero) := by decide

/-- V-ERR-16: reset while a PRIVOP is in flight. -/
theorem test_reset_busy :
    after (step (oneTurn (inFlight .privop withT1) (.reset 0 true))) = some { Instance.reset with inReset := true } := by
  decide

/-- R95, R96: `PUT 07` then `RUN LDR.E` as turns. -/
theorem test_script :
    scriptLoad 0x40 1 .ldrE [0x07#8]
      = [.write 0x4C 32 0x07#32, .write 0x40 32 0x00000101#32, .sequencer 1, .read 0x44 32] := by decide

/-- R191: the CFG words of the named variants select the hash and the length the table gives. -/
theorem test_variants :
    macVariants.map (fun v => ((cfgOfWord v.cfg).hsel.toNat, (cfgOfWord v.cfg).outlen.toNat, (cfgOfWord v.cfg).bugkey))
      = [(2, 0, false), (1, 0, false), (1, 12, false), (0, 0, false), (1, 0, true), (1, 12, true)] := by decide

/-! ## Witnesses: for every statement with hypotheses, a state and operands that meet them together -/

/-- A host write of w to offset `off` of the one window is the next move. -/
theorem nextWrite_one (u : Instance) (off : Nat) (w : Word) (ha : off % 4 = 0)
    (hw : windowOf [0] off = some (0, off)) : NextWrite (oneTurn u (.write off 32 w)) 0 off w [] u :=
  ⟨off, rfl, ha, hw, rfl⟩

/-- A host read of offset `off` of the one window is the next move. -/
theorem nextRead_one (u : Instance) (off : Nat) (ha : off % 4 = 0) (hw : windowOf [0] off = some (0, off)) :
    NextRead (oneTurn u (.read off 32)) 0 off [] u :=
  ⟨off, rfl, ha, hw, rfl⟩

/-- The command put in flight by `inFlight` is in flight. -/
theorem inFlight_one (i : Instr) (u : Instance) (h : u.inReset = false) : InFlight i (one (inFlight i u)) (inFlight i u) :=
  ⟨⟨rfl, h⟩, rfl, rfl⟩

/-- An instance that is neither BUSY nor halted nor in reset can launch every command. -/
theorem canLaunch_one (i : Instr) (u : Instance) (h : u.inReset = false ∧ u.busy = false ∧ u.err = 0#8) :
    CanLaunch i (one u) u :=
  ⟨⟨rfl, h.1⟩, h.2.1, .inl h.2.2⟩

/-- Two instances side by side, the smallest buffers R5 allows. -/
def twoWindows : Params := { kmax := 1, ibmax := 1, obmax := 64, idValue := 0#32, bases := [0, 0x40] }

/-- An instance that has been halted by ERR_NOREG. -/
def haltedU : Instance := { withT1 with err := 3#8 }

/-- An instance the reset input holds. -/
def heldU : Instance := { Instance.reset with inReset := true }

theorem witness_DecodeOfEncode :
    (Instr.mgfx 0).wf = true ∧ (Instr.mgfx 65535).wf = true ∧ Instr.privop.wf = true ∧ Instr.crtpowX.wf = true := by
  decide

theorem witness_EncodeOfDecode : decode 0xFFFF0020#32 = .ok (.mgfx 65535) := by decide

/-- One word for each clause by which a word is illegal: opcode, reserved bits, IMM16, SEL, LDR's and CRTPOW's SEL. -/
theorem witness_LegalExactlyWhenARowMatches :
    (∀ w ∈ [0x35#32, 0x1000#32, 0x10000#32, 0x110#32, 0x801#32, 0x211#32], ∃ why, decode w = .illegal why)
      ∧ NextWrite (oneTurn withT1 (.write 0 32 0x35#32)) 0 0 0x35#32 [] withT1 ∧ withT1.inReset = false
      ∧ withT1.busy = false ∧ withT1.err = 0#8 := by
  refine ⟨?_, nextWrite_one _ _ _ rfl (by decide), rfl, rfl, rfl⟩
  intro w hw
  fin_cases hw
  · exact ⟨.badOpcode, by decide⟩
  · exact ⟨.reservedBits, by decide⟩
  · exact ⟨.strayImm, by decide⟩
  · exact ⟨.straySel, by decide⟩
  · exact ⟨.badRegister, by decide⟩
  · exact ⟨.badRegister, by decide⟩

theorem witness_ResetLeavesTheTable : Instance.reset ∈ (State.resetWith twoWindows).insts := by decide

theorem witness_ResetIsLegal : twoWindows.ok = true ∧ Params.suggested.ok = true := by decide

theorem witness_ResetInput :
    ((oneTurn (inFlight .privop withT1) (.reset 0 true)).turns = .reset 0 true :: []
        ∧ (oneTurn (inFlight .privop withT1) (.reset 0 true)).insts[0]? = some (inFlight .privop withT1))
      ∧ ((oneTurn heldU (.reset 0 false)).turns = .reset 0 false :: [] ∧ (oneTurn heldU (.reset 0 false)).insts[0]? = some heldU)
      ∧ NextWrite (oneTurn heldU (.write 8 32 1#32)) 0 8 1#32 [] heldU ∧ heldU.inReset = true :=
  ⟨⟨rfl, rfl⟩, ⟨rfl, rfl⟩, nextWrite_one _ _ _ rfl (by decide), rfl⟩

theorem witness_StepLaunches :
    NextWrite (oneTurn withT1 (.write 0 32 0x12#32)) 0 0 0x12#32 [] withT1 ∧ withT1.inReset = false
      ∧ withT1.busy = false ∧ decode 0x12#32 = .ok .privop :=
  ⟨nextWrite_one _ _ _ rfl (by decide), rfl, rfl, by decide⟩

theorem witness_StepCompletes :
    (oneTurn (inFlight (.mgfx 3) withT1) (.sequencer 0)).turns = .sequencer 0 :: []
      ∧ (oneTurn (inFlight (.mgfx 3) withT1) (.sequencer 0)).insts[0]? = some (inFlight (.mgfx 3) withT1)
      ∧ (inFlight (.mgfx 3) withT1).busy = true ∧ decode (inFlight (.mgfx 3) withT1).cmdl = .ok (.mgfx 3) := by
  decide

/-- Both outcomes of an idle step: nothing to complete, and a NOP that completes. -/
theorem witness_IdleStep :
    State.reset.turns = [] ∧ step State.reset = .next State.reset ∧ (one (inFlight .nop withT1)).turns = []
      ∧ (after (step (one (inFlight .nop withT1)))).map (·.busy) = some false :=
  ⟨rfl, rfl, rfl, by decide⟩

/-- The last byte of the second window, and the first byte above it. -/
theorem witness_Windows :
    twoWindows.ok = true ∧ 1 < twoWindows.bases.length ∧ windowOf twoWindows.bases 0x7F = some (1, 0x3F)
      ∧ (∀ b ∈ twoWindows.bases, 0x80 < b ∨ b + 0x40 ≤ 0x80)
      ∧ (State.resetWith twoWindows).params = twoWindows
      ∧ { State.reset with params := twoWindows, turns := [.read 0x80 32] }.turns = .read 0x80 32 :: [] := by decide

theorem witness_UndefinedAccess :
    windowOf [0] 0x3F = some (0, 0x3F) ∧ 0x3F % 4 ≠ 0 ∧ windowOf [0] 0 = some (0, 0)
      ∧ (oneTurn withT1 (.read 0x3F 32)).turns = .read 0x3F 32 :: []
      ∧ (oneTurn withT1 (.write 0 8 0#32)).turns = .write 0 8 0#32 :: [] := by decide

/-- Every offset that the table of reads names, and the reserved ones at both ends. -/
theorem witness_ReadsReturnTheTable :
    ∀ off ∈ [0x00, 0x04, 0x08, 0x0C, 0x10, 0x14, 0x18, 0x1C, 0x20, 0x24, 0x28, 0x2C, 0x3C],
      NextRead (oneTurn withT1 (.read off 32)) 0 off [] withT1 := by
  intro off hoff
  fin_cases hoff <;> exact nextRead_one _ _ rfl (by decide)

theorem witness_DataOut :
    NextRead (oneTurn { withT1 with obuf := [7#8] } (.read 0x10 32)) 0 0x10 [] { withT1 with obuf := [7#8] }
      ∧ NextRead (oneTurn withT1 (.read 0x10 32)) 0 0x10 [] withT1 ∧ withT1.obuf = []
      ∧ NextRead (oneTurn (inFlight .nop withT1) (.read 0x10 32)) 0 0x10 [] (inFlight .nop withT1) :=
  ⟨nextRead_one _ _ rfl (by decide), nextRead_one _ _ rfl (by decide), rfl, nextRead_one _ _ rfl (by decide)⟩

/-- IBUF with room for one more byte, and full: the capacity of `twoWindows` is one byte. -/
theorem witness_DataIn :
    NextWrite { State.resetWith twoWindows with turns := [.write 0x4C 32 5#32] } 1 0x0C 5#32 [] Instance.reset
      ∧ Instance.reset.ibuf.length < twoWindows.ibmax
      ∧ NextWrite { (oneTurn { withT1 with ibuf := [9#8] } (.write 0x0C 32 5#32)) with params := twoWindows } 0 0x0C 5#32 []
          { withT1 with ibuf := [9#8] }
      ∧ [9#8].length = twoWindows.ibmax :=
  ⟨⟨0x4C, rfl, rfl, by decide, rfl⟩, by decide, ⟨0x0C, rfl, rfl, by decide, rfl⟩, by decide⟩

/-- CFG, IRQ_EN, STATUS and both ends of each range of read-only and reserved offsets. -/
theorem witness_RegisterWrites :
    ∀ off ∈ [0x08, 0x24, 0x04, 0x10, 0x20, 0x28, 0x3C],
      NextWrite (oneTurn withT1 (.write off 32 3#32)) 0 off 3#32 [] withT1 := by
  intro off hoff
  fin_cases hoff <;> exact nextWrite_one _ _ _ rfl (by decide)

theorem witness_IgnoredWrites :
    (∀ off ∈ [0x00, 0x08, 0x0C, 0x24],
        NextWrite (oneTurn (inFlight .nop withT1) (.write off 32 0#32)) 0 off 0#32 [] (inFlight .nop withT1))
      ∧ (NextWrite (oneTurn haltedU (.write 0 32 0x12#32)) 0 0 0x12#32 [] haltedU ∧ haltedU.err ≠ 0#8)
      ∧ ∀ w ∈ [0x5#32, 0x3#32, 0x4#32, 0x2#32, 0x34#32, 0x6#32],
        NextWrite (oneTurn haltedU (.write 0 32 w)) 0 0 w [] haltedU := by
  refine ⟨?_, ⟨nextWrite_one _ _ _ rfl (by decide), by decide⟩, ?_⟩
  · intro off hoff
    fin_cases hoff <;> exact nextWrite_one _ _ _ rfl (by decide)
  · intro w _
    exact nextWrite_one _ _ _ rfl (by decide)

/-- Each of the eight codes is some launch's: ILLEGAL by its word, the others by the guards of a command that can be
launched. -/
theorem witness_RefusalEntry :
    decode 0x13#32 = .illegal .badOpcode
      ∧ (∀ i, CanLaunch i (one Instance.reset) Instance.reset)
      ∧ guardsOf .hmkey Params.suggested (withInput 0x1501#32 []) = some .cfg
      ∧ guardsOf .pubop Params.suggested Instance.reset = some .noReg
      ∧ guardsOf .privop Params.suggested { withT1 with regs := { keyT1 with p := some 7 } } = some .keyRange
      ∧ guardsOf (.mgfx 1) Params.suggested Instance.reset = some .len
      ∧ guardsOf .ldrN Params.suggested Instance.reset = some .zeroMod
      ∧ guardsOf .oaepenc Params.suggested withT1 = some .oaepLen
      ∧ guardsOf .hmupd Params.suggested Instance.reset = some .hmState :=
  ⟨by decide, fun i => canLaunch_one i _ ⟨rfl, rfl, rfl⟩, by decide, by decide, by decide, by decide, by decide,
    by decide, by decide⟩

/-- A normal launch, and the launch of a recovery command while halted. -/
theorem witness_AcceptedLaunch :
    (CanLaunch .privop (one withT1) withT1 ∧ guardsOf .privop Params.suggested withT1 = none)
      ∧ CanLaunch .clrerr (one haltedU) haltedU ∧ guardsOf .clrerr Params.suggested haltedU = none :=
  ⟨⟨canLaunch_one _ _ ⟨rfl, rfl, rfl⟩, by decide⟩, ⟨⟨rfl, rfl⟩, rfl, .inr (by decide)⟩, rfl⟩

/-- The code kept, and cleared. -/
theorem witness_FirstErrorCodeIsKept :
    ((after (step (oneTurn haltedU (.write 0 32 0x12#32)))).map (·.err) = some 3#8)
      ∧ ((after (step (oneTurn (inFlight .clrerr haltedU) (.sequencer 0)))).map (·.err) = some 0#8) := by decide

theorem witness_NopCommand :
    InFlight .nop (one (inFlight .nop withT1)) (inFlight .nop withT1)
      ∧ Addressed (one haltedU) haltedU ∧ haltedU.busy = false ∧ haltedU.err ≠ 0#8 :=
  ⟨inFlight_one _ _ rfl, ⟨rfl, rfl⟩, rfl, by decide⟩

/-- All eight forms in flight with an operand of exactly KMAX = 1 byte, and its largest value. -/
theorem witness_LdrCommand :
    (∀ i ∈ [Instr.ldrN, .ldrE, .ldrD, .ldrP, .ldrQ, .ldrIqmp, .ldrA, .ldrX],
        InFlight i { one (inFlight i (withInput 0 [0xFF#8])) with params := twoWindows }
          (inFlight i (withInput 0 [0xFF#8])))
      ∧ kbytes (os2ip [0xFF#8]) = twoWindows.kmax ∧ os2ip [0xFF#8] ≠ 0 :=
  ⟨fun _ _ => ⟨⟨rfl, rfl⟩, rfl, rfl⟩, by decide, by decide⟩

theorem witness_LeadingZeros : kbytes 255 ≤ 1 ∧ kbytes 0 ≤ 0 ∧ kbytes 256 ≤ 2 := by decide

/-- The recovery commands in flight while halted; WIPEALL asked for while another command is in flight. -/
theorem witness_RecoveryCommands :
    (∀ i ∈ [Instr.wipek, .clrib, .clrob, .clrerr, .wipeall, .hmwipe], InFlight i (one (inFlight i haltedU)) (inFlight i haltedU))
      ∧ Addressed (one (inFlight .nop withT1)) (inFlight .nop withT1) ∧ (inFlight .nop withT1).busy = true
      ∧ (inFlight .nop withT1).cmdl ≠ 0x00000006#32 :=
  ⟨fun _ _ => inFlight_one _ _ rfl, ⟨rfl, rfl⟩, rfl, by decide⟩

/-- The last clause of `ClrerrCommand`: a command that clears ERR. -/
theorem witness_ClrerrCommand :
    haltedU.err ≠ 0#8 ∧ selected (one (inFlight .clrerr haltedU)) = some (inFlight .clrerr haltedU)
      ∧ (completion .clrerr haltedU).map (·.err) = some 0#8 := by decide

/-- PUBOP at the smallest modulus: N = 1, E = 0, A = 0. -/
theorem witness_PubopCommand :
    ∃ s u n e a, InFlight .pubop s u ∧ u.regs.n = some n ∧ u.regs.e = some e ∧ u.regs.a = some a :=
  ⟨_, _, 1, 0, 0,
    inFlight_one .pubop { withT1 with regs := { RegFile.absent with n := some 1, e := some 0, a := some 0 } } rfl, rfl, rfl,
    rfl⟩

/-- The smallest operands `CrtModpow` is defined on, and n = p * q with the first partial result below the second. -/
theorem witness_CrtModpowFormula :
    (1 ≤ 1 ∧ 2 ≤ 2 ∧ 2 < 3) ∧ 1 ≤ 77 ∧ 2 ≤ 7 ∧ 7 < 11 ∧ 77 = 11 * 7 ∧ 5 ^ (13 % 10) % 11 < 5 ^ (13 % 6) % 7 := by decide

/-- Both forms, at the smallest key range: N = 2, Q = 2, P = 3. -/
theorem witness_CrtpowCommand :
    ∃ u, u.regs.n = some 2 ∧ u.regs.p = some 3 ∧ u.regs.q = some 2 ∧ u.regs.iqmp = some 2 ∧ u.regs.a = some 5
      ∧ u.regs.e = some 0 ∧ u.regs.x = some 9 ∧ (2 ≤ 2 ∧ 2 < 3)
      ∧ InFlight .crtpowE (one (inFlight .crtpowE u)) (inFlight .crtpowE u)
      ∧ InFlight .crtpowX (one (inFlight .crtpowX u)) (inFlight .crtpowX u) :=
  ⟨{ withT1 with
      regs := { n := some 2, e := some 0, d := none, p := some 3, q := some 2, iqmp := some 2, a := some 5, x := some 9 } },
    rfl, rfl, rfl, rfl, rfl, rfl, rfl, by decide, inFlight_one _ _ rfl, inFlight_one _ _ rfl⟩

/-- Key T1: candidate 0 is 82, not below N; candidate 1 is 52, its inverse 40. -/
theorem witness_PrivopCommand :
    InFlight .privop (one (inFlight .privop withT1)) (inFlight .privop withT1)
      ∧ 52 = cand 77 13 2 1 ∧ (0 < 52 ∧ 52 < 77 ∧ Nat.Coprime 52 77)
      ∧ (∀ j < 1, ¬ (0 < cand 77 13 2 j ∧ cand 77 13 2 j < 77 ∧ Nat.Coprime (cand 77 13 2 j) 77))
      ∧ 40 < 77 ∧ 52 * 40 % 77 = 1 % 77 := by
  have h0 : cand 77 13 2 0 = 82 := test_candidates.1
  refine ⟨inFlight_one _ _ rfl, test_candidates.2.1.symm, by decide, ?_, by decide, by decide⟩
  intro j hj
  obtain rfl : j = 0 := by omega
  rw [h0]
  omega

/-- A modulus of 1 has no acceptable candidate, since none lies strictly between 0 and 1. (Such an instance is in no
run; of a modulus that passes the guards nobody can show that no candidate in the whole stream is acceptable.) -/
theorem witness_PrivopWithoutCandidate :
    let u := inFlight .privop { withT1 with regs := { keyT1 with n := some 1 } }
    InFlight .privop (one u) u ∧ (one u).insts[0]? = some u ∧ u.busy = true ∧ u.cmdl = 0x00000012#32
      ∧ u.regs.n = some 1 ∧ u.regs.d = some 13 ∧ u.regs.a = some 2
      ∧ (∀ t, ¬ (0 < cand 1 13 2 t ∧ cand 1 13 2 t < 1 ∧ Nat.Coprime (cand 1 13 2 t) 1))
      ∧ (∀ rest, (one u).turns ≠ .reset 0 true :: rest) ∧ ∃ t, step (one u) = .next t := by
  refine ⟨inFlight_one _ _ rfl, rfl, rfl, by decide, rfl, rfl, rfl, ?_, ?_, _, rfl⟩
  · intro t h
    omega
  · intro rest h
    exact nomatch h

/-- T1, base 2, exponent 13. -/
theorem witness_CrtLaw :
    Nat.Prime 11 ∧ Nat.Prime 7 ∧ 7 < 11 ∧ 8 * 7 % 11 = 1
      ∧ ∀ r, (r = 11 ∨ r = 7) → ¬ (r ∣ 2 ∧ 0 < 13 ∧ 13 % (r - 1) = 0) := by
  refine ⟨by norm_num, by norm_num, by decide, by decide, ?_⟩
  rintro r (rfl | rfl) <;> decide

theorem witness_PrivopLaw :
    InFlight .privop (one (inFlight .privop withT1)) (inFlight .privop withT1) ∧ KeyInvariants 77 7 13 11 7 8
      ∧ Nat.Prime 11 ∧ Nat.Prime 7 ∧ 3 ≤ 7
      ∧ ∃ t, 0 < cand 77 13 2 t ∧ cand 77 13 2 t < 77 ∧ Nat.Coprime (cand 77 13 2 t) 77 := by
  refine ⟨inFlight_one _ _ rfl, by unfold KeyInvariants; decide, by norm_num, by norm_num, by decide, 1, ?_⟩
  rw [test_candidates.2.1]
  decide

theorem witness_PubopUndoesPrivop :
    InFlight .pubop (one (inFlight .pubop { withT1 with regs := { keyT1 with a := some 30 } }))
        (inFlight .pubop { withT1 with regs := { keyT1 with a := some 30 } })
      ∧ 30 = 2 ^ 13 % 77 ∧ KeyInvariants 77 7 13 11 7 8 :=
  ⟨inFlight_one _ _ rfl, by decide, by unfold KeyInvariants; decide⟩

theorem witness_OnlyPrivopReadsD :
    Instr.pubop ≠ .privop ∧ selected (one (inFlight .pubop withT1)) = some (inFlight .pubop withT1)
      ∧ (inFlight .pubop withT1).regs.d = some 13 ∧ ∃ t, exec .pubop (one (inFlight .pubop withT1)) = .next t :=
  ⟨by decide, rfl, rfl, _, rfl⟩

/-- A key in order, and one whose primes the host has to exchange. -/
theorem witness_VerifiedKeys :
    hostVerifyKey 77 7 13 11 7 8 = some (11, 7, 8) ∧ hostVerifyKey 77 7 13 7 11 2 = some (11, 7, 8)
      ∧ hostVerifyKey 77 7 12 11 7 8 = none := by decide

/-- S below and at the number of bytes in IBUF, and the largest S an encoding holds. -/
theorem witness_MgfxCommand :
    65535 < 2 ^ 16 ∧ hashOfSel (cfgOfWord 1#32).hsel = some .sha1 ∧ 2 ≤ (withInput 1#32 [1#8, 2#8]).ibuf.length
      ∧ (∀ S ≤ 2, InFlight (.mgfx S) (one (inFlight (.mgfx S) (withInput 1#32 [1#8, 2#8])))
          (inFlight (.mgfx S) (withInput 1#32 [1#8, 2#8]))) :=
  ⟨by decide, by decide, by decide, fun _ _ => inFlight_one _ _ rfl⟩

/-- The tightest block: MD5, a message of one byte, k = 35; and i at both ends of a two-byte target. -/
theorem witness_OaepBlock :
    (zeros 16).length = digestLen .md5 ∧ [0x2A#8].length + 2 * digestLen .md5 + 2 ≤ 35 ∧ (2 : Nat) ^ 272 ≠ 0
      ∧ kbytes (2 ^ 272) = 35 ∧ (∀ i ∈ [0, 1], i < [1#8, 2#8].length) := by
  decide +kernel

theorem witness_OaepencCommand :
    let u := inFlight .oaepenc { withInput 0 [0x2A#8] with regs := { RegFile.absent with n := some (2 ^ 272), e := some 3 } }
    InFlight .oaepenc (one u) u ∧ hashOfSel u.cfg.hsel = some .md5 ∧ u.regs.n = some (2 ^ 272) ∧ u.regs.e = some 3
      ∧ 0 < u.ibuf.length ∧ u.ibuf.length + 2 * digestLen .md5 + 2 ≤ kbytes (2 ^ 272) :=
  ⟨inFlight_one _ _ rfl, by decide, rfl, rfl, by decide, by decide +kernel⟩

/-- The guard clauses of OAEPENC and HMKEY: a selector that names no hash, and one that does. -/
theorem witness_HashGuards :
    hashOfSel (cfgOfWord 4#32).hsel = none ∧ hashOfSel (cfgOfWord 3#32).hsel = some .sha512 := by decide

theorem witness_OnlyOaepencDraws : ∃ t, exec .nop (one withT1) = .next t := ⟨_, rfl⟩

/-- The block length itself, and one more byte. -/
theorem witness_EffectiveKey : (zeros 64).length ≤ blockLen .md5 ∧ blockLen .md5 < (zeros 65).length := by decide

/-- HMKEY with OUTLEN at its largest, the digest length. -/
theorem witness_HmkeyCommand :
    let u := inFlight .hmkey (withInput 0x1401#32 jefe)
    InFlight .hmkey (one u) u ∧ hashOfSel u.cfg.hsel = some .sha1 ∧ u.cfg.outlen.toNat = digestLen .sha1
      ∧ u.mac.state ≠ .live ∧ effectiveKey .sha1 u.cfg.bugkey u.ibuf = jefe
      ∧ (opadBlock .sha1 jefe).length = blockLen .sha1 ∧ (ipadBlock .sha1 jefe).length = blockLen .sha1
      ∧ (∀ i < blockLen .sha1, (opadBlock .sha1 jefe)[i]? = some (jefe.getD i 0x00#8 ^^^ 0x5C#8))
      ∧ (∀ i < blockLen .sha1, (ipadBlock .sha1 jefe)[i]? = some (jefe.getD i 0x00#8 ^^^ 0x36#8)) := by
  refine ⟨inFlight_one _ _ rfl, ?_⟩
  decide +kernel

theorem witness_HmstartAndHmupd :
    (InFlight .hmstart (one (inFlight .hmstart keyedJefe)) (inFlight .hmstart keyedJefe)
        ∧ keyedJefe.mac.state = .idle ∧ keyedJefe.mac.inner = some { alg := .sha1, absorbed := ipadBlock .sha1 jefe })
      ∧ InFlight .hmupd (one (inFlight .hmupd (liveJefe []))) (inFlight .hmupd (liveJefe []))
      ∧ (liveJefe []).mac.state = .live
      ∧ (liveJefe []).mac.live = some { alg := .sha1, absorbed := ipadBlock .sha1 jefe ++ [] } :=
  ⟨⟨inFlight_one _ _ rfl, rfl, rfl⟩, inFlight_one _ _ rfl, rfl, rfl⟩

/-- HM_OUTLEN is the digest length, its largest. -/
theorem witness_HmfinalCommand :
    InFlight .hmfinal (one (inFlight .hmfinal (liveJefe []))) (inFlight .hmfinal (liveJefe []))
      ∧ (liveJefe []).mac.state = .live
      ∧ (liveJefe []).mac.live = some { alg := .sha1, absorbed := ipadBlock .sha1 jefe ++ [] }
      ∧ (liveJefe []).mac.outer = some { alg := .sha1, absorbed := opadBlock .sha1 jefe }
      ∧ (liveJefe []).mac.hsel = .sha1 ∧ (liveJefe []).mac.outlen ≤ digestLen .sha1 :=
  ⟨inFlight_one _ _ rfl, rfl, rfl, rfl, rfl, by decide⟩

/-- A command in flight with its guards holding, in a legal instance that is not halted, is a legal state. -/
theorem inv_inFlight (i : Instr) (u : Instance) (turns : List Turn)
    (hu : RegsOk Params.suggested u.regs ∧ BuffersOk Params.suggested u ∧ MacOk u.mac ∧ Wiped u)
    (hf : u.err = 0#8 ∧ u.done = false ∧ u.inReset = false) (hd : decode (encode i) = .ok i)
    (hg : guardsOf i Params.suggested (inFlight i u) = none) : State.Inv { one (inFlight i u) with turns := turns } := by
  refine ⟨(by decide : Params.suggested.ok = true), rfl, fun v hv => ?_⟩
  obtain rfl := List.mem_singleton.1 hv
  refine ⟨hu.1, hu.2.1, hu.2.2.1, hu.2.2.2, ⟨?_, fun _ => ⟨hf.2.1, .inl ?_, ?_⟩⟩, fun h => ?_⟩
  · simp [inFlight, hf.1]
  · simp [halted, inFlight, hf.1]
  · show match decode (encode i) with
      | .ok j => guardsOf j Params.suggested (inFlight i u) = none
      | .illegal _ => False
    rw [hd]
    exact hg
  · exact absurd (hf.2.2.symm.trans h) (by decide)

/-- The states in which the MAC commands are in flight, and that of a bystander, are legal, and the context is what
the law supposes. -/
theorem witness_MacLaw :
    (one (inFlight .hmkey (withInput 1#32 jefe))).Inv ∧ (one (inFlight .hmstart keyedJefe)).Inv
      ∧ (one (inFlight .hmupd (liveJefe []))).Inv ∧ (one (inFlight .hmfinal (liveJefe []))).Inv
      ∧ (one (inFlight .pubop { liveJefe [] with regs := keyT1 })).Inv := by
  refine ⟨?_, ?_, ?_, ?_, ?_⟩ <;> exact inv_inFlight _ _ [] (by decide +kernel) ⟨rfl, rfl, rfl⟩ (by decide) (by decide)

theorem witness_MacLaw_contexts :
    Keyed .sha1 jefe keyedJefe ∧ Computing .sha1 jefe whatDoYaWant (liveJefe whatDoYaWant)
      ∧ effectiveKey .sha1 false jefe = jefe ∧ touchesMac .pubop = false
      ∧ (∀ i ∈ [Instr.hmstart, .hmupd, .hmfinal, .hmkey, .pubop],
          ∃ t, exec i (one (inFlight i (liveJefe []))) = .next t) :=
  ⟨⟨rfl, rfl, rfl, rfl, rfl⟩, ⟨rfl, rfl, rfl, rfl, rfl⟩, by decide, by decide, by
    intro i hi
    fin_cases hi <;> exact ⟨_, rfl⟩⟩

/-- Each completion and each refusal of R199's table, and a step of another command. -/
theorem witness_MacTransitions :
    (completion .hmkey (withInput 1#32 jefe)).map (fun v => (v.busy, v.mac.state)) = some (false, .idle)
      ∧ (completion .hmstart keyedJefe).map (fun v => (v.busy, v.mac.state)) = some (false, .live)
      ∧ (completion .hmupd (liveJefe [])).map (fun v => (v.busy, v.mac.state)) = some (false, .live)
      ∧ (completion .hmfinal (liveJefe [])).map (fun v => (v.busy, v.mac.state)) = some (false, .idle)
      ∧ (completion .hmwipe (liveJefe [])).map (fun v => (v.busy, v.mac.state)) = some (false, .unkeyed)
      ∧ (completion .clrib (liveJefe [])).map (fun v => (v.busy, v.mac.state)) = some (false, .live) := by
  decide +kernel

theorem witness_OtherCommands :
    touchesMac .pubop = false ∧ selected (one (liveJefe [])) = some (liveJefe [])
      ∧ (launched .pubop (liveJefe [])).map (fun v => (v.err, v.mac.live)) = some (3#8, (liveJefe []).mac.live) := by
  decide

/-- A legal state and a step from it, the instance BUSY before and not after. -/
theorem witness_StepKeepsTheMachineLegal :
    (oneTurn (inFlight .pubop withT1) (.sequencer 0)).Inv
      ∧ (after (step (oneTurn (inFlight .pubop withT1) (.sequencer 0)))).map (·.busy) = some false :=
  ⟨inv_inFlight _ _ _ (by decide) ⟨rfl, rfl, rfl⟩ (by decide) (by decide), by decide⟩

theorem witness_Scratch :
    (∀ u ∈ (one withT1).insts, u.busy = false → Wiped u) ∧ ∃ t, step (one withT1) = .next t :=
  ⟨by decide, _, rfl⟩

theorem witness_CommandsKeepEverythingElse :
    selected (one (inFlight .pubop withT1)) = some (inFlight .pubop withT1) ∧ Instr.pubop ≠ .wipeall
      ∧ Instr.pubop ≠ .clrerr ∧ (inFlight .pubop withT1).busy = true ∧ (inFlight .pubop withT1).cmdl = encode .pubop
      ∧ ∃ t, exec .pubop (one (inFlight .pubop withT1)) = .next t :=
  ⟨rfl, by decide, by decide, rfl, rfl, _, rfl⟩

theorem witness_InstancesShareNothing :
    ∃ t, step { State.resetWith twoWindows with turns := [.write 0x40 32 0#32] } = .next t ∧ t.sel = 1
      ∧ t.insts.length = 2 :=
  ⟨_, rfl, rfl, rfl⟩

/-- A legal state in which a command other than PRIVOP is in flight. -/
theorem witness_CommandsComplete :
    (oneTurn (inFlight .pubop withT1) (.sequencer 0)).Inv ∧ (inFlight .pubop withT1).busy = true
      ∧ (inFlight .pubop withT1).cmdl ≠ 0x00000012#32 :=
  ⟨inv_inFlight _ _ _ (by decide) ⟨rfl, rfl, rfl⟩ (by decide) (by decide), rfl, by decide⟩

/-- Two instances that differ in every secret and agree in what the statement compares. -/
theorem witness_ReadsShowNoSecret :
    let u := { withT1 with ibuf := [1#8] }
    let v := { withT1 with
      ibuf := [2#8]
      regs := { n := some 77, e := some 0, d := some 0, p := some 0, q := some 0, iqmp := some 0, a := some 0, x := some 0 } }
    u ≠ v ∧ u.regs.n = v.regs.n ∧ u.regs.d.isSome = v.regs.d.isSome ∧ u.ibuf.length = v.ibuf.length
      ∧ u.obuf = v.obuf ∧ u.mac.state = v.mac.state ∧ u.err = v.err ∧ u.cmdl = v.cmdl := by
  decide

end Sys2Proof.Tests
end

section
/-!
PROOFS. Scope (00_scope.md): byte strings and numbers (R7), the random source (R10).
-/

namespace Sys2Proof.Machine

/-! ## Byte strings and numbers (R7) -/

@[simp] theorem os2ip_zeros_append (m : Nat) (s : Bytes) : os2ip (zeros m ++ s) = os2ip s := by
  induction m with
  | zero => rfl
  | succ m ih =>
    calc os2ip (zeros (m + 1) ++ s) = os2ip (0#8 :: (zeros m ++ s)) := rfl
      _ = os2ip (zeros m ++ s) := by simp [os2ip_cons]
      _ = os2ip s := ih

/-- A number whose bytes fit in k is given back by the round trip through k bytes. -/
theorem os2ip_i2osp_of_kbytes_le {x k : Nat} (h : kbytes x ≤ k) : os2ip (i2osp x k) = x :=
  os2ip_i2osp_of_lt x k ((lt_pow_kbytes x).trans_le (Nat.pow_le_pow_right (by norm_num) h))

/-- The block's bit count is Mathlib's: both are the least n with x < 2^n. -/
theorem bitcount_eq_size (x : Nat) : bitcount x = Nat.size x := by
  have hle : Nat.size x ≤ bitcount x := Nat.size_le.2 (lt_two_pow_bitcount x)
  by_cases hx : x = 0
  · subst hx; rfl
  · have hlt : bitcount x - 1 < Nat.size x := Nat.lt_size.2 (two_pow_bitcount_le x hx)
    omega

/-! ## The random source (R10) -/

/-- OAEPENC draws one digest length of the hash that CFG selects (R174). -/
theorem effectOaepenc_draws {d d' : Nat} {u u' : Instance} (h : effectOaepenc d u = some (u', d')) :
    ∃ a, cfgHash u = some a ∧ d' = d + digestLen a := by
  unfold effectOaepenc at h
  split at h
  next a _ _ ha _ _ =>
    cases h
    exact ⟨a, ha, rfl⟩
  next => cases h

/-- A command's step draws nothing and leaves a BUSY instance BUSY, or it is the command's completion (R40, R110). -/
theorem exec_drawless_or_completes {i : Instr} {s t : State} {u v : Instance} (hs : selected s = some u)
    (he : exec i s = .next t) (hv : selected t = some v) :
    (t.draws = s.draws ∧ (u.busy = true → v.busy = true))
      ∨ ∃ u', v = finish u' ∧ u.busy = true ∧ effectOf i s.draws u = some (u', t.draws) := by
  rcases exec_cases i s with ⟨hnone, -⟩ | ⟨u₀, hu, hcase⟩
  · rw [hnone] at hs; cases hs
  obtain rfl : u₀ = u := Option.some.inj (hu.symm.trans hs)
  have stands (ht : t = s) : t.draws = s.draws ∧ (u₀.busy = true → v.busy = true) := by
    subst ht
    obtain rfl : u₀ = v := Option.some.inj (hs.symm.trans hv)
    exact ⟨rfl, id⟩
  rcases hcase with ⟨-, hnext⟩ | ⟨-, hb, -, hnext⟩ | ⟨-, hb, -, hnext⟩ | ⟨-, hb, hnext⟩ <;>
    obtain rfl := Host.Outcome.next.inj (he.symm.trans hnext)
  · exact .inl (stands rfl)
  · rcases complete_cases (guardsOf i s.params u₀) (effectOf i) s u₀ with hsame | ⟨u', d, -, heff, hdone⟩
    · exact .inl (stands hsame)
    · rw [hdone] at hv ⊢
      obtain rfl : finish u' = v := Option.some.inj ((selected_setSelected s u₀ (finish u') hs).symm.trans hv)
      exact .inr ⟨u', rfl, hb, heff⟩
  · obtain rfl : setOvr u₀ = v := Option.some.inj ((selected_setSelected s u₀ _ hs).symm.trans hv)
    exact .inl ⟨rfl, id⟩
  · exact .inl ⟨rfl, fun hbusy => absurd hbusy (by simp [hb])⟩

/-- An instance with OAEPENC in flight at the tightest block: MD5, a message of one byte, a modulus of 35 bytes. -/
def oaepencInFlight : Instance :=
  { Instance.reset with
    regs := { RegFile.absent with n := some (2 ^ 272), e := some 3 }
    ibuf := [0x2A#8]
    busy := true
    cmdl := encode .oaepenc }

/-- A step in which OAEPENC completes, so the clause of O46 about its draws is not empty. -/
theorem exists_oaepenc_completion :
    ∃ s t v, selected s = some oaepencInFlight ∧ exec .oaepenc s = .next t ∧ selected t = some v
      ∧ oaepencInFlight.busy = true ∧ v.busy = false :=
  ⟨{ State.reset with insts := [oaepencInFlight] }, _, _, rfl,
    exec_completes ⟨⟨rfl, rfl⟩, rfl, rfl⟩ (by decide +kernel) rfl, rfl, rfl, rfl⟩

end Sys2Proof.Machine

open Sys2Proof Sys2Proof.Machine

/-- Settles O25: the leading zeros by induction on their number; a number fits its own byte length; the bit count is
`Nat.size`. -/
theorem leadingZerosAreFree : Obligations.LeadingZerosAreFree :=
  ⟨fun s m => os2ip_zeros_append m s, fun x k => ⟨i2osp_length x k, os2ip_i2osp_of_kbytes_le⟩,
    fun x => by rw [kbytes, bitcount_eq_size]⟩

/-- Settles O46: a step that is no completion draws nothing and ends no command; of the completions only OAEPENC's
draws, and it draws H bytes. -/
theorem onlyOaepencDraws : Obligations.OnlyOaepencDraws := by
  unfold Obligations.OnlyOaepencDraws
  intro i s t u v hs he hv
  rcases exec_drawless_or_completes hs he hv with ⟨hdraws, hbusy⟩ | ⟨u', rfl, hb, heff⟩
  · refine ⟨fun ⟨_, hb, hidle⟩ => ?_, fun _ => hdraws⟩
    exact absurd (hbusy hb) (by simp [hidle])
  · refine ⟨fun ⟨hi, _, _⟩ => ?_, fun hnot => ?_⟩
    · subst hi
      exact effectOaepenc_draws heff
    · exact (effectOf_draws heff).resolve_right fun hi => hnot ⟨hi, hb, finish_busy u'⟩

end

section
/-!
PROOFS. State (10_state.md): the registers, the flags, the launch and completion of commands, and what every step
keeps.
-/

namespace Sys2Proof.Machine

/-! ## Command words (30_encoding.md R90 to R93) -/

/-- A word whose reserved field is 0 is its other three fields (R90). -/
theorem assemble_fields {w : Word} (h : fieldRsv w = 0) : assemble (fieldOpc w) (fieldSel w) (fieldImm16 w) = w := by
  apply BitVec.eq_of_toNat_eq
  have hlt := w.isLt
  simp only [assemble, fieldOpc, fieldSel, fieldImm16, fieldRsv, BitVec.toNat_ofNat] at *
  omega

theorem encode_of_decodeLdr {sel : Nat} {i : Instr} (h : decodeLdr sel = some i) : encode i = assemble 0x01 sel 0 := by
  unfold decodeLdr at h
  split at h <;> cases h <;> rfl

theorem encode_of_decodeCrtpow {sel : Nat} {i : Instr} (h : decodeCrtpow sel = some i) :
    encode i = assemble 0x11 sel 0 := by
  unfold decodeCrtpow at h
  split at h <;> cases h <;> rfl

theorem encode_of_decodePlain {opc : Nat} {i : Instr} (h : decodePlain opc = some i) : encode i = assemble opc 0 0 := by
  unfold decodePlain at h
  split at h <;> cases h <;> rfl

@[simp] theorem decodeForm_eq_ok_iff {o : Option Instr} {i : Instr} : decodeForm o = .ok i ↔ o = some i := by
  cases o <;> simp [decodeForm]

/-- The word of the command a word decodes to is that word: the decoder drops no bit (R92). -/
theorem encode_of_decode {w : Word} {i : Instr} (h : decode w = .ok i) : encode i = w := by
  simp only [decode] at h
  split at h
  next => cases h
  next hrsv =>
    rw [← assemble_fields (not_not.1 hrsv)]
    split at h
    next hopc =>
      split at h
      next => cases h
      next hsel =>
        cases h
        rw [hopc, not_not.1 hsel]
        rfl
    next =>
      split at h
      next => cases h
      next himm =>
        rw [not_not.1 himm]
        split at h
        next hopc => rw [hopc, encode_of_decodeLdr (decodeForm_eq_ok_iff.1 h)]
        next =>
          split at h
          next hopc => rw [hopc, encode_of_decodeCrtpow (decodeForm_eq_ok_iff.1 h)]
          next =>
            split at h
            next => cases h
            next j hj =>
              split at h
              next => cases h
              next hsel =>
                cases h
                rw [encode_of_decodePlain hj, not_not.1 hsel]

/-- The word of MGFX holds the low 16 bits of the seed length (R91). -/
theorem decode_encode_mgfx (seedLen : Nat) : decode (encode (.mgfx seedLen)) = .ok (.mgfx (seedLen % 2 ^ 16)) := by
  have hw : (encode (.mgfx seedLen)).toNat = 0x20 + seedLen % 0x10000 * 0x10000 := by
    simp only [encode, assemble, BitVec.toNat_ofNat]
    omega
  have hrsv : fieldRsv (encode (.mgfx seedLen)) = 0 := by rw [fieldRsv, hw]; omega
  have hopc : fieldOpc (encode (.mgfx seedLen)) = 0x20 := by rw [fieldOpc, hw]; omega
  have hsel : fieldSel (encode (.mgfx seedLen)) = 0 := by rw [fieldSel, hw]; omega
  have himm : fieldImm16 (encode (.mgfx seedLen)) = seedLen % 2 ^ 16 := by rw [fieldImm16, hw]; omega
  simp [decode, hrsv, hopc, hsel, himm]

/-- The word of a well-formed command decodes to it (R92). -/
theorem decode_encode {i : Instr} (h : i.wf = true) : decode (encode i) = .ok i := by
  cases i
  case mgfx seedLen => rw [decode_encode_mgfx, Nat.mod_eq_of_lt (of_decide_eq_true h)]
  all_goals decide

/-! ## Guards (60_exceptions.md R222, R223) -/

@[simp] theorem require_eq_none_iff {holds : Bool} {c : ErrCode} : require holds c = none ↔ holds = true := by
  cases holds <;> simp [require]

@[simp] theorem firstFailing_nil : firstFailing [] = none := rfl

@[simp] theorem firstFailing_cons_eq_none_iff {g : Option ErrCode} {rest : List (Option ErrCode)} :
    firstFailing (g :: rest) = none ↔ g = none ∧ firstFailing rest = none := by
  cases g <;> simp [firstFailing]

theorem requireHash_eq_none_iff {u : Instance} : requireHash u = none ↔ ∃ a, cfgHash u = some a := by
  simp [requireHash, Option.isSome_iff_exists]

/-- The registers a command reads are all present. -/
theorem requireRegs_eq_none_iff {u : Instance} {rs : List BigReg} :
    requireRegs u rs = none ↔ ∀ r ∈ rs, ∃ x, readReg u.regs r = some x := by
  simp [requireRegs, Option.isSome_iff_exists]

theorem guardLdr_eq_none_iff {r : BigReg} {p : Params} {u : Instance} :
    guardLdr r p u = none ↔ kbytes (ibufNumber u) ≤ p.kmax ∧ (r = .n → ibufNumber u ≠ 0) := by
  simp [guardLdr, imp_iff_not_or]

theorem guardHmkey_eq_none_iff {p : Params} {u : Instance} :
    guardHmkey p u = none
      ↔ ∃ a, cfgHash u = some a ∧ u.cfg.outlen.toNat ≤ digestLen a ∧ u.mac.state ≠ .live := by
  cases h : cfgHash u <;> simp [guardHmkey, requireHash, requireOutlen, h]

theorem guardHmstart_eq_none_iff {p : Params} {u : Instance} : guardHmstart p u = none ↔ u.mac.state = .idle := by
  simp [guardHmstart]

theorem guardLive_eq_none_iff {p : Params} {u : Instance} : guardLive p u = none ↔ u.mac.state = .live := by
  simp [guardLive]

/-- The guards look at the registers, IBUF, CFG and HM_STATE only. -/
theorem guardsOf_congr {u v : Instance} (hregs : v.regs = u.regs) (hibuf : v.ibuf = u.ibuf) (hcfg : v.cfg = u.cfg)
    (hmac : v.mac.state = u.mac.state) (i : Instr) (p : Params) : guardsOf i p v = guardsOf i p u :=
  calc guardsOf i p v
      = guardsOf i p
          { v with regs := u.regs, ibuf := u.ibuf, cfg := u.cfg, mac := { v.mac with state := u.mac.state } } := by
        rw [← hregs, ← hibuf, ← hcfg, ← hmac]
    _ = guardsOf i p u := by cases i <;> rfl

/-- The word of a command decodes to a command whose guards hold when the command's do: the same command, or MGFX with
its seed length cut to 16 bits. -/
theorem exists_decode_encode (i : Instr) :
    ∃ j, decode (encode i) = .ok j ∧ ∀ p u, guardsOf i p u = none → guardsOf j p u = none := by
  by_cases h : i.wf = true
  · exact ⟨i, decode_encode h, fun _ _ => id⟩
  · cases i
    case mgfx seedLen =>
      refine ⟨_, decode_encode_mgfx seedLen, fun p u hg => ?_⟩
      have hmod := Nat.mod_le seedLen (2 ^ 16)
      simp only [guardsOf, guardMgfx, firstFailing_cons_eq_none_iff, require_eq_none_iff, decide_eq_true_eq] at hg ⊢
      exact ⟨hg.1, hmod.trans hg.2.1, hg.2.2⟩
    all_goals exact absurd rfl h

/-! ## When an effect exists, and what it does to the MAC context (43_hmac.md R194 to R198) -/

@[simp] theorem noDraw_eq_some_iff {f : Instance → Option Instance} {d d' : Nat} {u u' : Instance} :
    noDraw f d u = some (u', d') ↔ f u = some u' ∧ d = d' := by
  simp [noDraw]

theorem effectCrtpow_exists {r : BigReg} {p : Params} {u : Instance} (hg : guardCrtpow r p u = none) :
    ∃ u', effectCrtpow r u = some u' := by
  simp only [guardCrtpow, firstFailing_cons_eq_none_iff, requireRegs_eq_none_iff, List.forall_mem_cons] at hg
  obtain ⟨⟨⟨n, hn⟩, ⟨p, hp⟩, ⟨q, hq⟩, ⟨v, hv⟩, ⟨a, ha⟩, ⟨x, hx⟩, -⟩, -⟩ := hg
  simp only [readReg] at hn hp hq hv ha
  exact ⟨_, by simp only [effectCrtpow, hn, hp, hq, hv, ha, hx]; rfl⟩

/-- Outside PRIVOP (R141), the guards leave no reason why a command in a legal MAC context should have no result. -/
theorem effectOf_exists {i : Instr} {p : Params} {u : Instance} (hi : i ≠ .privop) (hm : MacOk u.mac)
    (hg : guardsOf i p u = none) (d : Nat) : ∃ u' d', effectOf i d u = some (u', d') := by
  obtain ⟨houter, hinner, hlive, -⟩ := hm
  cases i
  case privop => exact absurd rfl hi
  case pubop =>
    simp only [guardsOf, guardPubop, firstFailing_cons_eq_none_iff, requireRegs_eq_none_iff, List.forall_mem_cons,
      readReg] at hg
    obtain ⟨⟨⟨n, hn⟩, ⟨e, he⟩, ⟨a, ha⟩, -⟩, -⟩ := hg
    exact ⟨_, _, by simp only [effectOf, noDraw, effectPubop, hn, he, ha]; rfl⟩
  case crtpowE | crtpowX =>
    obtain ⟨u', hu'⟩ := effectCrtpow_exists (p := p) hg
    exact ⟨u', d, noDraw_eq_some_iff.2 ⟨hu', rfl⟩⟩
  case mgfx seedLen =>
    obtain ⟨a, ha⟩ := requireHash_eq_none_iff.1 (firstFailing_cons_eq_none_iff.1 hg).1
    exact ⟨_, _, by simp only [effectOf, noDraw, effectMgfx, ha]; rfl⟩
  case oaepenc =>
    simp only [guardsOf, guardOaepenc, firstFailing_cons_eq_none_iff, requireHash_eq_none_iff,
      requireRegs_eq_none_iff, List.forall_mem_cons, readReg] at hg
    obtain ⟨⟨a, ha⟩, ⟨⟨n, hn⟩, ⟨e, he⟩, -⟩, -⟩ := hg
    exact ⟨_, _, by simp only [effectOf, effectOaepenc, ha, hn, he]; rfl⟩
  case hmkey =>
    obtain ⟨a, ha, -⟩ := (guardHmkey_eq_none_iff (p := p)).1 hg
    exact ⟨_, _, by simp only [effectOf, noDraw, effectHmkey, ha]; rfl⟩
  case hmstart =>
    have hidle : u.mac.state = .idle := (guardHmstart_eq_none_iff (p := p)).1 hg
    obtain ⟨st, hst⟩ := Option.ne_none_iff_exists'.1 (mt hinner.2 (by simp [hidle]))
    exact ⟨_, _, by simp only [effectOf, noDraw, effectHmstart, hst]; rfl⟩
  case hmupd =>
    obtain ⟨st, hst⟩ := Option.ne_none_iff_exists'.1 (hlive.1 ((guardLive_eq_none_iff (p := p)).1 hg))
    exact ⟨_, _, by simp only [effectOf, noDraw, effectHmupd, hst]; rfl⟩
  case hmfinal =>
    have hst : u.mac.state = .live := (guardLive_eq_none_iff (p := p)).1 hg
    obtain ⟨live, hl⟩ := Option.ne_none_iff_exists'.1 (hlive.1 hst)
    obtain ⟨outer, ho⟩ := Option.ne_none_iff_exists'.1 (mt houter.2 (by simp [hst]))
    exact ⟨_, _, by simp only [effectOf, noDraw, effectHmfinal, hl, ho]; rfl⟩
  all_goals exact ⟨_, _, rfl⟩

/-- The output length HMKEY latches lies between 1 and H (R194). -/
theorem latchedOutlen_bounds {a : HashAlg} {outlen : BitVec 6} (h : outlen.toNat ≤ digestLen a) :
    1 ≤ latchedOutlen a outlen ∧ latchedOutlen a outlen ≤ digestLen a := by
  unfold latchedOutlen
  split
  next => exact ⟨digestLen_pos a, le_rfl⟩
  next hne =>
    have hpos : outlen.toNat ≠ 0 := fun h0 => hne (BitVec.eq_of_toNat_eq h0)
    exact ⟨Nat.one_le_iff_ne_zero.2 hpos, h⟩

theorem macOk_unkeyed : MacOk MacCtx.unkeyed := by decide

theorem effectHmkey_macOk {p : Params} {u u' : Instance} (hm : MacOk u.mac) (hg : guardHmkey p u = none)
    (he : effectHmkey u = some u') : MacOk u'.mac := by
  obtain ⟨-, -, hlive, -⟩ := hm
  obtain ⟨a, ha, hout, hstate⟩ := (guardHmkey_eq_none_iff (p := p)).1 hg
  have hnone : u.mac.live = none := by_contra fun h => hstate (hlive.2 h)
  simp only [effectHmkey, ha] at he
  cases he
  simpa [MacOk, hnone] using latchedOutlen_bounds hout

theorem effectHmstart_macOk {p : Params} {u u' : Instance} (hm : MacOk u.mac) (hg : guardHmstart p u = none)
    (he : effectHmstart u = some u') : MacOk u'.mac := by
  have hidle := (guardHmstart_eq_none_iff (p := p)).1 hg
  obtain ⟨houter, hinner, hlive, halgO, halgI, -, -, hlen⟩ := hm
  unfold effectHmstart at he
  split at he
  next => cases he
  next st hst =>
    cases he
    simp_all [MacOk]

theorem effectHmupd_macOk {p : Params} {u u' : Instance} (hm : MacOk u.mac) (hg : guardLive p u = none)
    (he : effectHmupd u = some u') : MacOk u'.mac := by
  have hstate := (guardLive_eq_none_iff (p := p)).1 hg
  obtain ⟨houter, hinner, hlive, halgO, halgI, halgL, -, hlen⟩ := hm
  unfold effectHmupd at he
  split at he
  next => cases he
  next st hst =>
    cases he
    simp_all [MacOk]

theorem effectHmfinal_macOk {p : Params} {u u' : Instance} (hm : MacOk u.mac) (hg : guardLive p u = none)
    (he : effectHmfinal u = some u') : MacOk u'.mac := by
  have hstate := (guardLive_eq_none_iff (p := p)).1 hg
  obtain ⟨houter, hinner, hlive, halgO, halgI, halgL, -, hlen⟩ := hm
  unfold effectHmfinal at he
  split at he
  next =>
    cases he
    simp_all [MacOk]
  next => cases he

/-- Every effect whose guards hold leaves a legal MAC context (R34, R35). -/
theorem effect_macOk {i : Instr} {p : Params} {d d' : Nat} {u u' : Instance} (hm : MacOk u.mac)
    (hg : guardsOf i p u = none) (he : effectOf i d u = some (u', d')) : MacOk u'.mac := by
  by_cases htouch : touchesMac i = true
  · cases i
    case hmkey => exact effectHmkey_macOk (p := p) hm hg (noDraw_eq_some_iff.1 he).1
    case hmstart => exact effectHmstart_macOk (p := p) hm hg (noDraw_eq_some_iff.1 he).1
    case hmupd => exact effectHmupd_macOk (p := p) hm hg (noDraw_eq_some_iff.1 he).1
    case hmfinal => exact effectHmfinal_macOk (p := p) hm hg (noDraw_eq_some_iff.1 he).1
    case hmwipe => cases he; exact macOk_unkeyed
    case wipeall => cases he; exact macOk_unkeyed
    all_goals exact absurd htouch (by simp [touchesMac])
  · obtain ⟨-, -, -, -, -, -, hmac⟩ := effect_frame he
    rw [hmac (by simpa using htouch)]
    exact hm

/-! ## Legal states -/

/-- R21: `RegsOk` register by register. -/
theorem regsOk_iff {p : Params} {f : RegFile} :
    RegsOk p f ↔ (∀ r, RegOk p (readReg f r)) ∧ ∀ x ∈ readReg f .n, x ≠ 0 := by
  constructor
  · rintro ⟨hn, hn0, he, hd, hp, hq, hv, ha, hx⟩
    exact ⟨fun r => by cases r <;> assumption, hn0⟩
  · rintro ⟨h, hn0⟩
    exact ⟨h .n, hn0, h .e, h .d, h .p, h .q, h .iqmp, h .a, h .x⟩

theorem regsOk_absent (p : Params) : RegsOk p RegFile.absent := by simp [regsOk_iff, RegOk]

theorem regsOk_writeReg {p : Params} {f : RegFile} {r : BigReg} {v : Nat} (hf : RegsOk p f)
    (hk : kbytes v ≤ p.kmax) (hn : r = .n → v ≠ 0) : RegsOk p (writeReg f r v) := by
  rw [regsOk_iff] at *
  obtain ⟨hall, hmod⟩ := hf
  refine ⟨fun r' => ?_, ?_⟩
  · by_cases h : r' = r
    · subst h; simpa [RegOk] using hk
    · rw [readReg_writeReg_other f r r' v h]; exact hall r'
  · by_cases h : BigReg.n = r
    · subst h; simpa using hn rfl
    · rw [readReg_writeReg_other f r .n v h]; exact hmod

/-- R5: OBUF holds whatever IBUF, a register or a digest holds. -/
theorem params_ok_obmax {p : Params} (h : p.ok = true) : p.ibmax ≤ p.obmax ∧ p.kmax ≤ p.obmax ∧ 64 ≤ p.obmax := by
  simp only [Params.ok, Bool.and_eq_true, decide_eq_true_eq] at h
  omega

/-- The command in flight in a BUSY instance (R36). -/
theorem exists_command_of_busy {p : Params} {u : Instance} (h : SequencerOk p u) (hb : u.busy = true) :
    ∃ i, decode u.cmdl = .ok i ∧ guardsOf i p u = none := by
  obtain ⟨-, -, -, hcmd⟩ := h.imp_right fun h => h hb
  split at hcmd
  next i hi => exact ⟨i, hi, hcmd⟩
  next => exact hcmd.elim

theorem sequencerOk_of_command {p : Params} {u : Instance} {i : Instr} (herr : u.err.toNat ≤ 8)
    (hd : u.done = false) (hr : halted u = false ∨ u.cmdl ∈ recoveryWords)
    (hi : decode u.cmdl = .ok i) (hg : guardsOf i p u = none) : SequencerOk p u :=
  ⟨herr, fun _ => ⟨hd, hr, by rw [hi]; exact hg⟩⟩

/-- A BUSY instance is not held in reset (R250). -/
theorem not_inReset_of_busy {u : Instance} (h : ResetOk u) (hb : u.busy = true) : u.inReset = false := by
  cases hr : u.inReset with
  | false => rfl
  | true => rw [h hr] at hb; cases hb

/-- An instance at rest is legal when its data is: nothing is in flight and no reset is asserted. -/
theorem instanceOk_of_idle {p : Params} {u : Instance} (hb : u.busy = false) (hr : u.inReset = false)
    (hregs : RegsOk p u.regs) (hbuf : BuffersOk p u) (hmac : MacOk u.mac) (hw : Wiped u) (herr : u.err.toNat ≤ 8) :
    InstanceOk p u :=
  ⟨hregs, hbuf, hmac, hw, ⟨herr, fun h => absurd h (by simp [hb])⟩, fun h => absurd h (by simp [hr])⟩

theorem instanceOk_resetAsserted (p : Params) : InstanceOk p { Instance.reset with inReset := true } :=
  ⟨regsOk_absent p, ⟨Nat.zero_le _, Nat.zero_le _⟩, macOk_unkeyed, ⟨rfl, rfl⟩, ⟨by decide, nofun⟩, fun _ => rfl⟩

theorem errByte_le (c : ErrCode) : (errByte c).toNat ≤ 8 := by cases c <;> decide

/-! ## Each move keeps an instance legal -/

theorem popOut_cases (u : Instance) :
    popOut u = u ∨ (u.busy = false ∧ popOut u = { u with obuf := u.obuf.tail }) := by
  unfold popOut
  split
  next => exact .inl rfl
  next hb =>
    split
    next => exact .inl rfl
    next hobuf => exact .inr ⟨by simpa using hb, by rw [hobuf]; rfl⟩

theorem instanceOk_popOut {p : Params} {u : Instance} (hu : InstanceOk p u) : InstanceOk p (popOut u) := by
  obtain ⟨hregs, ⟨hin, hout⟩, hmac, hw, ⟨herr, -⟩, hreset⟩ := id hu
  rcases popOut_cases u with h | ⟨hb, h⟩
  · rw [h]; exact hu
  cases hr : u.inReset with
  | false =>
    rw [h]
    exact instanceOk_of_idle hb hr hregs ⟨hin, (u.obuf.length_tail ▸ Nat.sub_le _ _).trans hout⟩ hmac hw herr
  | true =>
    rw [hreset hr]
    exact instanceOk_resetAsserted p

/-- OVR and the level of the reset input are no concern of the sequencer. -/
theorem sequencerOk_setFlags {p : Params} {u : Instance} (h : SequencerOk p u) (ovr inReset : Bool) :
    SequencerOk p { u with ovr := ovr, inReset := inReset } := by
  have hguards (i : Instr) : guardsOf i p { u with ovr := ovr, inReset := inReset } = guardsOf i p u :=
    guardsOf_congr rfl rfl rfl rfl i p
  simpa only [SequencerOk, halted, hguards] using h

theorem instanceOk_setOvr {p : Params} {u : Instance} (hu : InstanceOk p u) (hr : u.inReset = false) :
    InstanceOk p (setOvr u) := by
  obtain ⟨hregs, hbuf, hmac, hw, hseq, -⟩ := hu
  exact ⟨hregs, hbuf, hmac, hw, sequencerOk_setFlags hseq true u.inReset, fun h => absurd (hr.symm.trans h) (by decide)⟩

@[simp] theorem setReset_true (u : Instance) : setReset true u = { Instance.reset with inReset := true } := rfl

@[simp] theorem setReset_false (u : Instance) : setReset false u = { u with inReset := false } := rfl

theorem instanceOk_setReset {p : Params} {u : Instance} (hu : InstanceOk p u) (asserted : Bool) :
    InstanceOk p (setReset asserted u) := by
  obtain ⟨hregs, hbuf, hmac, hw, hseq, -⟩ := hu
  cases asserted with
  | true => rw [setReset_true]; exact instanceOk_resetAsserted p
  | false => rw [setReset_false]; exact ⟨hregs, hbuf, hmac, hw, sequencerOk_setFlags hseq u.ovr false, nofun⟩

theorem instanceOk_pushIn {p : Params} {u : Instance} (hu : InstanceOk p u) (hr : u.inReset = false)
    (hb : u.busy = false) (v : Word) : InstanceOk p (pushIn p v u) := by
  unfold pushIn
  split
  next hlt =>
    obtain ⟨hregs, ⟨-, hout⟩, hmac, hw, ⟨herr, -⟩, -⟩ := hu
    exact instanceOk_of_idle hb hr hregs ⟨by simpa using hlt, hout⟩ hmac hw herr
  next => exact instanceOk_setOvr hu hr

theorem instanceOk_raiseErr {p : Params} {u : Instance} (hu : InstanceOk p u) (hr : u.inReset = false) (w : Word)
    (c : ErrCode) : InstanceOk p (raiseErr w c u) := by
  obtain ⟨hregs, -, hmac, -⟩ := hu
  exact instanceOk_of_idle rfl hr hregs ⟨Nat.zero_le _, Nat.zero_le _⟩ hmac ⟨rfl, rfl⟩ (errByte_le c)

/-- The launch of a command, whether ignored, refused or accepted. -/
theorem instanceOk_launch {p : Params} {u : Instance} (hu : InstanceOk p u) (hr : u.inReset = false) (i : Instr) :
    InstanceOk p (launch (encode i) (guardsOf i p u) u) := by
  rcases launch_cases (encode i) (guardsOf i p u) u with ⟨-, -, h⟩ | ⟨-, c, -, h⟩ | ⟨hgate, hg, h⟩ <;> rw [h]
  · exact hu
  · exact instanceOk_raiseErr hu hr _ c
  · obtain ⟨hregs, hbuf, hmac, hw, ⟨herr, -⟩, -⟩ := hu
    obtain ⟨j, hj, hguards⟩ := exists_decode_encode i
    have hgj : guardsOf j p { u with cmdl := encode i, done := false, busy := true } = none :=
      (guardsOf_congr rfl rfl rfl rfl j p).trans (hguards p u hg)
    exact ⟨hregs, hbuf, hmac, hw, sequencerOk_of_command herr rfl hgate hj hgj,
      fun h => absurd (hr.symm.trans h) (by decide)⟩

/-- The launch of an illegal word, whether ignored or refused. -/
theorem instanceOk_launch_illegal {p : Params} {u : Instance} (hu : InstanceOk p u) (hr : u.inReset = false)
    (w : Word) : InstanceOk p (launch w (some .illegal) u) := by
  rcases launch_cases w (some .illegal) u with ⟨-, -, h⟩ | ⟨-, c, -, h⟩ | ⟨-, hg, -⟩
  · rw [h]; exact hu
  · rw [h]; exact instanceOk_raiseErr hu hr w c
  · cases hg

theorem effect_regsOk {i : Instr} {p : Params} {d d' : Nat} {u u' : Instance} (hu : RegsOk p u.regs)
    (hg : guardsOf i p u = none) (he : effectOf i d u = some (u', d')) : RegsOk p u'.regs := by
  rcases effect_regs he with h | h | ⟨r, h, hguard⟩ <;> rw [h]
  · exact hu
  · exact regsOk_absent p
  · obtain ⟨hk, hn⟩ := guardLdr_eq_none_iff.1 ((hguard p).symm.trans hg)
    exact regsOk_writeReg hu hk hn

theorem effect_buffersOk {i : Instr} {p : Params} {d d' : Nat} {u u' : Instance} (hp : p.ok = true)
    (hu : InstanceOk p u) (he : effectOf i d u = some (u', d')) : BuffersOk p u' := by
  obtain ⟨⟨hn, -⟩, ⟨hin, hout⟩, hmac, -⟩ := hu
  obtain ⟨hib, hk, h64⟩ := params_ok_obmax hp
  refine ⟨?_, ?_⟩
  · rcases effect_ibuf he with h | h <;> rw [h]
    · exact hin
    · exact Nat.zero_le _
  · have houtlen : u.mac.outlen ≤ 64 := by
      obtain ⟨-, -, -, -, -, -, hunkeyed, hkeyed⟩ := hmac
      by_cases hs : u.mac.state = .unkeyed
      · exact (hunkeyed hs).trans_le (Nat.zero_le _)
      · exact (hkeyed hs).2.trans (digestLen_le_64 _)
    rcases effect_obuf he with h | h | ⟨n, hreg, h⟩ | h | h
    · rw [h]; exact hout
    · rw [h]; exact Nat.zero_le _
    · rw [h]; exact (hn n hreg).trans hk
    · exact h.trans (hin.trans hib)
    · exact h.trans (houtlen.trans h64)

theorem effect_err_le {i : Instr} {d d' : Nat} {u u' : Instance} (hu : u.err.toNat ≤ 8)
    (he : effectOf i d u = some (u', d')) : u'.err.toNat ≤ 8 := by
  obtain ⟨-, -, -, -, hkeep, hclear, -⟩ := effect_frame he
  by_cases hi : i = .wipeall ∨ i = .clrerr
  · rw [(hclear hi).1]; exact Nat.zero_le _
  · rw [not_or] at hi
    rw [(hkeep hi.1 hi.2).1]; exact hu

theorem instanceOk_finish {i : Instr} {p : Params} {d d' : Nat} {u u' : Instance} (hp : p.ok = true)
    (hu : InstanceOk p u) (hr : u.inReset = false) (hg : guardsOf i p u = none)
    (he : effectOf i d u = some (u', d')) : InstanceOk p (finish u') := by
  have hbuf := effect_buffersOk hp hu he
  obtain ⟨hregs, -, hmac, -, ⟨herr, -⟩, -⟩ := hu
  obtain ⟨-, hreset, -⟩ := effect_frame he
  have hregs' : RegsOk p u'.regs := effect_regsOk hregs hg he
  have hmac' : MacOk u'.mac := effect_macOk hmac hg he
  have herr' : u'.err.toNat ≤ 8 := effect_err_le herr he
  exact instanceOk_of_idle rfl (hreset.trans hr) hregs' hbuf hmac' ⟨rfl, rfl⟩ herr'

/-- Whatever a step does to an instance keeps it legal. -/
theorem moved_instanceOk {p : Params} {x : Option Turn} {k d d' : Nat} {u v : Instance} (hp : p.ok = true)
    (hu : InstanceOk p u) (hm : Moved p x k d u v d') : InstanceOk p v := by
  obtain ⟨hregs, hbuf, hmac, hw, ⟨herr, -⟩, hreset⟩ := id hu
  cases hm with
  | same => exact hu
  | pop => exact instanceOk_popOut hu
  | ovr hb => exact instanceOk_setOvr hu (not_inReset_of_busy hreset hb)
  | cfg w hr hb => exact instanceOk_of_idle hb hr hregs hbuf hmac hw herr
  | push w hr hb => exact instanceOk_pushIn hu hr hb w
  | irqEn w hr hb => exact instanceOk_of_idle hb hr hregs hbuf hmac hw herr
  | launch i hr hb => exact instanceOk_launch hu hr i
  | illegal w why hw hr hb => exact instanceOk_launch_illegal hu hr w
  | finish i u' d' hr hb hc hg he => exact instanceOk_finish hp hu hr hg he
  | reset asserted hx => exact instanceOk_setReset hu asserted

/-! ## Scratch (R37) -/

theorem wiped_launch {u : Instance} (hu : Wiped u) (w : Word) (g : Option ErrCode) : Wiped (launch w g u) := by
  rcases launch_cases w g u with ⟨-, -, h⟩ | ⟨-, c, -, h⟩ | ⟨-, -, h⟩ <;> rw [h]
  · exact hu
  · exact ⟨rfl, rfl⟩
  · exact hu

/-- A move that leaves an instance not BUSY wiped it, or found it so. -/
theorem moved_wiped {p : Params} {x : Option Turn} {k d d' : Nat} {u v : Instance} (hu : u.busy = false → Wiped u)
    (hm : Moved p x k d u v d') : v.busy = false → Wiped v := by
  cases hm with
  | same => exact hu
  | pop => rcases popOut_cases u with h | ⟨-, h⟩ <;> rw [h] <;> exact hu
  | ovr hb => exact hu
  | cfg w hr hb => exact hu
  | push w hr hb =>
    unfold pushIn
    split <;> exact hu
  | irqEn w hr hb => exact hu
  | launch i hr hb => exact fun _ => wiped_launch (hu hb) _ _
  | illegal w why hw hr hb => exact fun _ => wiped_launch (hu hb) _ _
  | finish i u' d' hr hb hc hg he => exact fun _ => ⟨rfl, rfl⟩
  | reset asserted hx =>
    cases asserted with
    | true => exact fun _ => ⟨rfl, rfl⟩
    | false => exact hu

/-! ## Launch and completion (R36, R40) -/

theorem step_sequencer {s : State} {k : Nat} {rest : List Turn} {u : Instance} {i : Instr}
    (ht : s.turns = .sequencer k :: rest) (hu : s.insts[k]? = some u) (hb : u.busy = true)
    (hi : decode u.cmdl = .ok i) : step s = exec i (turnTo s k rest) := by
  have hsel : selected (turnTo s k rest) = some u := hu
  calc step s = sequencerStep (turnTo s k rest) := by simp [step, machineStep, ht, takeTurn, turnTo]
    _ = exec i (turnTo s k rest) := by simp [sequencerStep, hsel, hb, hi]

/-- In a legal instance a command in flight other than PRIVOP completes at its sequencer's turn. -/
theorem sequencer_completes {s : State} {k : Nat} {rest : List Turn} {u : Instance}
    (ht : s.turns = .sequencer k :: rest) (hu : s.insts[k]? = some u) (hok : InstanceOk s.params u)
    (hb : u.busy = true) (hcmd : u.cmdl ≠ encode .privop) :
    ∃ u' d, step s = .next { completed (turnTo s k rest) u' with draws := d } := by
  obtain ⟨-, -, hmac, -, hseq, hreset⟩ := hok
  obtain ⟨i, hi, hg⟩ := exists_command_of_busy hseq hb
  have hword : encode i = u.cmdl := encode_of_decode hi
  have hpriv : i ≠ .privop := fun h => hcmd (by rw [← hword, h])
  obtain ⟨u', d, he⟩ := effectOf_exists hpriv hmac hg s.draws
  have hflight : InFlight i (turnTo s k rest) u := ⟨⟨hu, not_inReset_of_busy hreset hb⟩, hb, hword.symm⟩
  exact ⟨u', d, (step_sequencer ht hu hb hi).trans (exec_completes hflight hg he)⟩

/-- The launch of a command with no guard failing and the halt gate open (R40, R221 (b)). -/
theorem launch_accepted {w : Word} {u : Instance} (h : halted u = false ∨ w ∈ recoveryWords) :
    launch w none u = { u with cmdl := w, done := false, busy := true } := by
  have hgate : ¬ (halted u && !recoveryWords.contains w) = true := by rcases h with h | h <;> simp [h]
  exact if_neg hgate

/-! ## Who reads `x[D]` (R25) -/

/-- The instance with another value in `x[D]`. -/
def withD (u : Instance) (d : Nat) : Instance := { u with regs := { u.regs with d := some d } }

@[simp] theorem withD_n (u : Instance) (d : Nat) : (withD u d).regs.n = u.regs.n := rfl
@[simp] theorem withD_e (u : Instance) (d : Nat) : (withD u d).regs.e = u.regs.e := rfl
@[simp] theorem withD_p (u : Instance) (d : Nat) : (withD u d).regs.p = u.regs.p := rfl
@[simp] theorem withD_q (u : Instance) (d : Nat) : (withD u d).regs.q = u.regs.q := rfl
@[simp] theorem withD_iqmp (u : Instance) (d : Nat) : (withD u d).regs.iqmp = u.regs.iqmp := rfl
@[simp] theorem withD_a (u : Instance) (d : Nat) : (withD u d).regs.a = u.regs.a := rfl
@[simp] theorem withD_ibuf (u : Instance) (d : Nat) : (withD u d).ibuf = u.ibuf := rfl
@[simp] theorem withD_busy (u : Instance) (d : Nat) : (withD u d).busy = u.busy := rfl
@[simp] theorem withD_cmdl (u : Instance) (d : Nat) : (withD u d).cmdl = u.cmdl := rfl
@[simp] theorem withD_mac (u : Instance) (d : Nat) : (withD u d).mac = u.mac := rfl
@[simp] theorem withD_scratch (u : Instance) (d : Nat) : (withD u d).scratch = u.scratch := rfl
@[simp] theorem withD_inReset (u : Instance) (d : Nat) : (withD u d).inReset = u.inReset := rfl
@[simp] theorem halted_withD (u : Instance) (d : Nat) : halted (withD u d) = halted u := rfl
@[simp] theorem cfgHash_withD (u : Instance) (d : Nat) : cfgHash (withD u d) = cfgHash u := rfl

theorem readReg_withD (u : Instance) (d : Nat) {r : BigReg} (hr : r ≠ .d) :
    readReg (withD u d).regs r = readReg u.regs r := by
  cases r
  case d => exact absurd rfl hr
  all_goals rfl

section
variable {u : Instance} {d d' : Nat} (h : u.regs.d = some d)
include h

theorem hideD_withD : hideD (withD u d') = hideD u := by simp [hideD, withD, h]

/-- The guards ask at most whether `x[D]` is present. -/
theorem guardsOf_withD (i : Instr) (p : Params) : guardsOf i p (withD u d') = guardsOf i p u := by
  cases i
  case privop => simp [guardsOf, guardPrivop, requireRegs, requireKeyRange, readReg, withD, h]
  all_goals rfl

theorem hideD_launch_withD (w : Word) (g : Option ErrCode) :
    hideD (launch w g (withD u d')) = hideD (launch w g u) := by
  unfold launch
  rw [halted_withD]
  split
  next => exact hideD_withD h
  next => cases g <;> simp [hideD, withD, raiseErr, wipeScratch, h]

/-- An effect other than PRIVOP's exists, and draws as much, whatever `x[D]` holds; its outcome differs in `x[D]` at
most. -/
theorem effectOf_withD {i : Instr} (hi : i ≠ .privop) (k : Nat) :
    (effectOf i k (withD u d')).map (Prod.map hideD id) = (effectOf i k u).map (Prod.map hideD id) := by
  cases i
  case privop => exact absurd rfl hi
  -- The effect overwrites `x[D]`.
  case ldrD => rfl
  case wipek => rfl
  case wipeall => rfl
  -- The effect exists when its operands do, and `x[D]` is none of them.
  case pubop | crtpowE | crtpowX | mgfx | oaepenc | hmkey | hmstart | hmupd | hmfinal =>
    simp only [effectOf, noDraw, effectPubop, effectCrtpow, effectMgfx, effectOaepenc, effectHmkey, effectHmstart,
      effectHmupd, effectHmfinal, cfgHash_withD, withD_n, withD_e, withD_p, withD_q, withD_iqmp, withD_a, withD_ibuf,
      withD_mac, withD_scratch, readReg_withD u d' (r := .e) (by decide), readReg_withD u d' (r := .x) (by decide)]
    split <;> simp [hideD, withD, h]
  all_goals
    simp [effectOf, noDraw, effectNop, effectLdr, effectClrib, effectClrob, clearErr, effectHmwipe, hideD, withD, h,
      writeReg, ibufNumber]

end

/-- The instances addressed in t and t' agree but for the value of `x[D]`, and the platforms in the bytes drawn, the
values read and the moves pending. -/
def AgreeButD (t t' : State) : Prop :=
  ∃ v v', selected t = some v ∧ selected t' = some v' ∧ hideD v = hideD v' ∧ t'.draws = t.draws
    ∧ t'.hostSaw = t.hostSaw ∧ t'.turns = t.turns

/-- Two states that differ in nothing but `x[D]`, whose instances addressed then become alike but for `x[D]`. -/
theorem agreeButD_setSelected {s : State} {u v v' : Instance} (hs : selected s = some u) (w : Instance) (k : Nat)
    (hv : hideD v = hideD v') :
    AgreeButD { setSelected s v with draws := k } { setSelected (setSelected s w) v' with draws := k } :=
  ⟨v, v', selected_setSelected s u v hs, selected_setSelected _ w v' (selected_setSelected s u w hs), hv, rfl, rfl, rfl⟩

theorem agreeButD_withD {s : State} {u : Instance} {d d' : Nat} (hs : selected s = some u) (h : u.regs.d = some d) :
    AgreeButD s (setSelected s (withD u d')) :=
  ⟨u, withD u d', hs, selected_setSelected s u _ hs, (hideD_withD h).symm, rfl, rfl, rfl⟩

/-- A completion other than PRIVOP's makes the same difference to both. -/
theorem complete_withD {i : Instr} (hi : i ≠ .privop) {s : State} {u : Instance} {d d' : Nat}
    (hs : selected s = some u) (h : u.regs.d = some d) (g : Option ErrCode) :
    AgreeButD (complete g (effectOf i) s u) (complete g (effectOf i) (setSelected s (withD u d')) (withD u d')) := by
  cases g with
  | some c => exact agreeButD_withD hs h
  | none =>
    have heff := effectOf_withD (d' := d') h hi s.draws
    cases he : effectOf i s.draws u with
    | none =>
      rw [he, Option.map_none, Option.map_eq_none_iff] at heff
      simp only [complete, setSelected_draws, he, heff]
      exact agreeButD_withD hs h
    | some r =>
      obtain ⟨v, k⟩ := r
      rw [he] at heff
      obtain ⟨⟨v', k'⟩, he', hr⟩ := Option.map_eq_some_iff.1 heff
      obtain ⟨hv, hk⟩ := Prod.mk.inj hr
      obtain rfl : k' = k := hk
      rw [complete_enabled he, complete_enabled (s := setSelected s (withD u d')) he']
      exact agreeButD_setSelected hs _ _ (by simp_all [hideD, finish, wipeScratch])

/-- What one step of a command is, in an instance that exists (R40). -/
theorem exec_selected {i : Instr} {s : State} {u : Instance} (hs : selected s = some u) :
    exec i s = .next (
      if u.inReset then s
      else if u.busy then
        if u.cmdl = encode i then complete (guardsOf i s.params u) (effectOf i) s u else setSelected s (setOvr u)
      else setSelected s (launch (encode i) (guardsOf i s.params u) u)) := by
  rw [exec_eq]
  simp only [runCommand, hs]
  split_ifs <;> rfl

/-- A step of a command other than PRIVOP reads `x[D]` nowhere. -/
theorem exec_withD {i : Instr} (hi : i ≠ .privop) {s t : State} {u : Instance} {d d' : Nat}
    (hs : selected s = some u) (h : u.regs.d = some d) (he : exec i s = .next t) :
    ∃ t', exec i (setSelected s (withD u d')) = .next t' ∧ AgreeButD t t' := by
  rw [exec_selected hs] at he
  obtain rfl := Host.Outcome.next.inj he
  refine ⟨_, exec_selected (selected_setSelected s u _ hs), ?_⟩
  simp only [withD_inReset, withD_busy, withD_cmdl, setSelected_params, guardsOf_withD h]
  split_ifs
  · exact agreeButD_withD hs h
  · exact complete_withD hi hs h _
  · exact agreeButD_setSelected hs _ s.draws (by simp [hideD, setOvr, withD, h])
  · exact agreeButD_setSelected hs _ s.draws (hideD_launch_withD h _ _).symm

/-! ## The host's verification of a key (R256) -/

/-- A modulus has no inverse modulo itself, so a key with equal primes is rejected. -/
theorem modinv_self {m : Nat} (h : 2 ≤ m) : modinv m m = none := by
  rw [modinv_none_iff m m (by omega), Nat.coprime_self]
  omega

theorem verifyOrdered_eq_true_iff {n e d p q iqmp : Nat} :
    verifyOrdered n e d p q iqmp = true
      ↔ n = p * q ∧ (e * d) % (p - 1) = 1 % (p - 1) ∧ (e * d) % (q - 1) = 1 % (q - 1) ∧ (iqmp * q) % p = 1 % p := by
  simp [verifyOrdered, and_assoc]

/-- A key whose primes stand in order and that passes steps 2 and 4 of R256. -/
theorem keyInvariants_of_verifyOrdered {n e d p q iqmp : Nat} (hp : 2 ≤ p) (hqp : q < p)
    (h : verifyOrdered n e d p q iqmp = true) : KeyInvariants n e d p q iqmp := by
  obtain ⟨hn, hep, heq, hinv⟩ := verifyOrdered_eq_true_iff.1 h
  exact ⟨hn, hep, heq, hqp, hinv.trans (Nat.mod_eq_of_lt hp)⟩

/-! ## The register words (R30 to R32) -/

/-- CFG bit by bit, as the concatenation at its own width. -/
theorem cfgWord_getLsbD (c : Cfg) (i : Nat) :
    (cfgWord c).getLsbD i = (0#18 ++ c.outlen ++ 0#3 ++ BitVec.ofBool c.bugkey ++ c.hsel).getLsbD i := rfl

/-- IRQ_EN bit by bit. -/
theorem irqEnWord_getLsbD (q : IrqEn) (i : Nat) :
    (irqEnWord q).getLsbD i = (0#30 ++ BitVec.ofBool q.errIe ++ BitVec.ofBool q.doneIe).getLsbD i := rfl

/-- STATUS bit by bit. -/
theorem statusWord_getLsbD (u : Instance) (i : Nat) :
    (statusWord u).getLsbD i
      = (0#8 ++ presBits u.regs ++ u.err ++ BitVec.ofBool (kpriv u) ++ BitVec.ofBool (kpub u) ++ hmstBits u.mac.state
          ++ 0#1 ++ BitVec.ofBool u.ovr ++ BitVec.ofBool u.done ++ BitVec.ofBool u.busy).getLsbD i := rfl

/-- The presence bits one by one. -/
theorem presBits_getLsbD (f : RegFile) (i : Nat) :
    (presBits f).getLsbD i
      = (BitVec.ofBool f.x.isSome ++ BitVec.ofBool f.a.isSome ++ BitVec.ofBool f.iqmp.isSome
          ++ BitVec.ofBool f.q.isSome ++ BitVec.ofBool f.p.isSome ++ BitVec.ofBool f.d.isSome
          ++ BitVec.ofBool f.e.isSome ++ BitVec.ofBool f.n.isSome).getLsbD i := rfl

theorem cfgWord_cfgOfWord (v : Word) : cfgWord (cfgOfWord v) = v &&& 0x00003F1F#32 := by
  apply BitVec.eq_of_getLsbD_eq
  intro i hi
  rw [cfgWord_getLsbD, BitVec.getLsbD_and]
  simp only [cfgOfWord, BitVec.getLsbD_append]
  interval_cases i <;> simp

theorem irqEnWord_irqEnOfWord (v : Word) : irqEnWord (irqEnOfWord v) = v &&& 0x00000003#32 := by
  apply BitVec.eq_of_getLsbD_eq
  intro i hi
  rw [irqEnWord_getLsbD, BitVec.getLsbD_and]
  simp only [irqEnOfWord, BitVec.getLsbD_append]
  interval_cases i <;> simp

/-- The fields of STATUS of more than one bit: HMST, ERR and the reserved top byte. -/
theorem statusWord_fields (u : Instance) :
    (statusWord u).extractLsb' 4 2 = hmstBits u.mac.state ∧ (statusWord u).extractLsb' 8 8 = u.err
      ∧ (statusWord u).extractLsb' 24 8 = 0#8 := by
  refine ⟨?_, ?_, ?_⟩ <;>
  · apply BitVec.eq_of_getLsbD_eq
    intro i hi
    rw [BitVec.getLsbD_extractLsb', statusWord_getLsbD]
    simp only [BitVec.getLsbD_append]
    interval_cases i <;> simp

end Sys2Proof.Machine

open Sys2Proof Sys2Proof.Machine

/-- Settles O55: each kind of move keeps the instance it moves legal, and a step moves one instance at most. -/
theorem stepKeepsTheMachineLegal : Obligations.StepKeepsTheMachineLegal := by
  unfold Obligations.StepKeepsTheMachineLegal
  intro s t ⟨hp, hlen, hinsts⟩ hstep
  obtain ⟨hparams, hlen'⟩ := step_params hstep
  refine ⟨hparams ▸ hp, by rw [hlen', hparams, hlen], fun v hv => ?_⟩
  rw [hparams]
  obtain ⟨u, hu, rfl | ⟨k, hm⟩⟩ := step_mem hstep hv
  · exact hinsts v hu
  · exact moved_instanceOk hp (hinsts u hu) hm

/-- Settles O39: SEL = 2 names no form of CRTPOW; no guard asks for the value of `x[D]`, and no effect but PRIVOP's
uses it. -/
theorem onlyPrivopReadsD : Obligations.OnlyPrivopReadsD := by
  unfold Obligations.OnlyPrivopReadsD
  refine ⟨by decide, fun i s u d d' hi hs hd t ht => ?_⟩
  obtain ⟨t', ht', v, v', hagree⟩ := exec_withD (d' := d') hi hs hd ht
  exact ⟨t', v, v', ht', hagree⟩

/-- Settles O40: primes out of order are exchanged, and equal ones have no inverse. -/
theorem verifiedKeysSatisfyTheInvariants : Obligations.VerifiedKeysSatisfyTheInvariants := by
  unfold Obligations.VerifiedKeysSatisfyTheInvariants
  intro n e d p q iqmp p' q' u' hp hq h
  unfold hostVerifyKey at h
  split at h
  next hle =>
    split at h
    next u hu =>
      split at h
      next hver =>
        cases h
        have hne : p ≠ q := by
          rintro rfl
          rw [modinv_self hp] at hu
          cases hu
        exact keyInvariants_of_verifyOrdered hq (lt_of_le_of_ne hle hne) hver
      next => cases h
    next => cases h
  next hlt =>
    split at h
    next hver =>
      cases h
      exact keyInvariants_of_verifyOrdered hp (not_le.1 hlt) hver
    next => cases h

/-- Settles O56: a move that ends with BUSY = 0 wipes the instance or found it wiped. -/
theorem scratchIsZeroWhenNotBusy : Obligations.ScratchIsZeroWhenNotBusy := by
  unfold Obligations.ScratchIsZeroWhenNotBusy
  intro s t hs hstep v hv
  obtain ⟨u, hu, rfl | ⟨k, hm⟩⟩ := step_mem hstep hv
  · exact hs v hu
  · exact moved_wiped (hs u hu) hm

/-- Settles O59: in a legal state the guards of the command in flight hold, and but for PRIVOP its result exists. -/
theorem commandsOtherThanPrivopComplete : Obligations.CommandsOtherThanPrivopComplete := by
  unfold Obligations.CommandsOtherThanPrivopComplete
  intro s k rest u ⟨_, _, hinsts⟩ ht hu hb hcmd
  obtain ⟨u', d, hstep⟩ := sequencer_completes ht hu (hinsts u (List.mem_of_getElem? hu)) hb hcmd
  obtain ⟨hlt, -⟩ := List.getElem?_eq_some_iff.1 hu
  exact ⟨_, finish u', hstep, List.getElem?_set_self hlt, rfl, rfl⟩

/-- Settles O5: every instance right after reset is `Instance.reset`, field by field. -/
theorem resetLeavesTheTable : Obligations.ResetLeavesTheTable := by
  unfold Obligations.ResetLeavesTheTable
  intro p u hu
  obtain ⟨b, -, rfl⟩ := List.mem_map.1 hu
  exact ⟨readReg_absent, by and_intros <;> rfl⟩

/-- Settles O8: the write reaches CMD, which is not gated, and its word is decoded. -/
theorem stepLaunchesTheDecodedCommand : Obligations.StepLaunchesTheDecodedCommand := by
  unfold Obligations.StepLaunchesTheDecodedCommand
  intro s k w rest u i hw hr hb hi
  obtain ⟨hstep, hs⟩ := step_nextWrite hw
  calc step s = hostWrite 0x00 w (turnTo s k rest) := hstep
    _ = writeCmd w u (turnTo s k rest) := hostWrite_idle 0x00 w hs hr hb
    _ = exec i (turnTo s k rest) := by simp [writeCmd, hi]

/-- Settles O9: the sequencer's turn decodes CMDL. -/
theorem stepCompletesTheCommandInFlight : Obligations.StepCompletesTheCommandInFlight := by
  unfold Obligations.StepCompletesTheCommandInFlight
  intro s k rest u i ht hu hb hi
  exact step_sequencer ht hu hb hi

/-- Settles O18: the words are concatenations of their fields, read back bit by bit. -/
theorem registerWordFields : Obligations.RegisterWordFields := by
  unfold Obligations.RegisterWordFields
  refine ⟨fun v => ⟨cfgWord_cfgOfWord v, irqEnWord_irqEnOfWord v⟩, fun u => ?_⟩
  obtain ⟨hhmst, herr, hreserved⟩ := statusWord_fields u
  simp only [statusWord_getLsbD, presBits_getLsbD, BitVec.getLsbD_append]
  refine ⟨?_, ?_, ?_, ?_, hhmst, ?_, ?_, herr, ?_, ?_, ?_, ?_, ?_, ?_, ?_, ?_, hreserved⟩ <;> simp [kpub, kpriv]

/-- Settles O21: with no guard failing and the halt gate open, the launch is accepted. -/
theorem acceptedLaunch : Obligations.AcceptedLaunch := by
  unfold Obligations.AcceptedLaunch
  intro i s u ⟨⟨hs, hr⟩, hb, hgate⟩ hg
  rw [exec_launch hs hr hb, hg]
  have hopen : halted u = false ∨ encode i ∈ recoveryWords := hgate.imp_left fun herr => by simp [halted, herr]
  rw [launch_accepted hopen]

end

section
/-!
PROOFS. Memory (20_memory.md): where the register windows are, what the host's reads return and what its writes store.
-/

namespace Sys2Proof.Machine

/-! ## Address decoding (R60, R61, R65) -/

/-- R5: the bases are multiples of the window size and differ. -/
theorem params_ok_bases {p : Params} (h : p.ok = true) : (∀ b ∈ p.bases, 0x40 ∣ b) ∧ p.bases.Nodup := by
  simp only [Params.ok, Bool.and_eq_true, decide_eq_true_eq, List.all_eq_true, beq_iff_eq] at h
  obtain ⟨⟨-, hdvd⟩, hnodup⟩ := h
  exact ⟨fun b hb => Nat.dvd_of_mod_eq_zero (hdvd b hb), hnodup⟩

/-- Windows at multiples of their size that meet are the same window. -/
theorem base_eq_of_mem_window {b c off : Nat} (hb : 0x40 ∣ b) (hc : 0x40 ∣ c) (hoff : off < 0x40) (hle : c ≤ b + off)
    (hlt : b + off < c + 0x40) : c = b := by
  omega

theorem windowOf_eq_none {bases : List Nat} {addr : Nat} (h : ∀ b ∈ bases, addr < b ∨ b + 0x40 ≤ addr) :
    windowOf bases addr = none := by
  have hout : bases.findIdx? (fun b => decide (b ≤ addr) && decide (addr < b + 0x40)) = none := by
    rw [List.findIdx?_eq_none_iff]
    intro b hb
    have := h b hb
    simp only [Bool.and_eq_false_iff, decide_eq_false_iff_not]
    omega
  simp only [windowOf, hout]

/-- An address in the window of instance k, the windows aligned and disjoint, is in no window before it. -/
theorem windowOf_base_add {bases : List Nat} {k off : Nat} (hdvd : ∀ b ∈ bases, 0x40 ∣ b) (hnodup : bases.Nodup)
    (hk : k < bases.length) (hoff : off < 0x40) : windowOf bases (bases.getD k 0 + off) = some (k, off) := by
  have hget : bases.getD k 0 = bases[k] := List.getD_eq_getElem _ _ hk
  have hfind : bases.findIdx? (fun b => decide (b ≤ bases[k] + off) && decide (bases[k] + off < b + 0x40)) = some k := by
    rw [List.findIdx?_eq_some_iff_getElem]
    refine ⟨hk, by simpa using hoff, fun j hj hin => ?_⟩
    simp only [Bool.and_eq_true, decide_eq_true_eq] at hin
    have heq : bases[j] = bases[k] :=
      base_eq_of_mem_window (hdvd _ (List.getElem_mem _)) (hdvd _ (List.getElem_mem _)) hoff hin.1 hin.2
    exact hj.ne ((hnodup.getElem_inj_iff).1 heq)
  simp only [windowOf, hget, hfind, Nat.add_sub_cancel_left]

section
variable {s : State} {addr width : Nat} {rest : List Turn}

/-- A host access to no window (log entry 10). -/
theorem hostAccess_outside (act : Nat → State → Host.Outcome State Fault Refusal)
    (h : windowOf s.params.bases addr = none) : hostAccess addr width s act = .refused .outsideWindows := by
  simp only [hostAccess, h]

/-- A host access that is not 32 bits wide or not aligned (R65). -/
theorem hostAccess_undefined {k off : Nat} (act : Nat → State → Host.Outcome State Fault Refusal)
    (hwin : windowOf s.params.bases addr = some (k, off)) (h : width ≠ 32 ∨ addr % 4 ≠ 0) :
    hostAccess addr width s act = .refused .undefinedAccess := by
  have hbad : ¬ (width = 32 ∧ addr % 4 = 0) := by omega
  simp only [hostAccess, hwin, if_neg hbad]

/-- With a move pending, a step takes it (R6). -/
theorem step_turn {x : Turn} (h : s.turns = x :: rest) : step s = takeTurn x { s with turns := rest } := by
  simp only [step, machineStep, h]

theorem step_read (h : s.turns = .read addr width :: rest) :
    step s = hostAccess addr width { s with turns := rest } hostRead :=
  step_turn h

theorem step_write {v : Word} (h : s.turns = .write addr width v :: rest) :
    step s = hostAccess addr width { s with turns := rest } (fun off => hostWrite off v) :=
  step_turn h

end

/-! ## Reads (R62, R73) -/

theorem readEffect_of_ne {off : Nat} (u : Instance) (h : off ≠ 0x10) : readEffect u off = u := if_neg h

theorem readWord_reserved {off : Nat} (p : Params) (u : Instance) (h : 0x2C ≤ off) : readWord p u off = 0#32 := by
  unfold readWord
  split
  case h_11 => rfl
  all_goals omega

/-- A read of DATA_OUT takes the first byte of OBUF. -/
theorem dataOut_of_cons {u : Instance} {b : Byte} {t : Bytes} (hb : u.busy = false) (ho : u.obuf = b :: t) :
    dataOutWord u = b.zeroExtend 32 ∧ popOut u = { u with obuf := t } := by
  simp [dataOutWord, popOut, hb, ho]

/-- A read of DATA_OUT finds nothing while BUSY or when OBUF is empty. -/
theorem dataOut_of_busy_or_empty {u : Instance} (h : u.busy = true ∨ u.obuf = []) :
    dataOutWord u = 0#32 ∧ popOut u = u := by
  rcases h with h | h <;> simp [dataOutWord, popOut, h]

/-- What the next step makes of the host's read (R62). -/
theorem step_nextRead_eq {s : State} {k off : Nat} {rest : List Turn} {u : Instance} (h : NextRead s k off rest u) :
    step s = .next { afterTurn s k rest (readEffect u off) with hostSaw := s.hostSaw ++ [readWord s.params u off] } := by
  obtain ⟨hstep, hs⟩ := step_nextRead h
  exact hstep.trans (hostRead_eq off hs)

/-! ## Writes (R63, R72) -/

theorem pushIn_of_lt {p : Params} {u : Instance} (v : Word) (h : u.ibuf.length < p.ibmax) :
    pushIn p v u = { u with ibuf := u.ibuf ++ [v.extractLsb' 0 8] } :=
  if_pos h

theorem pushIn_of_full {p : Params} {u : Instance} (v : Word) (h : u.ibuf.length = p.ibmax) :
    pushIn p v u = setOvr u :=
  if_neg h.not_lt

/-- A write to a read-only or reserved offset, whatever the instance is doing (R63). -/
theorem hostWrite_unwritable {s : State} {u : Instance} {off : Nat} (v : Word) (hs : selected s = some u)
    (ho : writableOffset off = false) : hostWrite off v s = .next s := by
  unfold hostWrite
  rw [hs]
  simp only [ho, Bool.false_and, Bool.false_eq_true, if_false]
  split
  next => rfl
  next =>
    -- Each of the four writable offsets contradicts `ho`.
    split
    case h_5 => rfl
    all_goals exact absurd ho (by decide)

section
variable {s : State} {k : Nat} {v : Word} {rest : List Turn} {u : Instance}

theorem step_nextWrite_cfg (h : NextWrite s k 0x08 v rest u) (hr : u.inReset = false) (hb : u.busy = false) :
    step s = .next (afterTurn s k rest { u with cfg := cfgOfWord v }) := by
  obtain ⟨hstep, hs⟩ := step_nextWrite h
  exact hstep.trans (hostWrite_idle 0x08 v hs hr hb)

theorem step_nextWrite_dataIn (h : NextWrite s k 0x0C v rest u) (hr : u.inReset = false) (hb : u.busy = false) :
    step s = .next (afterTurn s k rest (pushIn s.params v u)) := by
  obtain ⟨hstep, hs⟩ := step_nextWrite h
  exact hstep.trans (hostWrite_idle 0x0C v hs hr hb)

theorem step_nextWrite_irqEn (h : NextWrite s k 0x24 v rest u) (hr : u.inReset = false) (hb : u.busy = false) :
    step s = .next (afterTurn s k rest { u with irqEn := irqEnOfWord v }) := by
  obtain ⟨hstep, hs⟩ := step_nextWrite h
  exact hstep.trans (hostWrite_idle 0x24 v hs hr hb)

theorem step_nextWrite_unwritable {off : Nat} (h : NextWrite s k off v rest u) (ho : writableOffset off = false) :
    step s = .next (turnTo s k rest) := by
  obtain ⟨hstep, hs⟩ := step_nextWrite h
  exact hstep.trans (hostWrite_unwritable v hs ho)

end

end Sys2Proof.Machine

open Sys2Proof Sys2Proof.Machine

/-- Settles O11: aligned bases that differ give disjoint windows, so an address is in one at most. -/
theorem windowsAreWhereTheBasesSay : Obligations.WindowsAreWhereTheBasesSay := by
  unfold Obligations.WindowsAreWhereTheBasesSay
  intro p hp
  obtain ⟨hdvd, hnodup⟩ := params_ok_bases hp
  refine ⟨fun k off hk hoff => windowOf_base_add hdvd hnodup hk hoff, fun addr hout => ?_⟩
  have hnone := windowOf_eq_none hout
  refine ⟨hnone, fun s width v rest hs => ?_⟩
  subst hs
  exact ⟨fun ht => (step_read ht).trans (hostAccess_outside _ hnone),
    fun ht => (step_write ht).trans (hostAccess_outside _ hnone)⟩

/-- Settles O12: the width and the alignment are asked for before the access reaches the instance. -/
theorem undefinedAccessIsRefused : Obligations.UndefinedAccessIsRefused := by
  unfold Obligations.UndefinedAccessIsRefused
  intro s addr width v rest k off hwin hbad
  exact ⟨fun ht => (step_read ht).trans (hostAccess_undefined _ hwin hbad),
    fun ht => (step_write ht).trans (hostAccess_undefined _ hwin hbad)⟩

/-- Settles O13: the value is `readWord`'s row for the offset, the instance after it `readEffect`'s. -/
theorem readsReturnTheTable : Obligations.ReadsReturnTheTable := by
  unfold Obligations.ReadsReturnTheTable
  intro s k off rest u hread
  refine ⟨readWord s.params u off, readEffect u off, step_nextRead_eq hread, readEffect_of_ne u, ?_⟩
  refine ⟨?dataOut, ?_, ?_, ?_, ?_, ?_, ?_, ?_, ?_, ?_, ?_, ?reserved⟩
  case dataOut => rintro rfl; exact ⟨rfl, rfl⟩
  case reserved => exact readWord_reserved s.params u
  all_goals rintro rfl; rfl

/-- Settles O14: the read of DATA_OUT is `dataOutWord` and leaves `popOut`. -/
theorem dataOutRemovesTheFirstByte : Obligations.DataOutRemovesTheFirstByte := by
  unfold Obligations.DataOutRemovesTheFirstByte
  intro s k rest u hread
  have hstep : step s
      = .next { afterTurn s k rest (popOut u) with hostSaw := s.hostSaw ++ [dataOutWord u] } := step_nextRead_eq hread
  refine ⟨fun b t hb ho => ?_, fun hnone => ?_⟩
  · obtain ⟨hword, hpop⟩ := dataOut_of_cons hb ho
    rw [hstep, hword, hpop]
  · obtain ⟨hword, hpop⟩ := dataOut_of_busy_or_empty hnone
    rw [hstep, hword, hpop]

/-- Settles O15: the write of DATA_IN is `pushIn`. -/
theorem dataInAppendsAByte : Obligations.DataInAppendsAByte := by
  unfold Obligations.DataInAppendsAByte
  intro s k v rest u hw hr hb
  rw [step_nextWrite_dataIn hw hr hb]
  exact ⟨fun hlt => by rw [pushIn_of_lt v hlt], fun hfull => by rw [pushIn_of_full v hfull]; rfl⟩

/-- Settles O16: the ignored offsets are none of the four writable ones. -/
theorem registerWritesStoreTheirFields : Obligations.RegisterWritesStoreTheirFields := by
  unfold Obligations.RegisterWritesStoreTheirFields
  intro s k off v rest u hw
  refine ⟨?_, ?_, fun hoff => ?_⟩
  · rintro rfl hr hb
    exact step_nextWrite_cfg hw hr hb
  · rintro rfl hr hb
    exact step_nextWrite_irqEn hw hr hb
  · have ho : writableOffset off = false := by
      simp only [writableOffset, Bool.or_eq_false_iff, beq_eq_false_iff_ne]
      omega
    exact step_nextWrite_unwritable hw ho

end

section
/-!
PROOFS. Encoding (30_encoding.md): the words that are legal, the commands they carry, and the launch of an illegal word.
-/

namespace Sys2Proof.Machine

/-! ## The command of a legal word (R91, R92) -/

/-- Every command the decoder answers is well formed: a seed length is read from 16 bits (R91). -/
theorem wf_of_decode {w : Word} {i : Instr} (h : decode w = .ok i) : i.wf = true := by
  cases i
  case mgfx seedLen =>
    have hcut : decode w = .ok (.mgfx (seedLen % 2 ^ 16)) := encode_of_decode h ▸ decode_encode_mgfx seedLen
    have hsame : seedLen = seedLen % 2 ^ 16 := by simpa using h.symm.trans hcut
    exact decide_eq_true (hsame ▸ Nat.mod_lt _ (by decide))
  all_goals rfl

/-! ## The rows of the opcode map (R92) -/

open Laws.WordMatchesARow in
/-- The word of every command matches a row of the map. -/
theorem exists_opcodeRow_encode (i : Instr) : ∃ row ∈ opcodeRows, encode i &&& row.1 = row.2 := by
  suffices h : Statement i from h.1
  cases i
  exacts [nop, ldrN, ldrE, ldrD, ldrP, ldrQ, ldrIqmp, ldrA, ldrX, wipek, clrib, clrob, clrerr, wipeall, pubop, crtpowE,
    crtpowX, privop, mgfx _, oaepenc, hmkey, hmstart, hmupd, hmfinal, hmwipe]

/-- A row asks for a whole word, the word of a command, or it is the row of MGFX, which leaves IMM16 open. -/
theorem opcodeRow_cases :
    ∀ row ∈ opcodeRows,
      (row.1 = 0xFFFFFFFF#32 ∧ ((decode row.2).instr?).isSome = true) ∨ row = (0x0000FFFF#32, 0x00000020#32) :=
  List.forall_iff_forall_mem.1 (by decide)

/-- The low half of MGFX's word is its operation code, with SEL and RSV 0. -/
theorem decode_mgfx_of_low_half {w : Word} (h : w &&& 0x0000FFFF#32 = 0x00000020#32) :
    decode w = .ok (.mgfx (fieldImm16 w)) := by
  have hlow : w.toNat % 2 ^ 16 = 0x20 := by
    rw [← Nat.and_two_pow_sub_one_eq_mod]
    exact congrArg BitVec.toNat h
  have hrsv : fieldRsv w = 0 := by rw [fieldRsv]; omega
  have hopc : fieldOpc w = 0x20 := by rw [fieldOpc]; omega
  have hsel : fieldSel w = 0 := by rw [fieldSel]; omega
  simp [decode, hrsv, hopc, hsel]

/-- A word that matches a row decodes to a command. -/
theorem exists_decode_of_opcodeRow {w : Word} {row : Word × Word} (hrow : row ∈ opcodeRows)
    (hw : w &&& row.1 = row.2) : ∃ i, decode w = .ok i := by
  rcases opcodeRow_cases row hrow with ⟨hmask, hcmd⟩ | rfl
  · have hword : w = row.2 := by rw [← hw, hmask]; exact BitVec.and_allOnes.symm
    cases hd : decode w with
    | ok i => exact ⟨i, rfl⟩
    | illegal why => simp [← hword, hd, Decoded.instr?] at hcmd
  · exact ⟨_, decode_mgfx_of_low_half hw⟩

/-- A word is legal exactly when it matches a row of the map (R93). -/
theorem exists_decode_iff_opcodeRow (w : Word) :
    (∃ i, decode w = .ok i) ↔ ∃ row ∈ opcodeRows, w &&& row.1 = row.2 := by
  refine ⟨fun ⟨i, hi⟩ => ?_, fun ⟨row, hrow, hw⟩ => exists_decode_of_opcodeRow hrow hw⟩
  rw [← encode_of_decode hi]
  exact exists_opcodeRow_encode i

/-! ## The ways a word is illegal (R93) -/

theorem decodeLdr_eq_none_iff {sel : Nat} : decodeLdr sel = none ↔ 7 < sel := by
  unfold decodeLdr
  split
  case h_9 =>
    simp only [imp_false, true_iff] at *
    omega
  all_goals simp

theorem decodeCrtpow_eq_none_iff {sel : Nat} : decodeCrtpow sel = none ↔ sel ≠ 1 ∧ sel ≠ 7 := by
  unfold decodeCrtpow
  split <;> simp_all

/-- The operation codes whose only form has SEL = 0 and IMM16 = 0 (R92). -/
theorem decodePlain_eq_none_iff {opc : Nat} :
    decodePlain opc = none
      ↔ opc ∉ [0x00, 0x02, 0x03, 0x04, 0x05, 0x06, 0x10, 0x12, 0x21, 0x30, 0x31, 0x32, 0x33, 0x34] := by
  unfold decodePlain
  split <;> simp_all

theorem exists_decodeForm_illegal_iff {o : Option Instr} : (∃ why, decodeForm o = .illegal why) ↔ o = none := by
  cases o <;> simp [decodeForm]

/-- Each branch of the decoder refuses by the clause it tests. -/
theorem exists_decode_illegal_iff (w : Word) :
    (∃ why, decode w = .illegal why)
      ↔ (fieldOpc w ∉ [0x00, 0x01, 0x02, 0x03, 0x04, 0x05, 0x06, 0x10, 0x11, 0x12, 0x20, 0x21, 0x30, 0x31, 0x32,
            0x33, 0x34]
          ∨ fieldRsv w ≠ 0
          ∨ (fieldImm16 w ≠ 0 ∧ fieldOpc w ≠ 0x20)
          ∨ (fieldSel w ≠ 0 ∧ fieldOpc w ≠ 0x01 ∧ fieldOpc w ≠ 0x11)
          ∨ (fieldOpc w = 0x01 ∧ 7 < fieldSel w)
          ∨ (fieldOpc w = 0x11 ∧ fieldSel w ≠ 1 ∧ fieldSel w ≠ 7)) := by
  simp only [decode]
  split
  next hrsv => simp [hrsv]
  next hrsv =>
    split
    next hopc => split <;> simp_all
    next hmgfx =>
      split
      next himm => simp [himm, hmgfx]
      next himm =>
        split
        next hldr => rw [exists_decodeForm_illegal_iff, decodeLdr_eq_none_iff]; simp [hrsv, himm, hldr]
        next hldr =>
          split
          next hcrt => rw [exists_decodeForm_illegal_iff, decodeCrtpow_eq_none_iff]; simp [hrsv, himm, hcrt]
          next hcrt =>
            split
            next hplain => have := decodePlain_eq_none_iff.1 hplain; simp_all
            next i hplain =>
              have hmem := mt decodePlain_eq_none_iff.2 (Option.ne_none_iff_exists'.2 ⟨i, hplain⟩)
              split <;> simp_all

/-! ## The launch of an illegal word (R93, R224) -/

/-- The launch of a word that a guard refuses, the halt gate open (R224). -/
theorem launch_refused {w : Word} {u : Instance} (c : ErrCode) (h : halted u = false ∨ w ∈ recoveryWords) :
    launch w (some c) u = raiseErr w c u := by
  rcases launch_cases w (some c) u with ⟨hh, hw, -⟩ | ⟨-, c', hc, hl⟩ | ⟨-, hc, -⟩
  · simp [hh, hw] at h
  · cases hc; exact hl
  · cases hc

/-- What the refusal leaves of an instance that is not BUSY. -/
theorem raiseErr_eq_refusedWith {u : Instance} (w : Word) (c : ErrCode) (hb : u.busy = false) :
    raiseErr w c u = refusedWith w (errByte c) u := by
  simp [raiseErr, wipeScratch, refusedWith, hb]

/-- The write of an illegal word to CMD is its launch, refused with `ERR_ILLEGAL`. -/
theorem step_nextWrite_illegal {s : State} {k : Nat} {w : Word} {rest : List Turn} {u : Instance} {why : IllegalWord}
    (hw : NextWrite s k 0x00 w rest u) (hr : u.inReset = false) (hb : u.busy = false)
    (hwhy : decode w = .illegal why) :
    step s = .next (afterTurn s k rest (launch w (some .illegal) u)) := by
  obtain ⟨hstep, hs⟩ := step_nextWrite hw
  calc step s = hostWrite 0x00 w (turnTo s k rest) := hstep
    _ = writeCmd w u (turnTo s k rest) := hostWrite_idle 0x00 w hs hr hb
    _ = .next (setSelected (turnTo s k rest) (launch w (some .illegal) u)) := by simp only [writeCmd, hwhy]

end Sys2Proof.Machine

open Sys2Proof Sys2Proof.Machine

/-- Settles O1: the seed length of MGFX fits IMM16, and no other command carries an operand. -/
theorem decodeOfEncode : Obligations.DecodeOfEncode := by
  unfold Obligations.DecodeOfEncode
  exact fun _ => decode_encode

/-- Settles O2: the word is the assembly of its four fields, and the decoder looks at them all. -/
theorem encodeOfDecode : Obligations.EncodeOfDecode := by
  unfold Obligations.EncodeOfDecode
  exact fun _ _ h => ⟨wf_of_decode h, encode_of_decode h⟩

/-- Settles O3: the rows are the words of the commands, the clauses the branches of the decoder; with the halt gate
open the launch of an illegal word is refused. -/
theorem legalExactlyWhenARowMatches : Obligations.LegalExactlyWhenARowMatches := by
  unfold Obligations.LegalExactlyWhenARowMatches
  refine ⟨fun w => ⟨exists_decode_iff_opcodeRow w, exists_decode_illegal_iff w⟩, ?_⟩
  intro s k w rest u why hw hr hb herr hwhy
  have hopen : halted u = false := by simp [halted, herr]
  rw [step_nextWrite_illegal hw hr hb hwhy, launch_refused .illegal (.inl hopen), raiseErr_eq_refusedWith w _ hb]
  rfl

/-- Settles O4: each word of the map is decoded to its command. -/
theorem wordsOfTheOpcodeMap : Obligations.WordsOfTheOpcodeMap := by
  unfold Obligations.WordsOfTheOpcodeMap
  decide

end

section
/-!
PROOFS. Data commands (40_data_commands.md): what a step of any command leaves unchanged (R110), and the housekeeping
commands NOP, LDR, WIPEK, CLRIB, CLROB, CLRERR and WIPEALL.
-/

namespace Sys2Proof.Machine

/-! ## What one step of a command does to the instance addressed (R40, R110) -/

/-- What a step of command i makes of the instance u it addresses, with `d` bytes drawn before it and `d'` after. -/
inductive CommandStep (i : Instr) (p : Params) (d : Nat) (u : Instance) : Instance → Nat → Prop
  /-- Nothing: the reset input is asserted, or the completion is not enabled. -/
  | stands : CommandStep i p d u u d
  /-- The launch ignored while another command is in flight (R221 (a)). -/
  | ignored (hb : u.busy = true) (hc : u.cmdl ≠ encode i) : CommandStep i p d u (setOvr u) d
  /-- The launch of an instance that is not BUSY. -/
  | launch (hb : u.busy = false) : CommandStep i p d u (launch (encode i) (guardsOf i p u) u) d
  /-- The completion. -/
  | finish (u' : Instance) (d' : Nat) (hb : u.busy = true) (hc : u.cmdl = encode i) (hg : guardsOf i p u = none)
    (he : effectOf i d u = some (u', d')) : CommandStep i p d u (finish u') d'

/-- A command's step replaces the instance addressed and counts the bytes drawn; it changes nothing else. -/
theorem exec_commandStep {i : Instr} {s t : State} {u : Instance} (hs : selected s = some u) (he : exec i s = .next t) :
    ∃ v d, t = { setSelected s v with draws := d } ∧ CommandStep i s.params s.draws u v d := by
  have stands : s = { setSelected s u with draws := s.draws } := (setSelected_self hs).symm
  rw [exec_selected hs] at he
  obtain rfl := Host.Outcome.next.inj he
  split_ifs with hr hb hc
  · exact ⟨u, s.draws, stands, .stands⟩
  · rcases complete_cases (guardsOf i s.params u) (effectOf i) s u with hsame | ⟨u', d, hg, heff, hdone⟩
    · exact ⟨u, s.draws, hsame.trans stands, .stands⟩
    · exact ⟨finish u', d, hdone, .finish u' d hb hc hg heff⟩
  · exact ⟨setOvr u, s.draws, rfl, .ignored hb hc⟩
  · exact ⟨_, s.draws, rfl, .launch (by simpa using hb)⟩

/-- A launch, whether ignored, refused or accepted, leaves IRQ_EN, the reset input, CFG and OVR. -/
theorem launch_frame (w : Word) (g : Option ErrCode) (u : Instance) :
    (launch w g u).irqEn = u.irqEn ∧ (launch w g u).inReset = u.inReset ∧ (launch w g u).cfg = u.cfg
      ∧ (launch w g u).ovr = u.ovr := by
  rcases launch_cases w g u with ⟨-, -, h⟩ | ⟨-, c, -, h⟩ | ⟨-, -, h⟩ <;> rw [h] <;> exact ⟨rfl, rfl, rfl, rfl⟩

theorem errByte_ne_zero (c : ErrCode) : errByte c ≠ 0#8 := by cases c <;> decide

/-- No launch clears ERR: a refusal puts a code there that is not 0. -/
theorem launch_err_ne_zero {w : Word} {g : Option ErrCode} {u : Instance} (h : u.err ≠ 0#8) :
    (launch w g u).err ≠ 0#8 := by
  rcases launch_cases w g u with ⟨-, -, hl⟩ | ⟨-, c, -, hl⟩ | ⟨-, -, hl⟩ <;> rw [hl]
  · exact h
  · exact errByte_ne_zero c
  · exact h

section
variable {i : Instr} {p : Params} {d d' : Nat} {u v : Instance} (h : CommandStep i p d u v d')
include h

/-- No command writes IRQ_EN or the reset input, and only WIPEALL writes CFG. -/
theorem commandStep_registers : v.irqEn = u.irqEn ∧ v.inReset = u.inReset ∧ (i ≠ .wipeall → v.cfg = u.cfg) := by
  cases h with
  | stands => exact ⟨rfl, rfl, fun _ => rfl⟩
  | ignored => exact ⟨rfl, rfl, fun _ => rfl⟩
  | launch =>
    obtain ⟨hirq, hreset, hcfg, -⟩ := launch_frame (encode i) (guardsOf i p u) u
    exact ⟨hirq, hreset, fun _ => hcfg⟩
  | finish u' d' hb hc hg he =>
    obtain ⟨hirq, hreset, -, hcfg, -⟩ := effect_frame he
    exact ⟨hirq, hreset, hcfg⟩

/-- While BUSY only the completions of CLRERR and WIPEALL write ERR. -/
theorem commandStep_err_of_busy (hb : u.busy = true) (hwipe : i ≠ .wipeall) (hclr : i ≠ .clrerr) : v.err = u.err := by
  cases h with
  | stands => rfl
  | ignored => rfl
  | launch hidle => exact absurd hb (by simp [hidle])
  | finish u' d' hb hc hg he =>
    obtain ⟨-, -, -, -, hkeep, -⟩ := effect_frame he
    exact (hkeep hwipe hclr).1

/-- OVR is written by the ignored launch and by the completions of CLRERR and WIPEALL only. -/
theorem commandStep_ovr (hq : u.busy = false ∨ (u.cmdl = encode i ∧ i ≠ .wipeall ∧ i ≠ .clrerr)) : v.ovr = u.ovr := by
  cases h with
  | stands => rfl
  | ignored hb hc =>
    rcases hq with hidle | ⟨hcmd, -⟩
    · exact absurd hb (by simp [hidle])
    · exact absurd hcmd hc
  | launch =>
    obtain ⟨-, -, -, hovr⟩ := launch_frame (encode i) (guardsOf i p u) u
    exact hovr
  | finish u' d' hb hc hg he =>
    rcases hq with hidle | ⟨-, hwipe, hclr⟩
    · exact absurd hb (by simp [hidle])
    · obtain ⟨-, -, -, -, hkeep, -⟩ := effect_frame he
      exact (hkeep hwipe hclr).2

/-- ERR goes from a code to 0 at the completions of CLRERR and WIPEALL only (R116). -/
theorem commandStep_clears_err (hu : u.err ≠ 0#8) (hv : v.err = 0#8) : i = .clrerr ∨ i = .wipeall := by
  cases h with
  | stands => exact absurd hv hu
  | ignored => exact absurd hv hu
  | launch => exact absurd hv (launch_err_ne_zero hu)
  | finish u' d' hb hc hg he =>
    obtain ⟨-, -, -, -, hkeep, -⟩ := effect_frame he
    by_contra hi
    obtain ⟨hclr, hwipe⟩ := not_or.1 hi
    exact hu ((hkeep hwipe hclr).1.symm.trans hv)

end

/-! ## The completion without a draw, and the launches ignored (R40, R221) -/

/-- The completion of a command that makes no draw. -/
theorem exec_completes_noDraw {i : Instr} {s : State} {u u' : Instance} (h : InFlight i s u)
    (hg : guardsOf i s.params u = none) (he : effectOf i s.draws u = some (u', s.draws)) :
    exec i s = .next (completed s u') :=
  exec_completes h hg he

/-- A command other than a recovery command, asked of a halted instance (R221 (b)). -/
theorem exec_halted {i : Instr} {s : State} {u : Instance} (ha : Addressed s u) (hb : u.busy = false)
    (herr : u.err ≠ 0#8) (hi : encode i ∉ recoveryWords) : exec i s = .next s := by
  obtain ⟨hs, hr⟩ := ha
  have hgate : (halted u && !recoveryWords.contains (encode i)) = true := by simp [halted, herr, hi]
  have hignored : launch (encode i) (guardsOf i s.params u) u = u := if_pos hgate
  rw [exec_launch hs hr hb, hignored, setSelected_self hs]

/-- A command asked of an instance with another one in flight (R221 (a)). -/
theorem exec_whileBusy {i : Instr} {s : State} {u : Instance} (ha : Addressed s u) (hb : u.busy = true)
    (hc : u.cmdl ≠ encode i) : exec i s = .next (setSelected s (setOvr u)) := by
  obtain ⟨hs, hr⟩ := ha
  simp [exec_selected hs, hr, hb, hc]

/-! ## LDR (R112) -/

/-- A guard that fails hides those after it (R223). -/
theorem firstFailing_cons (g : Option ErrCode) (rest : List (Option ErrCode)) :
    firstFailing (g :: rest) = g.or (firstFailing rest) := by
  cases g <;> rfl

/-- The form LDR.r. -/
def ldrOf : BigReg → Instr
  | .n => .ldrN
  | .e => .ldrE
  | .d => .ldrD
  | .p => .ldrP
  | .q => .ldrQ
  | .iqmp => .ldrIqmp
  | .a => .ldrA
  | .x => .ldrX

theorem guardsOf_ldrOf (r : BigReg) (p : Params) (u : Instance) : guardsOf (ldrOf r) p u = guardLdr r p u := by
  cases r <;> rfl

theorem effectOf_ldrOf (r : BigReg) (d : Nat) (u : Instance) :
    effectOf (ldrOf r) d u = some ({ u with regs := writeReg u.regs r (os2ip u.ibuf), ibuf := [] }, d) := by
  cases r <;> rfl

/-- A number of more than KMAX bytes is refused first, and then a zero modulus. -/
theorem guardLdr_eq (r : BigReg) (p : Params) (u : Instance) :
    guardLdr r p u
      = if p.kmax < kbytes (ibufNumber u) then some .len
        else if r = .n ∧ ibufNumber u = 0 then some .zeroMod else none := by
  simp only [guardLdr, firstFailing_cons, firstFailing_nil]
  by_cases hlen : p.kmax < kbytes (ibufNumber u)
  · simp [require, hlen, not_le.2 hlen]
  · rw [if_neg hlen, require_eq_none_iff.2 (decide_eq_true (not_lt.1 hlen))]
    by_cases hzero : r = .n ∧ ibufNumber u = 0 <;> simp [require, hzero]

/-- Only a modulus may not be 0. -/
theorem ldrGuard_of_ne (r : BigReg) (hr : r ≠ .n) (p : Params) (u : Instance) : LdrGuard p u (guardLdr r p u) := by
  simp [LdrGuard, guardLdr_eq, ibufNumber, hr]

/-- The completion of LDR.r. -/
theorem exec_ldrOf (r : BigReg) {s : State} {u : Instance} (h : InFlight (ldrOf r) s u)
    (hk : kbytes (os2ip u.ibuf) ≤ s.params.kmax) (hn : r = .n → os2ip u.ibuf ≠ 0) :
    exec (ldrOf r) s
      = .next (completed s { u with regs := writeReg u.regs r (os2ip u.ibuf), ibuf := [] }) :=
  exec_completes_noDraw h ((guardsOf_ldrOf r _ u).trans (guardLdr_eq_none_iff.2 ⟨hk, hn⟩)) (effectOf_ldrOf r _ u)

/-! ## WIPEALL (R117) -/

/-- Of the reset state WIPEALL leaves out CMDL, DONE, IRQ_EN and the level of the reset input. -/
theorem finish_effectWipeall (u : Instance) :
    finish (effectWipeall u)
      = { Instance.reset with cmdl := u.cmdl, done := true, irqEn := u.irqEn, inReset := u.inReset } := rfl

/-- A completion replaces the instance addressed by its finished effect. -/
theorem completed_eq_setSelected (s : State) (u' : Instance) : completed s u' = setSelected s (finish u') := rfl

/-- The completion of WIPEALL. -/
theorem exec_wipeall {s : State} {u : Instance} (h : InFlight .wipeall s u) :
    exec .wipeall s
      = .next (setSelected s { Instance.reset with cmdl := encode .wipeall, done := true, irqEn := u.irqEn }) := by
  obtain ⟨⟨-, hr⟩, -, hc⟩ := id h
  rw [exec_completes_noDraw (u' := effectWipeall u) h rfl rfl, completed_eq_setSelected, finish_effectWipeall, hc, hr]
  rfl

end Sys2Proof.Machine

open Sys2Proof Sys2Proof.Machine

/-- Settles O57: a step of a command replaces the instance addressed, by one of the four outcomes of `CommandStep`. -/
theorem commandsKeepEverythingElse : Obligations.CommandsKeepEverythingElse := by
  unfold Obligations.CommandsKeepEverythingElse
  intro i s t u hs he
  obtain ⟨v, d, rfl, hstep⟩ := exec_commandStep hs he
  obtain ⟨hirq, hreset, hcfg⟩ := commandStep_registers hstep
  exact ⟨v, selected_setSelected s u v hs, hirq, hreset, hcfg, commandStep_err_of_busy hstep, commandStep_ovr hstep,
    rfl, rfl, rfl, rfl, setSelected_other s v⟩

/-- Settles O23: NOP's effect is the instance as it is, and its word is no recovery command's. -/
theorem nopCommand : Obligations.NopCommand := by
  unfold Obligations.NopCommand
  have hword : encode .nop ∉ recoveryWords := by decide
  exact ⟨by decide, fun _ _ => rfl, hword, fun _ _ h => exec_completes_noDraw h rfl rfl,
    fun _ _ ha hb herr => exec_halted ha hb herr hword⟩

/-- Settles O24: the eight forms are one command with the register as its parameter. -/
theorem ldrCommand : Obligations.LdrCommand := by
  unfold Obligations.LdrCommand
  refine ⟨by decide, fun p u => ⟨?_, ?_⟩, fun s u hk => ⟨fun h hn => exec_ldrOf .n h hk fun _ => hn, ?_⟩⟩
  · simp [guardsOf, guardLdr_eq, ibufNumber]
  · exact ⟨ldrGuard_of_ne .e nofun p u, ldrGuard_of_ne .d nofun p u, ldrGuard_of_ne .p nofun p u,
      ldrGuard_of_ne .q nofun p u, ldrGuard_of_ne .iqmp nofun p u, ldrGuard_of_ne .a nofun p u,
      ldrGuard_of_ne .x nofun p u⟩
  · exact ⟨fun h => exec_ldrOf .e h hk nofun, fun h => exec_ldrOf .d h hk nofun, fun h => exec_ldrOf .p h hk nofun,
      fun h => exec_ldrOf .q h hk nofun, fun h => exec_ldrOf .iqmp h hk nofun, fun h => exec_ldrOf .a h hk nofun,
      fun h => exec_ldrOf .x h hk nofun⟩

/-- Settles O26: WIPEK's effect is the absent register file. -/
theorem wipekCommand : Obligations.WipekCommand := by
  unfold Obligations.WipekCommand
  exact ⟨by decide, by decide, fun _ _ => rfl, fun _ _ h => exec_completes_noDraw h rfl rfl⟩

/-- Settles O27: each command's effect empties its buffer. -/
theorem clearBufferCommands : Obligations.ClearBufferCommands := by
  unfold Obligations.ClearBufferCommands
  exact ⟨by decide, by decide, by decide, by decide, fun _ _ => ⟨rfl, rfl⟩,
    fun _ _ => ⟨fun h => exec_completes_noDraw h rfl rfl, fun h => exec_completes_noDraw h rfl rfl⟩⟩

/-- Settles O28: CLRERR's effect is `clearErr`, and no other outcome of a command's step takes a code to 0 but
WIPEALL's. -/
theorem clrerrCommand : Obligations.ClrerrCommand := by
  unfold Obligations.ClrerrCommand
  refine ⟨by decide, by decide, fun _ _ => rfl, fun _ _ h => exec_completes_noDraw h rfl rfl, ?_⟩
  intro i s t u v hs he hv hu hzero
  obtain ⟨v', d, rfl, hstep⟩ := exec_commandStep hs he
  obtain rfl : v' = v := Option.some.inj ((selected_setSelected s u v' hs).symm.trans hv)
  exact commandStep_clears_err hstep hu hzero

/-- Settles O29: the effects WIPEALL joins cover every field but CMDL, DONE and IRQ_EN. -/
theorem wipeallCommand : Obligations.WipeallCommand := by
  unfold Obligations.WipeallCommand
  exact ⟨by decide, by decide, fun _ _ => rfl, fun _ _ h => exec_wipeall h, fun _ _ ha hb hc => exec_whileBusy ha hb hc⟩

end

section
/-!
PROOFS. The RSA exponentiator (41_rsa_exponentiator.md): `CrtModpow` and its law, the blinding candidates, and the
commands PUBOP, CRTPOW and PRIVOP.
-/

namespace Sys2Proof.Machine

/-! ## `CrtModpow` (R133) -/

theorem crtPartial_eq (base exp s : Nat) : crtPartial base exp s = base ^ (exp % (s - 1)) % s := modpow_eq _ _ _

theorem crtPartial_lt (base exp : Nat) {s : Nat} (hs : 0 < s) : crtPartial base exp s < s :=
  crtPartial_eq base exp s ▸ Nat.mod_lt _ hs

theorem crtModpow_lt (base exp p q u : Nat) {n : Nat} (hn : 1 ≤ n) : crtModpow base exp n p q u < n := Nat.mod_lt _ hn

/-- Raising the first partial result by p makes the subtraction non-negative, the second being below p. -/
theorem le_crtRaise {x y p : Nat} (h : y ≤ p) : y ≤ crtRaise x y p := by
  unfold crtRaise
  split <;> omega

theorem crtRaise_modEq (x y p : Nat) : crtRaise x y p ≡ x [MOD p] := by
  unfold crtRaise
  split
  · exact Nat.add_modEq_right
  · rfl

section
variable (base exp u : Nat) {p q : Nat} (hq : 2 ≤ q) (hqp : q < p)
include hq hqp

theorem crtPartial_le_crtRaise :
    crtPartial base exp q ≤ crtRaise (crtPartial base exp p) (crtPartial base exp q) p :=
  le_crtRaise ((crtPartial_lt base exp (by omega)).le.trans hqp.le)

/-- The second partial result and the product are digits of the result to the base q, so when n = p * q the sum needs no
reduction of its own. -/
theorem crtModpow_mul_eq :
    crtModpow base exp (p * q) p q u = crtPartial base exp q + crtDiff base exp p q * u * q % (p * q) := by
  have hlow : crtPartial base exp q < q := crtPartial_lt base exp (by omega)
  have hhigh : crtDiff base exp p q * u % p + 1 ≤ p := Nat.mod_lt _ (by omega)
  have hsum : crtPartial base exp q + crtDiff base exp p q * u * q % (p * q) < p * q := by
    have hdigits := Nat.mul_le_mul_right q hhigh
    rw [add_one_mul] at hdigits
    rw [Nat.mul_mod_mul_right]
    omega
  rw [crtModpow, ← Nat.add_mod_mod, Nat.mod_eq_of_lt hsum]

end

/-! ## The CRT law (R135) -/

/-- The case R135 excepts for the prime s: the reduced exponent is 0, the exponent is not, and s divides the base. -/
def CrtExcepted (base exp s : Nat) : Prop := s ∣ base ∧ 0 < exp ∧ exp % (s - 1) = 0

/-- Fermat's little theorem as the exponent reduction of R133, outside the excepted case. -/
theorem pow_mod_pred_modEq {base exp s : Nat} (hs : s.Prime) (h : ¬ CrtExcepted base exp s) :
    base ^ (exp % (s - 1)) ≡ base ^ exp [MOD s] := by
  by_cases hdvd : s ∣ base
  · have hzero {k : Nat} (hk : k ≠ 0) : base ^ k ≡ 0 [MOD s] := Nat.modEq_zero_iff_dvd.2 (dvd_pow hdvd hk)
    rcases Nat.eq_zero_or_pos exp with rfl | hpos
    · rw [Nat.zero_mod]
    · have hred : exp % (s - 1) ≠ 0 := fun h0 => h ⟨hdvd, hpos, h0⟩
      exact (hzero hred).trans (hzero hpos.ne').symm
  · have hfermat : base ^ (s - 1) ≡ 1 [MOD s] := by
      rw [← Nat.totient_prime hs]
      exact Nat.ModEq.pow_totient ((hs.coprime_iff_not_dvd.2 hdvd).symm)
    calc base ^ (exp % (s - 1)) = 1 ^ (exp / (s - 1)) * base ^ (exp % (s - 1)) := by rw [one_pow, one_mul]
      _ ≡ (base ^ (s - 1)) ^ (exp / (s - 1)) * base ^ (exp % (s - 1)) [MOD s] :=
        ((hfermat.pow _).mul_right _).symm
      _ = base ^ exp := by rw [← pow_mul, ← pow_add, Nat.div_add_mod]

theorem crtPartial_modEq {base exp s : Nat} (hs : s.Prime) (h : ¬ CrtExcepted base exp s) :
    crtPartial base exp s ≡ base ^ exp [MOD s] := by
  rw [crtPartial_eq]
  exact (Nat.mod_modEq _ _).trans (pow_mod_pred_modEq hs h)

/-- Modulo q the product vanishes and the second partial result is left. -/
theorem crtModpow_modEq_right (base exp p q u : Nat) :
    crtModpow base exp (p * q) p q u ≡ crtPartial base exp q [MOD q] :=
  calc crtModpow base exp (p * q) p q u
      ≡ crtPartial base exp q + crtDiff base exp p q * u * q [MOD q] := (Nat.mod_modEq _ _).of_mul_left p
    _ ≡ crtPartial base exp q [MOD q] := Nat.add_mul_mod_self_right _ _ _

/-- Modulo p the factor u * q is 1, and the second partial result cancels against the difference. -/
theorem crtModpow_modEq_left (base exp : Nat) {p q u : Nat} (hq : 2 ≤ q) (hqp : q < p) (hu : u * q % p = 1) :
    crtModpow base exp (p * q) p q u ≡ crtPartial base exp p [MOD p] := by
  have hone : u * q ≡ 1 [MOD p] := hu.trans (Nat.mod_eq_of_lt (by omega)).symm
  calc crtModpow base exp (p * q) p q u
      ≡ crtPartial base exp q + crtDiff base exp p q * u * q [MOD p] := (Nat.mod_modEq _ _).of_mul_right q
    _ = crtPartial base exp q + crtDiff base exp p q * (u * q) := by rw [mul_assoc]
    _ ≡ crtPartial base exp q + crtDiff base exp p q * 1 [MOD p] := (hone.mul_left _).add_left _
    _ = crtRaise (crtPartial base exp p) (crtPartial base exp q) p := by
      rw [mul_one]
      exact Nat.add_sub_cancel' (crtPartial_le_crtRaise base exp hq hqp)
    _ ≡ crtPartial base exp p [MOD p] := crtRaise_modEq _ _ _

/-- Numbers that agree modulo two different primes agree modulo their product. -/
theorem modEq_mul_of_primes {x y p q : Nat} (hp : p.Prime) (hq : q.Prime) (hqp : q < p) (hxp : x ≡ y [MOD p])
    (hxq : x ≡ y [MOD q]) : x ≡ y [MOD p * q] :=
  (Nat.modEq_and_modEq_iff_modEq_mul ((Nat.coprime_primes hp hq).2 hqp.ne')).1 ⟨hxp, hxq⟩

/-- The CRT law. -/
theorem crtModpow_eq_pow {base exp p q u : Nat} (hp : p.Prime) (hq : q.Prime) (hqp : q < p) (hu : u * q % p = 1)
    (hbp : ¬ CrtExcepted base exp p) (hbq : ¬ CrtExcepted base exp q) :
    crtModpow base exp (p * q) p q u = base ^ exp % (p * q) := by
  have hlaw : crtModpow base exp (p * q) p q u ≡ base ^ exp [MOD p * q] :=
    modEq_mul_of_primes hp hq hqp ((crtModpow_modEq_left base exp hq.two_le hqp hu).trans (crtPartial_modEq hp hbp))
      ((crtModpow_modEq_right base exp p q u).trans (crtPartial_modEq hq hbq))
  rw [← hlaw, Nat.mod_eq_of_lt (crtModpow_lt _ _ _ _ _ (Nat.mul_pos hp.pos hq.pos))]

/-! ## The key invariants at work (R24, R143) -/

section
variable {s e d : Nat} (hs3 : 3 ≤ s) (hed : e * d % (s - 1) = 1 % (s - 1))
include hs3 hed

/-- For an odd prime the product of the exponents is 1 modulo s - 1, so it is not 0. -/
theorem exponents_mod_pred_ne_zero : e * d % (s - 1) ≠ 0 := by
  rw [hed, Nat.mod_eq_of_lt (by omega)]
  exact one_ne_zero

/-- The exponent d reduces to no 0, so a power to d is never in the excepted case. -/
theorem not_crtExcepted_privateExponent (base : Nat) : ¬ CrtExcepted base d s := by
  rintro ⟨-, -, hzero⟩
  exact exponents_mod_pred_ne_zero hs3 hed (by rw [Nat.mul_mod, hzero, mul_zero, Nat.zero_mod])

/-- The exponent e undoes d modulo a prime, whether or not it divides the base. -/
theorem pow_exponents_modEq (hs : s.Prime) (a : Nat) : a ^ (e * d) ≡ a [MOD s] := by
  have hnot : ¬ CrtExcepted a (e * d) s := fun ⟨_, _, hzero⟩ => exponents_mod_pred_ne_zero hs3 hed hzero
  have hred : e * d % (s - 1) = 1 := hed.trans (Nat.mod_eq_of_lt (by omega))
  calc a ^ (e * d) ≡ a ^ (e * d % (s - 1)) [MOD s] := (pow_mod_pred_modEq hs hnot).symm
    _ = a := by rw [hred, pow_one]

end

/-- A prime factor of the modulus does not divide a number coprime to it, which is so never in the excepted case. -/
theorem not_crtExcepted_of_coprime {r n s : Nat} (exp : Nat) (hs : s.Prime) (hsn : s ∣ n) (hr : Nat.Coprime r n) :
    ¬ CrtExcepted r exp s := fun ⟨hdvd, _⟩ => hs.one_lt.ne' (Nat.eq_one_of_dvd_coprimes hr hdvd hsn)

section
variable {n e d p q iqmp : Nat} (hkey : KeyInvariants n e d p q iqmp) (hp : p.Prime) (hq : q.Prime) (hq3 : 3 ≤ q)
include hkey hp hq hq3

/-- The exponent e undoes d modulo n. -/
theorem pow_exponents_modEq_modulus (a : Nat) : a ^ (e * d) ≡ a [MOD n] := by
  obtain ⟨rfl, hep, heq, hqp, -⟩ := hkey
  exact modEq_mul_of_primes hp hq hqp (pow_exponents_modEq (by omega) hep hp a) (pow_exponents_modEq hq3 heq hq a)

/-- `CrtModpow` with the exponent d is the power. -/
theorem crtModpow_privateExponent (base : Nat) : crtModpow base d n p q iqmp = base ^ d % n := by
  obtain ⟨rfl, hep, heq, hqp, hinv⟩ := hkey
  exact crtModpow_eq_pow hp hq hqp hinv (not_crtExcepted_privateExponent (by omega) hep base)
    (not_crtExcepted_privateExponent hq3 heq base)

omit hq3 in
/-- The encryption of a blinding factor by CRT is the power. -/
theorem crtModpow_blinding {r : Nat} (hr : Nat.Coprime r n) : crtModpow r e n p q iqmp = r ^ e % n := by
  obtain ⟨rfl, -, -, hqp, hinv⟩ := hkey
  exact crtModpow_eq_pow hp hq hqp hinv (not_crtExcepted_of_coprime e hp (dvd_mul_right p q) hr)
    (not_crtExcepted_of_coprime e hq (dvd_mul_left q p) hr)

/-- The power to d takes the encrypted blinding factor back to the factor itself, which its inverse removes. -/
theorem privopResult_eq {a r rInv : Nat} (hr : Nat.Coprime r n) (hinv : r * rInv % n = 1 % n) :
    privopResult n e d p q iqmp a r rInv = a ^ d % n := by
  have hblind : privopBlind n e p q iqmp a r ≡ a * r ^ e [MOD n] := by
    rw [privopBlind, modmul, privopEnc, crtModpow_blinding hkey hp hq hr]
    exact (Nat.mod_modEq _ _).trans ((Nat.mod_modEq _ _).mul_left a)
  have hpower : privopPower n e d p q iqmp a r ≡ a ^ d * r [MOD n] :=
    calc privopPower n e d p q iqmp a r
        = privopBlind n e p q iqmp a r ^ d % n := crtModpow_privateExponent hkey hp hq hq3 _
      _ ≡ privopBlind n e p q iqmp a r ^ d [MOD n] := Nat.mod_modEq _ _
      _ ≡ (a * r ^ e) ^ d [MOD n] := hblind.pow d
      _ = a ^ d * r ^ (e * d) := by rw [mul_pow, pow_mul]
      _ ≡ a ^ d * r [MOD n] := (pow_exponents_modEq_modulus hkey hp hq hq3 r).mul_left _
  have hresult : privopPower n e d p q iqmp a r * rInv ≡ a ^ d [MOD n] :=
    calc privopPower n e d p q iqmp a r * rInv
        ≡ a ^ d * r * rInv [MOD n] := hpower.mul_right rInv
      _ = a ^ d * (r * rInv) := mul_assoc _ _ _
      _ ≡ a ^ d * 1 [MOD n] := Nat.ModEq.mul_left _ hinv
      _ = a ^ d := mul_one _
  exact hresult

end

/-! ## The blinding candidates (R138 to R140) -/

/-- The byte that holds bit m of candidate t. -/
theorem kdfSlice_getD (d a start : Nat) {len i : Nat} (hi : i < len) :
    (kdfSlice d a start len).getD i 0#8 = kdfStream d a (start + i) := by
  rw [List.getD_eq_getElem?_getD, kdfSlice_getElem? d a start len i hi, Option.getD_some]

theorem candOfBytes_eq_sum (nb : Nat) (s : Bytes) :
    candOfBytes nb s
      = ∑ m ∈ Finset.range nb, ((s.getD (m / 8) 0#8).toNat / 2 ^ (m % 8) % 2) * 2 ^ (nb - 1 - m) := rfl

theorem cand_lt (n d a t : Nat) : cand n d a t < 2 ^ bitcount n := candOfBytes_lt _ _

/-- A candidate that is not acceptable in R140's own terms. -/
theorem accept_eq_false_iff (c n : Nat) : accept c n = false ↔ ¬ (0 < c ∧ c < n ∧ Nat.Coprime c n) := by
  rw [← accept_iff, Bool.not_eq_true]

/-- With an acceptable candidate the search ends, and the factor it ends at has an inverse. -/
theorem exists_blindingIndex {n d a : Nat}
    (h : ∃ t, 0 < cand n d a t ∧ cand n d a t < n ∧ Nat.Coprime (cand n d a t) n) :
    ∃ t rInv, blindingIndex n d a = some t ∧ modinv (cand n d a t) n = some rInv ∧ Nat.Coprime (cand n d a t) n
      ∧ cand n d a t * rInv % n = 1 % n := by
  obtain ⟨j, hj⟩ := h
  have hsome : blindingIndex n d a ≠ none := fun hnone =>
    (accept_eq_false_iff _ _).1 ((blindingIndex_eq_none_iff n d a).1 hnone j) hj
  obtain ⟨t, ht⟩ := Option.ne_none_iff_exists'.1 hsome
  obtain ⟨hacc, -⟩ := (blindingIndex_eq_some_iff n d a t).1 ht
  obtain ⟨hpos, hlt, hcop⟩ := (accept_iff _ _).1 hacc
  obtain ⟨rInv, hinv, -, hone⟩ := modinv_coprime _ n (by omega) hcop
  exact ⟨t, rInv, ht, hinv, hcop, hone⟩

/-! ## The guards (R130, R131) -/

/-- The two guards of a command that reads registers and needs the key range, the registers first (R223). -/
theorem keyGuard_firstFailing {u : Instance} {rs : List BigReg} {present : Bool}
    (h : rs.all (fun r => (readReg u.regs r).isSome) = present) :
    KeyGuard u present (firstFailing [requireRegs u rs, requireKeyRange u]) := by
  rw [firstFailing_cons, firstFailing_cons, firstFailing_nil, requireRegs, h]
  constructor
  · rintro rfl
    rfl
  · rintro rfl n p q hn hp hq
    simp [requireKeyRange, hn, hp, hq, require, keyRangeOk, and_assoc]

/-- Present registers in the key range pass. -/
theorem keyGuard_passes {u : Instance} {answer : Option ErrCode} {n p q : Nat} (h : KeyGuard u true answer)
    (hn : u.regs.n = some n) (hp : u.regs.p = some p) (hq : u.regs.q = some q) (hrange : 2 ≤ n ∧ 2 ≤ q ∧ q < p) :
    answer = none :=
  (h.2 rfl n p q hn hp hq).trans (if_pos hrange)

/-! ## The completions (R132, R134, R142) -/

/-- A completion wipes whatever scratch the effect left (R37). -/
theorem completed_scratch (s : State) (u' : Instance) (sc : Scratch) :
    completed s { u' with scratch := sc } = completed s u' := rfl

section
variable {s : State} {u : Instance} {n e d p q iqmp a exp : Nat}

/-- The completion of PUBOP. -/
theorem exec_pubop (h : InFlight .pubop s u) (hn : u.regs.n = some n) (he : u.regs.e = some e)
    (ha : u.regs.a = some a) :
    exec .pubop s = .next (completed s { u with obuf := i2osp (a ^ e % n) (kbytes n) }) := by
  have hguard : guardsOf .pubop s.params u = none := by
    simp [guardsOf, guardPubop, requireRegs, readReg, hn, he, ha]
  refine exec_completes_noDraw h hguard (noDraw_eq_some_iff.2 ⟨?_, rfl⟩)
  simp only [effectPubop, hn, he, ha, modpow_eq]

variable (hn : u.regs.n = some n) (hp : u.regs.p = some p) (hq : u.regs.q = some q)
  (hiqmp : u.regs.iqmp = some iqmp) (ha : u.regs.a = some a) (hrange : 2 ≤ n ∧ 2 ≤ q ∧ q < p)
include hn hp hq hiqmp ha hrange

/-- The completion of CRTPOW.r as the command i. -/
theorem exec_crtpow {i : Instr} {r : BigReg} (hguards : guardsOf i = guardCrtpow r)
    (heffect : effectOf i = noDraw (effectCrtpow r)) (h : InFlight i s u) (hr : readReg u.regs r = some exp) :
    exec i s = .next (completed s { u with obuf := i2osp (crtModpow a exp n p q iqmp) (kbytes n) }) := by
  have hguard : guardsOf i s.params u = none := by
    have hpresent : [.n, .p, .q, .iqmp, .a, r].all (fun r => (readReg u.regs r).isSome) = true := by
      simp only [List.all_cons, List.all_nil, hr]
      simp [readReg, hn, hp, hq, hiqmp, ha]
    rw [hguards]
    exact keyGuard_passes (keyGuard_firstFailing hpresent) hn hp hq hrange
  rw [← completed_scratch s _ (crtScratch u.scratch a exp p q iqmp)]
  refine exec_completes_noDraw h hguard ?_
  rw [heffect, noDraw_eq_some_iff]
  exact ⟨by simp only [effectCrtpow, hn, hp, hq, hiqmp, ha, hr], rfl⟩

/-- The completion of PRIVOP with the blinding factor the search ends at. -/
theorem exec_privop {t rInv : Nat} (h : InFlight .privop s u) (he : u.regs.e = some e) (hd : u.regs.d = some d)
    (ht : blindingIndex n d a = some t) (hinv : modinv (cand n d a t) n = some rInv) :
    exec .privop s
      = .next (completed s
          { u with obuf := i2osp (privopResult n e d p q iqmp a (cand n d a t) rInv) (kbytes n) }) := by
  have hguard : guardsOf .privop s.params u = none :=
    keyGuard_passes (keyGuard_firstFailing (by simp [readReg, hn, he, hd, hp, hq, hiqmp, ha])) hn hp hq hrange
  rw [← completed_scratch s _ (privopScratch u.scratch n e d p q iqmp a t (cand n d a t) rInv)]
  refine exec_completes_noDraw h hguard (noDraw_eq_some_iff.2 ⟨?_, rfl⟩)
  simp only [effectPrivop, hn, he, hd, hp, hq, hiqmp, ha, ht, hinv]

end

/-! ## A PRIVOP without an acceptable candidate (R141) -/

/-- Without an acceptable candidate PRIVOP has no result. -/
theorem effectPrivop_eq_none {u : Instance} {n d a : Nat} (hn : u.regs.n = some n) (hd : u.regs.d = some d)
    (ha : u.regs.a = some a) (h : ∀ t, ¬ (0 < cand n d a t ∧ cand n d a t < n ∧ Nat.Coprime (cand n d a t) n)) :
    effectPrivop u = none := by
  have hnone : blindingIndex n d a = none :=
    (blindingIndex_eq_none_iff n d a).2 fun t => (accept_eq_false_iff _ _).2 (h t)
  unfold effectPrivop
  split
  next n' e d' p q iqmp a' hn' _ hd' _ _ _ ha' =>
    cases hn.symm.trans hn'
    cases hd.symm.trans hd'
    cases ha.symm.trans ha'
    simp only [hnone]
  next => rfl

/-- A completion whose result does not exist is not enabled. -/
theorem complete_of_effect_none {effect : Nat → Instance → Option (Instance × Nat)} {s : State} {u : Instance}
    (g : Option ErrCode) (h : effect s.draws u = none) : complete g effect s u = s := by
  rcases complete_cases g effect s u with hsame | ⟨u', d, -, heff, -⟩
  · exact hsame
  · cases h.symm.trans heff

/-- No other command has PRIVOP's word. -/
theorem eq_privop_of_encode_eq {i : Instr} (h : encode i = encode .privop) : i = .privop := by
  have hi : decode (encode i) = .ok .privop := by rw [h, decode_encode rfl]
  cases i
  case mgfx seedLen => cases (decode_encode_mgfx seedLen).symm.trans hi
  all_goals exact Decoded.ok.inj ((decode_encode rfl).symm.trans hi)

/-- While PRIVOP is in flight without a result, no move but the assertion of the reset input ends it or touches DONE,
CMDL, ERR or the registers. -/
theorem moved_privop_stays_busy {p : Params} {x : Option Turn} {k d d' : Nat} {u v : Instance} (hb : u.busy = true)
    (hcmd : u.cmdl = encode .privop) (hnone : effectPrivop u = none) (hx : x ≠ some (.reset k true))
    (hm : Moved p x k d u v d') :
    v.busy = true ∧ v.done = u.done ∧ v.cmdl = u.cmdl ∧ v.err = u.err ∧ v.regs = u.regs := by
  have hkept : u.busy = true ∧ u.done = u.done ∧ u.cmdl = u.cmdl ∧ u.err = u.err ∧ u.regs = u.regs :=
    ⟨hb, rfl, rfl, rfl, rfl⟩
  have hnotIdle (hidle : u.busy = false) : False := by simp [hb] at hidle
  cases hm with
  | same => exact hkept
  | pop => rwa [(dataOut_of_busy_or_empty (.inl hb)).2]
  | ovr => exact hkept
  | cfg w hr hidle => exact (hnotIdle hidle).elim
  | push w hr hidle => exact (hnotIdle hidle).elim
  | irqEn w hr hidle => exact (hnotIdle hidle).elim
  | launch i hr hidle => exact (hnotIdle hidle).elim
  | illegal w why hw hr hidle => exact (hnotIdle hidle).elim
  | finish i u' d' hr hb hc hg he =>
    obtain rfl : i = .privop := eq_privop_of_encode_eq (hc.symm.trans hcmd)
    cases hnone.symm.trans (noDraw_eq_some_iff.1 he).1
  | reset asserted hreset =>
    cases asserted with
    | true => exact absurd hreset hx
    | false => exact hkept

end Sys2Proof.Machine

open Sys2Proof Sys2Proof.Machine

/-- Settles O37: some candidate is accepted, its encryption is no excepted case of the CRT law, and its inverse removes
it from the result. -/
theorem privopLaw : Obligations.PrivopLaw := by
  unfold Obligations.PrivopLaw
  intro s u n e d p q iqmp a h hn he hd hp hq hiqmp ha hkey hpp hqp hq3 hcand
  obtain ⟨t, rInv, ht, hinv, hcop, hone⟩ := exists_blindingIndex hcand
  obtain ⟨hmul, -, -, hlt, -⟩ := id hkey
  have hrange : 2 ≤ n ∧ 2 ≤ q ∧ q < p := ⟨hmul ▸ hpp.two_le.trans (Nat.le_mul_of_pos_right p hqp.pos), hqp.two_le, hlt⟩
  rw [exec_privop hn hp hq hiqmp ha hrange h he hd ht hinv, privopResult_eq hkey hpp hqp hq3 hcop hone]

/-- Settles O38: the exponent e undoes d modulo n, for every a. -/
theorem pubopUndoesPrivop : Obligations.PubopUndoesPrivop := by
  unfold Obligations.PubopUndoesPrivop
  intro s u n e d p q iqmp a h hn he ha hkey hpp hqp hq3
  have hundo : (a ^ d % n) ^ e % n = a % n :=
    calc (a ^ d % n) ^ e % n = (a ^ d) ^ e % n := (Nat.pow_mod _ _ _).symm
      _ = a ^ (e * d) % n := by rw [← pow_mul, mul_comm]
      _ = a % n := pow_exponents_modEq_modulus hkey hpp hqp hq3 a
  rw [exec_pubop h hn he ha, hundo]

/-- Settles O36: modulo each prime the partial result is the power, and the two determine the result. -/
theorem crtLaw : Obligations.CrtLaw := by
  unfold Obligations.CrtLaw
  intro base exp p q u hp hq hqp hu h
  exact crtModpow_eq_pow hp hq hqp hu (h p (.inl rfl)) (h q (.inr rfl))

/-- Settles O31: the formula is the definition with its temporaries written out; when n = p * q the second partial
result is the low digit to the base q. -/
theorem crtModpowFormula : Obligations.CrtModpowFormula := by
  unfold Obligations.CrtModpowFormula
  intro base exp n p q u hn hq hqp
  refine ⟨?_, crtModpow_lt _ _ _ _ _ hn⟩
  rintro presult qresult rfl rfl
  rw [← crtPartial_eq, ← crtPartial_eq]
  exact ⟨rfl, crtPartial_le_crtRaise base exp hq hqp, fun hmul => hmul ▸ crtModpow_mul_eq base exp u hq hqp⟩

/-- Settles O30: the one guard asks for the three registers, and `modpow` is the power. -/
theorem pubopCommand : Obligations.PubopCommand := by
  unfold Obligations.PubopCommand
  refine ⟨by decide, fun p u => ?_, fun s u n e a h hn he ha => exec_pubop h hn he ha⟩
  simp [guardsOf, guardPubop, requireRegs, firstFailing_cons, require, readReg]

/-- Settles O32: SEL = 2 names no form of CRTPOW, and the two forms are one command with the exponent register as its
parameter. -/
theorem crtpowCommand : Obligations.CrtpowCommand := by
  unfold Obligations.CrtpowCommand
  refine ⟨by decide, by decide, by decide, fun p u => ⟨?_, ?_⟩, ?_⟩
  · exact keyGuard_firstFailing (by simp [readReg, Bool.and_assoc])
  · exact keyGuard_firstFailing (by simp [readReg, Bool.and_assoc])
  · intro s u n p q iqmp a exp hn hp hq hiqmp ha hn2 hq2 hqp
    exact ⟨fun h he => exec_crtpow hn hp hq hiqmp ha ⟨hn2, hq2, hqp⟩ (r := .e) rfl rfl h he,
      fun h hx => exec_crtpow hn hp hq hiqmp ha ⟨hn2, hq2, hqp⟩ (r := .x) rfl rfl h hx⟩

/-- Settles O33: the bits of the slice, each at its place in the stream. -/
theorem candidatesFollowTheStream : Obligations.CandidatesFollowTheStream := by
  unfold Obligations.CandidatesFollowTheStream
  intro n d a t
  refine ⟨?_, cand_lt n d a t, fun i => rfl⟩
  rw [cand, candOfBytes_eq_sum]
  refine Finset.sum_congr rfl fun m hm => ?_
  have hbyte : m / 8 < kbytes n := by
    rw [Finset.mem_range] at hm
    unfold kbytes
    omega
  rw [kdfSlice_getD d a _ hbyte, kbytes]

/-- Settles O34: the least acceptable candidate is the one the search ends at. -/
theorem privopCommand : Obligations.PrivopCommand := by
  unfold Obligations.PrivopCommand
  refine ⟨by decide, fun p u => keyGuard_firstFailing (by simp [readReg, Bool.and_assoc]), ?_⟩
  intro s u n e d p q iqmp a t r rInv h hn he hd hp hq hiqmp ha hn2 hq2 hqp hr hacc hleast hlt hone
  subst hr
  have ht : blindingIndex n d a = some t :=
    (blindingIndex_eq_some_iff n d a t).2
      ⟨(accept_iff _ _).2 hacc, fun j hj => (accept_eq_false_iff _ _).2 (hleast j hj)⟩
  have hinv : modinv (cand n d a t) n = some rInv := (modinv_eq_some_iff _ n rInv (by omega)).2 ⟨hlt, hone⟩
  exact exec_privop hn hp hq hiqmp ha ⟨hn2, hq2, hqp⟩ h he hd ht hinv

/-- Settles O35: the completion is not enabled, and the other moves touch nothing of it while BUSY but OVR and the level
of the reset input. -/
theorem privopWithoutCandidateStaysBusy : Obligations.PrivopWithoutCandidateStaysBusy := by
  unfold Obligations.PrivopWithoutCandidateStaysBusy
  constructor
  · intro s u n d a h hn hd ha hcand
    have hnone : effectOf .privop s.draws u = none := by
      rw [effectOf, noDraw, effectPrivop_eq_none hn hd ha hcand, Option.map_none]
    rw [exec_inFlight h, complete_of_effect_none _ hnone]
  · intro s t k u n d a hu hb hcmd hn hd ha hcand hturns hstep
    obtain ⟨hlt, -⟩ := List.getElem?_eq_some_iff.1 hu
    have hget : t.insts[k]? = some (t.insts[k]'((step_params hstep).2 ▸ hlt)) := List.getElem?_eq_getElem _
    obtain ⟨u', hu', hmoved⟩ := step_instance hstep hget
    obtain rfl : u' = u := Option.some.inj (hu'.symm.trans hu)
    have hhead : s.turns.head? ≠ some (.reset k true) := fun h => by
      obtain ⟨rest, hrest⟩ := List.head?_eq_some_iff.1 h
      exact hturns rest hrest
    refine ⟨_, hget, ?_⟩
    rcases hmoved with heq | hm
    · rw [heq]
      exact ⟨hb, rfl, rfl, rfl, rfl⟩
    · exact moved_privop_stays_busy hb hcmd (effectPrivop_eq_none hn hd ha hcand) hhead hm

end

section
/-!
PROOFS. The OAEP unit (42_oaep.md): `MgfXor`, the block and its two masks, and the commands MGFX and OAEPENC.
-/

namespace Sys2Proof.Machine

/-! ## Byte strings cut where they were joined (R7) -/

/-- A piece between two others is the slice between its ends. -/
theorem slice_eq_of_append {s a b c : Bytes} {i j : Nat} (hs : s = a ++ b ++ c) (ha : a.length = i)
    (hb : i + b.length = j) : slice s i j = b := by
  subst hs ha hb
  simp [slice]

/-- A last piece is the slice from its start. -/
theorem slice_append_right {a b : Bytes} {i j : Nat} (ha : a.length = i) (hb : i + b.length = j) :
    slice (a ++ b) i j = b :=
  slice_eq_of_append (c := []) (by simp) ha hb

/-! ## `MgfXor` (R171) -/

/-- The mask blocks cover the target. -/
theorem le_mgfBlocks_mul (h : HashAlg) (len : Nat) : len ≤ mgfBlocks h len * digestLen h := by
  have hceil : len ≤ digestLen h • (len ⌈/⌉ digestLen h) := le_smul_ceilDiv (digestLen_pos h)
  rwa [Nat.ceilDiv_eq_add_pred_div, smul_eq_mul, Nat.mul_comm] at hceil

/-- Byte i of the mask is byte `i mod H` of mask block `i div H`. -/
theorem mgfMask_getElem? (h : HashAlg) (seed : Bytes) {len i : Nat} (hi : i < len) :
    (mgfMask h seed len)[i]? = some ((mgfBlock h seed (i / digestLen h)).getD (i % digestLen h) 0#8) := by
  have hlen : ∀ c, (mgfBlock h seed c).length = digestLen h := by simp [mgfBlock]
  have hbyte : i % digestLen h < (mgfBlock h seed (i / digestLen h)).length :=
    (Nat.mod_lt i (digestLen_pos h)).trans_eq (hlen _).symm
  rw [mgfMask, List.getElem?_take_of_lt hi, flatMap_range_getElem? _ _ hlen _ _ (hi.trans_le (le_mgfBlocks_mul h len)),
    List.getD_eq_getElem _ _ hbyte, List.getElem?_eq_getElem hbyte]

/-- Byte i of `MgfXor` is the target's, masked. -/
theorem mgfXor_getElem? (h : HashAlg) (seed : Bytes) {target : Bytes} {i : Nat} (hi : i < target.length) :
    (mgfXor h seed target)[i]?
      = some (target.getD i 0#8 ^^^ (mgfBlock h seed (i / digestLen h)).getD (i % digestLen h) 0#8) := by
  rw [mgfXor, xorBytes, List.getElem?_zipWith, mgfMask_getElem? h seed hi, List.getElem?_eq_getElem hi,
    List.getD_eq_getElem _ _ hi]

/-- `MgfXor` is its own inverse. -/
@[simp] theorem mgfXor_mgfXor (h : HashAlg) (seed target : Bytes) :
    mgfXor h seed (mgfXor h seed target) = target := by
  rw [mgfXor, mgfXor_length]
  exact xorBytes_cancel target _ (by simp)

/-! ## The block before masking (R173) -/

/-- The zeros between the hash of the empty label and 0x01. -/
def oaepPadding (h : HashAlg) (k : Nat) (msg : Bytes) : Bytes := zeros (k - msg.length - 2 * digestLen h - 2)

@[simp] theorem oaepPadding_length (h : HashAlg) (k : Nat) (msg : Bytes) :
    (oaepPadding h k msg).length = k - msg.length - 2 * digestLen h - 2 := zeros_length _

/-- The data block as built: the hash of the empty label, zeros, 0x01, the message. -/
def oaepDb (h : HashAlg) (k : Nat) (msg : Bytes) : Bytes := hash h [] ++ oaepPadding h k msg ++ [0x01#8] ++ msg

theorem oaepBuild_eq (h : HashAlg) (k : Nat) (seed msg : Bytes) :
    oaepBuild h k seed msg = [0x00#8] ++ seed ++ oaepDb h k msg := by
  simp [oaepBuild, oaepDb, oaepPadding]

/-- The seed's bytes stand in the order drawn (R10). -/
theorem oaepBuild_getElem?_draw (h : HashAlg) (k drawn : Nat) (msg : Bytes) {i : Nat} (hi : i < digestLen h) :
    (oaepBuild h k (drawBytes drawn (digestLen h)) msg)[1 + i]? = some (Config.drawByte (drawn + i)) := by
  rw [oaepBuild_eq, List.append_assoc, List.getElem?_append_right (by simp), List.getElem?_append_left (by simpa)]
  simp [drawBytes, hi]

/-- The data block stands after 0x00 and the seed. -/
theorem framed_head_length {h : HashAlg} {seed : Bytes} (hseed : seed.length = digestLen h) :
    ([0x00#8] ++ seed).length = 1 + digestLen h := by
  rw [List.length_append, List.length_singleton, hseed]

section
variable {h : HashAlg} {k : Nat} {msg : Bytes} (hk : msg.length + 2 * digestLen h + 2 ≤ k)
include hk

theorem oaepDb_length : (oaepDb h k msg).length = k - digestLen h - 1 := by
  simp only [oaepDb, List.length_append, hash_length, oaepPadding_length, List.length_singleton]
  omega

/-- 0x00, a string of H bytes and a string of the data block's length are k bytes. -/
theorem framed_length {seed db : Bytes} (hseed : seed.length = digestLen h)
    (hdb : db.length = (oaepDb h k msg).length) : ([0x00#8] ++ seed ++ db).length = k := by
  rw [List.length_append, framed_head_length hseed, hdb, oaepDb_length hk]
  omega

theorem oaepBuild_length {seed : Bytes} (hseed : seed.length = digestLen h) : (oaepBuild h k seed msg).length = k := by
  rw [oaepBuild_eq]
  exact framed_length hk hseed rfl

end

/-! ## The two masks (R174) -/

section
variable {h : HashAlg} {seed db : Bytes} (hseed : seed.length = digestLen h)
include hseed

theorem oaepMaskDb_framed :
    oaepMaskDb h ([0x00#8] ++ seed ++ db) = [0x00#8] ++ seed ++ mgfXor h seed db := by
  rw [oaepMaskDb, List.take_left' (framed_head_length hseed), List.drop_left' (framed_head_length hseed),
    slice_eq_of_append rfl List.length_singleton (by rw [hseed])]

theorem oaepMaskSeed_framed :
    oaepMaskSeed h ([0x00#8] ++ seed ++ db) = [0x00#8] ++ mgfXor h db seed ++ db := by
  rw [oaepMaskSeed, List.drop_left' (framed_head_length hseed),
    slice_eq_of_append rfl List.length_singleton (by rw [hseed])]
  rfl

/-- The masked block: the data block masked with the seed, the seed with the masked data block. -/
theorem oaepEm_eq (k : Nat) (msg : Bytes) :
    oaepEm h k seed msg
      = [0x00#8] ++ mgfXor h (mgfXor h seed (oaepDb h k msg)) seed ++ mgfXor h seed (oaepDb h k msg) := by
  rw [oaepEm, oaepBuild_eq, oaepMaskDb_framed hseed, oaepMaskSeed_framed hseed]

end

section
variable {h : HashAlg} {k : Nat} {seed msg : Bytes} (hk : msg.length + 2 * digestLen h + 2 ≤ k)
  (hseed : seed.length = digestLen h)
include hk hseed

theorem oaepEm_length : (oaepEm h k seed msg).length = k := by
  rw [oaepEm_eq hseed]
  exact framed_length hk (by simp [hseed]) (by simp)

/-- The masked seed and the masked data block, read where the two fields lie. -/
theorem oaepEm_slices :
    slice (oaepEm h k seed msg) 1 (1 + digestLen h) = mgfXor h (mgfXor h seed (oaepDb h k msg)) seed
      ∧ slice (oaepEm h k seed msg) (1 + digestLen h) k = mgfXor h seed (oaepDb h k msg) := by
  rw [oaepEm_eq hseed]
  exact ⟨slice_eq_of_append rfl rfl (by rw [mgfXor_length, hseed]),
    slice_append_right (framed_head_length (by rw [mgfXor_length, hseed]))
      (by rw [mgfXor_length, oaepDb_length hk]; omega)⟩

end

/-- A string of k bytes that begins with 0x00 is a number below every modulus of k bytes (R175 (a)). -/
theorem os2ip_zero_cons_lt {s : Bytes} {n : Nat} (hn : n ≠ 0) (hs : (0x00#8 :: s).length = kbytes n) :
    os2ip (0x00#8 :: s) < n := by
  have hlen : s.length = kbytes n - 1 := by
    rw [← hs, List.length_cons, Nat.add_sub_cancel]
  calc os2ip (0x00#8 :: s) = os2ip s := by simp [os2ip_cons]
    _ < 256 ^ (kbytes n - 1) := hlen ▸ os2ip_lt s
    _ ≤ n := pow_kbytes_pred_le n hn

/-! ## The guards of MGFX and OAEPENC (R172, R174) -/

/-- A condition that fails answers its code, and one that holds leaves the answer to the guards after it (R223). -/
theorem firstFailing_require (c : Prop) [Decidable c] (e : ErrCode) (rest : List (Option ErrCode)) :
    firstFailing (require (decide c) e :: rest) = if c then firstFailing rest else some e := by
  by_cases hc : c <;> simp [firstFailing_cons, require, hc]

/-- Without a hash ERR_CFG hides the other guards. -/
theorem firstFailing_requireHash (u : Instance) (rest : List (Option ErrCode)) :
    firstFailing (requireHash u :: rest) = if hashOfSel u.cfg.hsel = none then some .cfg else firstFailing rest := by
  cases hu : hashOfSel u.cfg.hsel <;> simp [firstFailing_cons, requireHash, cfgHash, require, hu]

/-- HSEL names a hash up to 3 (R13). -/
theorem hashOfSel_eq_none_iff : ∀ hsel : BitVec 4, hashOfSel hsel = none ↔ 3 < hsel.toNat := by decide

theorem guardMgfx_eq (S : Nat) (p : Params) (u : Instance) :
    guardMgfx S p u
      = if 3 < u.cfg.hsel.toNat then some .cfg else if u.ibuf.length < S then some .len else none := by
  rw [guardMgfx, firstFailing_requireHash, firstFailing_require, firstFailing_nil]
  simp only [hashOfSel_eq_none_iff, ← not_lt, ite_not]

theorem guardOaepenc_eq (p : Params) {u : Instance} {h : HashAlg}
    (hsel : hashOfSel u.cfg.hsel = none ∨ hashOfSel u.cfg.hsel = some h) :
    guardOaepenc p u
      = if hashOfSel u.cfg.hsel = none then some .cfg
        else if ¬ (u.regs.n.isSome ∧ u.regs.e.isSome) then some .noReg
        else if 0 < u.ibuf.length ∧ u.ibuf.length + 2 * digestLen h + 2 ≤ modulusBytes u then none
        else some .oaepLen := by
  rw [guardOaepenc, firstFailing_requireHash]
  rcases hsel with hnone | hsome
  · rw [if_pos hnone, if_pos hnone]
  · have hpresent : [BigReg.n, .e].all (fun r => (readReg u.regs r).isSome)
        = decide (u.regs.n.isSome ∧ u.regs.e.isSome) := by simp [readReg]
    rw [requireRegs, hpresent, firstFailing_require, requireOaepLen, cfgHash, hsome]
    simp only [← Bool.decide_and, firstFailing_require, firstFailing_nil, ite_not]

/-! ## The completions (R172, R174) -/

section
variable {s : State} {u : Instance} {h : HashAlg} (hsel : hashOfSel u.cfg.hsel = some h)
include hsel

/-- The completion of MGFX S. -/
theorem exec_mgfx {S : Nat} (hf : InFlight (.mgfx S) s u) (hS : S ≤ u.ibuf.length) :
    exec (.mgfx S) s
      = .next (completed s { u with obuf := mgfXor h (u.ibuf.take S) (u.ibuf.drop S), ibuf := [] }) := by
  have hguard : guardsOf (.mgfx S) s.params u = none := by
    have hhash : ¬ 3 < u.cfg.hsel.toNat := by simp [← hashOfSel_eq_none_iff, hsel]
    exact (guardMgfx_eq S s.params u).trans (by rw [if_neg hhash, if_neg (not_lt.2 hS)])
  rw [← completed_scratch s _
    { u.scratch with mgfBlock := mgfLast h (u.ibuf.take S) (u.ibuf.length - S) }]
  refine exec_completes_noDraw hf hguard (noDraw_eq_some_iff.2 ⟨?_, rfl⟩)
  simp only [effectMgfx, cfgHash, hsel]

/-- The completion of OAEPENC, with EM the masked block. -/
theorem exec_oaepenc {n e : Nat} {em : Bytes} (hf : InFlight .oaepenc s u) (hn : u.regs.n = some n)
    (he : u.regs.e = some e) (hpos : 0 < u.ibuf.length) (hk : u.ibuf.length + 2 * digestLen h + 2 ≤ kbytes n)
    (hem : oaepEm h (kbytes n) (drawBytes s.draws (digestLen h)) u.ibuf = em) :
    exec .oaepenc s
      = .next { completed s { u with obuf := i2osp (os2ip em ^ e % n) (kbytes n), ibuf := [] } with
          draws := s.draws + digestLen h } := by
  have hguard : guardsOf .oaepenc s.params u = none :=
    (guardOaepenc_eq s.params (.inr hsel)).trans (by simp [hsel, hn, he, hpos, hk, modulusBytes])
  rw [← completed_scratch s _
    { u.scratch with em := em, mgfBlock := mgfLast h (em.drop (1 + digestLen h)) (digestLen h) }]
  refine exec_completes hf hguard ?_
  simp only [effectOf, effectOaepenc, cfgHash, hsel, hn, he, modpow_eq, hem]

end

end Sys2Proof.Machine

open Sys2Proof Sys2Proof.Machine

/-- Settles O41: `MgfXor` masks the target byte by byte, and the mask is the blocks joined. -/
theorem mgfXorBytes : Obligations.MgfXorBytes := by
  unfold Obligations.MgfXorBytes
  exact fun h seed target => ⟨mgfXor_length h seed target, fun i hi => mgfXor_getElem? h seed hi⟩

/-- Settles O42: a seed length of 16 bits fits IMM16 uncut, and past its two guards the command masks the rest of
IBUF. -/
theorem mgfxCommand : Obligations.MgfxCommand := by
  unfold Obligations.MgfxCommand
  refine fun S => ⟨fun hS => ?_, guardMgfx_eq S, fun s u h hf hsel hS => exec_mgfx hsel hf hS⟩
  have himm : S % 0x10000 = S := Nat.mod_eq_of_lt hS
  simp [encode, assemble, himm]

/-- Settles O43: each field is a piece of the concatenation, and the lengths before it add up to its offset. -/
theorem oaepBlockLayout : Obligations.OaepBlockLayout := by
  unfold Obligations.OaepBlockLayout
  intro h k seed msg hseed hk
  have hlen := oaepBuild_length hk hseed
  refine ⟨hlen, ?_, ?_, ?_, ?_, ?_, ?_, ?_, ?_⟩
  · exact slice_eq_of_append (a := []) (c := seed ++ oaepDb h k msg) (by rw [oaepBuild_eq]; rfl) rfl rfl
  · exact slice_eq_of_append (oaepBuild_eq h k seed msg) rfl (by rw [hseed])
  · rintro drawn i rfl hi
    exact oaepBuild_getElem?_draw h k drawn msg hi
  · exact slice_eq_of_append (a := [0x00#8] ++ seed) (c := oaepPadding h k msg ++ [0x01#8] ++ msg)
      (by simp [oaepBuild, oaepPadding]) (framed_head_length hseed) (by rw [hash_length]; omega)
  · exact slice_eq_of_append (a := [0x00#8] ++ seed ++ hash h []) (c := [0x01#8] ++ msg) (by simp [oaepBuild])
      (by simp [hseed]; omega) (by rw [zeros_length]; omega)
  · exact slice_eq_of_append (a := [0x00#8] ++ seed ++ hash h [] ++ oaepPadding h k msg) (c := msg) rfl
      (by simp [hseed]; omega) (by rw [List.length_singleton]; omega)
  · exact slice_append_right (a := [0x00#8] ++ seed ++ hash h [] ++ oaepPadding h k msg ++ [0x01#8])
      (by simp [hseed]; omega) (by omega)
  · rw [slice_length _ _ _ hlen.ge]
    omega

/-- Settles O44: the block the completion encrypts is 0x00 and R174's two masked fields. -/
theorem oaepencCommand : Obligations.OaepencCommand := by
  unfold Obligations.OaepencCommand
  refine ⟨by decide, fun p u h hsel => guardOaepenc_eq p hsel, ?_⟩
  rintro s u h n e db maskedDb maskedSeed hf hsel hn he hpos hk rfl rfl rfl
  exact exec_oaepenc hsel hf hn he hpos hk (oaepEm_eq (drawBytes_length _ _) _ _)

/-- Settles O45: the block begins with 0x00, and each mask, taken again with the same input, undoes itself. -/
theorem oaepBlockIsRecoverable : Obligations.OaepBlockIsRecoverable := by
  unfold Obligations.OaepBlockIsRecoverable
  intro h k seed msg maskedSeed maskedDb hseed hk hmaskedSeed hmaskedDb
  have hlen := oaepEm_length hk hseed
  obtain ⟨hseedSlice, hdbSlice⟩ := oaepEm_slices hk hseed
  rw [hseedSlice] at hmaskedSeed
  rw [hdbSlice] at hmaskedDb
  subst hmaskedSeed hmaskedDb
  refine ⟨hlen, ?_, fun n hn hkn => ?_, mgfXor_mgfXor _ _ _, ?_⟩
  · rw [oaepEm_eq hseed]
    rfl
  · subst hkn
    rw [oaepEm_eq hseed] at hlen ⊢
    exact os2ip_zero_cons_lt hn hlen
  · rw [mgfXor_mgfXor, oaepBuild_eq]

end

section
/-!
PROOFS. The HMAC unit (43_hmac.md): the effective key, the five MAC commands, who touches the MAC context, and the MAC
law.
-/

namespace Sys2Proof.Machine

/-! ## The pad blocks (R193) -/

/-- A string of B bytes, each the key's byte, or zero past its end, XOR the pad byte, is the pad block. -/
theorem eq_padBlock {h : HashAlg} {pad : Byte} {key s : Bytes} (hlen : s.length = blockLen h)
    (hbyte : ∀ i < blockLen h, s[i]? = some (key.getD i 0x00#8 ^^^ pad)) : s = padBlock h pad key := by
  apply List.ext_getElem?
  intro i
  by_cases hi : i < blockLen h
  · rw [hbyte i hi, padBlock, List.getElem?_map, List.getElem?_range hi, Option.map_some]
  · rw [List.getElem?_eq_none (by omega), List.getElem?_eq_none (by simp [padBlock]; omega)]

/-! ## The guards (R194 to R197) -/

theorem guardHmkey_eq (p : Params) {u : Instance} {h : HashAlg}
    (hsel : hashOfSel u.cfg.hsel = none ∨ hashOfSel u.cfg.hsel = some h) :
    guardHmkey p u
      = if hashOfSel u.cfg.hsel = none then some .cfg
        else if digestLen h < u.cfg.outlen.toNat then some .cfg
        else if u.mac.state = .live then some .hmState else none := by
  rw [guardHmkey, firstFailing_requireHash]
  rcases hsel with hnone | hsome
  · rw [if_pos hnone, if_pos hnone]
  · have hfree : (u.mac.state != .live) = decide (¬ u.mac.state = .live) := by simp [bne, beq_eq_decide]
    rw [requireOutlen, cfgHash, hsome, hfree]
    simp only [firstFailing_require, firstFailing_nil, ← not_lt, ite_not]

theorem guardHmstart_eq (p : Params) (u : Instance) :
    guardHmstart p u = if u.mac.state = .idle then none else some .hmState := by
  rw [guardHmstart, beq_eq_decide, firstFailing_require, firstFailing_nil]

theorem guardLive_eq (p : Params) (u : Instance) :
    guardLive p u = if u.mac.state = .live then none else some .hmState := by
  rw [guardLive, beq_eq_decide, firstFailing_require, firstFailing_nil]

/-! ## The completions (R194 to R197) -/

/-- A completion wipes DIG (R37), so what its effect leaves there does not matter. -/
theorem completed_dig (s : State) (u : Instance) (dig : Bytes) :
    completed s { u with mac := { u.mac with dig := dig } } = completed s u := rfl

/-- Of bytes written to the front of DIG the first ones are read back. -/
theorem take_writeDig {dig s : Bytes} {n : Nat} (h : n ≤ s.length) : (writeDig dig s).take n = s.take n :=
  List.take_append_of_le_length h

section
variable {s : State} {u : Instance}

/-- The completion of HMKEY. -/
theorem exec_hmkey {h : HashAlg} (hf : InFlight .hmkey s u) (hsel : hashOfSel u.cfg.hsel = some h)
    (hlen : u.cfg.outlen.toNat ≤ digestLen h) (hstate : u.mac.state ≠ .live) :
    exec .hmkey s
      = .next (completed s
          { u with
            ibuf := []
            mac :=
              { u.mac with
                state := .idle
                hsel := h
                outlen := latchedOutlen h u.cfg.outlen
                outer := some { alg := h, absorbed := opadBlock h (effectiveKey h u.cfg.bugkey u.ibuf) }
                inner := some { alg := h, absorbed := ipadBlock h (effectiveKey h u.cfg.bugkey u.ibuf) } } }) := by
  have hguard : guardHmkey s.params u = none := guardHmkey_eq_none_iff.2 ⟨h, hsel, hlen, hstate⟩
  rw [← completed_scratch s _
    { u.scratch with
      effKey := effectiveKey h u.cfg.bugkey u.ibuf
      pads := opadBlock h (effectiveKey h u.cfg.bugkey u.ibuf) ++ ipadBlock h (effectiveKey h u.cfg.bugkey u.ibuf) }]
  refine exec_completes_noDraw hf hguard (noDraw_eq_some_iff.2 ⟨?_, rfl⟩)
  simp only [effectHmkey, cfgHash, hsel]
  rfl

/-- The completion of HMSTART. -/
theorem exec_hmstart {st : HashState} (hf : InFlight .hmstart s u) (hstate : u.mac.state = .idle)
    (hinner : u.mac.inner = some st) :
    exec .hmstart s = .next (completed s { u with mac := { u.mac with live := some st, state := .live } }) := by
  refine exec_completes_noDraw hf ((guardHmstart_eq_none_iff (p := s.params)).2 hstate)
    (noDraw_eq_some_iff.2 ⟨?_, rfl⟩)
  simp only [effectHmstart, hinner, hsClone_eq]

/-- The completion of HMUPD. -/
theorem exec_hmupd {st : HashState} (hf : InFlight .hmupd s u) (hstate : u.mac.state = .live)
    (hlive : u.mac.live = some st) :
    exec .hmupd s
      = .next (completed s
          { u with
            ibuf := []
            mac := { u.mac with live := some { st with absorbed := st.absorbed ++ u.ibuf } } }) := by
  refine exec_completes_noDraw hf ((guardLive_eq_none_iff (p := s.params)).2 hstate)
    (noDraw_eq_some_iff.2 ⟨?_, rfl⟩)
  simp only [effectHmupd, hlive, hsUpdate]

/-- The completion of HMFINAL: the inner digest passes through DIG to the outer hash, and the MAC through DIG to
OBUF. -/
theorem exec_hmfinal {live outer : HashState} (hf : InFlight .hmfinal s u) (hstate : u.mac.state = .live)
    (hlive : u.mac.live = some live) (houter : u.mac.outer = some outer) (halgL : live.alg = u.mac.hsel)
    (halgO : outer.alg = u.mac.hsel) (hlen : u.mac.outlen ≤ digestLen u.mac.hsel) :
    exec .hmfinal s
      = .next (completed s
          { u with
            obuf := (hash u.mac.hsel (outer.absorbed ++ hash u.mac.hsel live.absorbed)).take u.mac.outlen
            mac := { u.mac with live := none, state := .idle } }) := by
  have hinner : (writeDig u.mac.dig (hash u.mac.hsel live.absorbed)).take (digestLen u.mac.hsel)
      = hash u.mac.hsel live.absorbed := by
    rw [take_writeDig (hash_length _ _).ge, List.take_of_length_le (hash_length _ _).le]
  have hout (dig m : Bytes) : (writeDig dig (hash u.mac.hsel m)).take u.mac.outlen
      = (hash u.mac.hsel m).take u.mac.outlen := take_writeDig (hlen.trans_eq (hash_length _ m).symm)
  rw [← completed_dig s _ (writeDig (writeDig u.mac.dig (hash u.mac.hsel live.absorbed))
    (hash u.mac.hsel (outer.absorbed ++ hash u.mac.hsel live.absorbed)))]
  refine exec_completes_noDraw hf ((guardLive_eq_none_iff (p := s.params)).2 hstate)
    (noDraw_eq_some_iff.2 ⟨?_, rfl⟩)
  simp only [effectHmfinal, hlive, houter, hsFinal, hsUpdate, hsClone_eq, halgL, halgO, hinner, hout]

end

/-! ## What a command's step does to the MAC context (R190, R199) -/

/-- The step of a command, seen from the instance addressed after it. -/
theorem commandStep_of_exec {i : Instr} {s t : State} {u v : Instance} (hs : selected s = some u)
    (he : exec i s = .next t) (hv : selected t = some v) : CommandStep i s.params s.draws u v t.draws := by
  obtain ⟨v', d, rfl, hstep⟩ := exec_commandStep hs he
  obtain rfl : v' = v := Option.some.inj ((selected_setSelected s u v' hs).symm.trans hv)
  exact hstep

/-- A launch, whether ignored, refused or accepted, writes no field of the MAC context but DIG. -/
theorem launch_mac (w : Word) (g : Option ErrCode) (u : Instance) :
    ∃ dig, (launch w g u).mac = { u.mac with dig := dig } := by
  rcases launch_cases w g u with ⟨-, -, h⟩ | ⟨-, c, -, h⟩ | ⟨-, -, h⟩ <;> rw [h]
  · exact ⟨u.mac.dig, rfl⟩
  · exact ⟨digZero, rfl⟩
  · exact ⟨u.mac.dig, rfl⟩

/-- The state of R199's table in which the completion of command i leaves a context that was in state `st`. -/
def macStateAfter : Instr → HmState → HmState
  | .hmkey, _ => .idle
  | .hmstart, _ => .live
  | .hmfinal, _ => .idle
  | .hmwipe, _ => .unkeyed
  | .wipeall, _ => .unkeyed
  | _, st => st

theorem effect_macState {i : Instr} {d d' : Nat} {u u' : Instance} (he : effectOf i d u = some (u', d')) :
    u'.mac.state = macStateAfter i u.mac.state := by
  cases i
  case hmkey | hmstart | hmupd | hmfinal =>
    have heff := (noDraw_eq_some_iff.1 he).1
    simp only [effectHmkey, effectHmstart, effectHmupd, effectHmfinal] at heff
    split at heff <;> cases heff
    rfl
  case hmwipe | wipeall => cases he; rfl
  all_goals
    obtain ⟨-, -, -, -, -, -, hmac⟩ := effect_frame he
    exact congrArg MacCtx.state (hmac rfl)

section
variable {i : Instr} {p : Params} {d d' : Nat} {u v : Instance} (h : CommandStep i p d u v d')
include h

/-- Only the completion of a MAC command or of WIPEALL writes the MAC context, DIG apart. -/
theorem commandStep_mac (hq : touchesMac i = false ∨ u.busy = false ∨ v.busy = true) :
    ∃ dig, v.mac = { u.mac with dig := dig } := by
  cases h with
  | stands => exact ⟨u.mac.dig, rfl⟩
  | ignored hb hc => exact ⟨u.mac.dig, rfl⟩
  | launch hb => exact launch_mac _ _ u
  | finish u' d' hb hc hg he =>
    have htouch : touchesMac i = false := hq.resolve_right (by simp [hb])
    obtain ⟨-, -, -, -, -, -, hmac⟩ := effect_frame he
    exact ⟨digZero, by rw [finish_mac, hmac htouch]⟩

/-- A step that ends a command is its completion, with the guards holding. -/
theorem commandStep_completes (hb : u.busy = true) (hv : v.busy = false) :
    guardsOf i p u = none ∧ v.mac.state = macStateAfter i u.mac.state := by
  cases h with
  | stands => exact absurd hb (by simp [hv])
  | ignored hb hc => exact absurd hb (by simpa using hv)
  | launch hidle => exact absurd hb (by simp [hidle])
  | finish u' d' hb hc hg he => exact ⟨hg, (effect_macState he : u'.mac.state = _)⟩

end

/-! ## The MAC law (R200) -/

/-- What a completion leaves in the instance addressed. -/
theorem eq_finish_of_completed {i : Instr} {s t : State} {u u' v : Instance} (hs : selected s = some u)
    (hdone : exec i s = .next (completed s u')) (he : exec i s = .next t) (hv : selected t = some v) :
    v = finish u' := by
  obtain rfl := Host.Outcome.next.inj (hdone.symm.trans he)
  exact Option.some.inj (hv.symm.trans (selected_setSelected s u (finish u') hs))

/-- A well-formed command in flight in a legal instance has its guards holding (R36). -/
theorem guards_of_inFlight {i : Instr} {s : State} {u : Instance} (hseq : SequencerOk s.params u)
    (hf : InFlight i s u) (hi : i.wf = true) : guardsOf i s.params u = none := by
  obtain ⟨-, hb, hc⟩ := hf
  obtain ⟨j, hj, hg⟩ := exists_command_of_busy hseq hb
  rw [hc, decode_encode hi] at hj
  cases hj
  exact hg

theorem keyed_congr {h : HashAlg} {key dig : Bytes} {u v : Instance} (hm : v.mac = { u.mac with dig := dig })
    (hu : Keyed h key u) : Keyed h key v := by
  rw [Keyed, hm]
  exact hu

theorem computing_congr {h : HashAlg} {key m dig : Bytes} {u v : Instance} (hm : v.mac = { u.mac with dig := dig })
    (hu : Computing h key m u) : Computing h key m v := by
  rw [Computing, hm]
  exact hu

section
variable {h : HashAlg} {key m : Bytes} {s t : State} {u v : Instance} (hs : selected s = some u)
  (hv : selected t = some v)
include hs hv

/-- HMKEY keys the context; no computation was in progress in it. -/
theorem hmkey_keyed (hmac : MacOk u.mac) (hseq : SequencerOk s.params u) (hf : InFlight .hmkey s u)
    (hsel : hashOfSel u.cfg.hsel = some h) (he : exec .hmkey s = .next t) :
    Keyed h (effectiveKey h u.cfg.bugkey u.ibuf) v := by
  have hguard : guardHmkey s.params u = none := guards_of_inFlight hseq hf rfl
  obtain ⟨h', hsel', hlen, hstate⟩ := guardHmkey_eq_none_iff.1 hguard
  obtain rfl : h' = h := Option.some.inj (hsel'.symm.trans hsel)
  obtain ⟨-, -, hlive, -⟩ := hmac
  have hnone : u.mac.live = none := by_contra fun hne => hstate (hlive.2 hne)
  rw [eq_finish_of_completed hs (exec_hmkey hf hsel hlen hstate) he hv]
  exact ⟨rfl, rfl, hnone, rfl, rfl⟩

/-- HMSTART begins a computation over the empty message. -/
theorem hmstart_computing (hu : Keyed h key u) (hf : InFlight .hmstart s u) (he : exec .hmstart s = .next t) :
    Computing h key [] v := by
  obtain ⟨hstate, hhsel, -, houter, hinner⟩ := hu
  rw [eq_finish_of_completed hs (exec_hmstart hf hstate hinner) he hv]
  exact ⟨rfl, hhsel, by simp, houter, hinner⟩

/-- HMUPD extends the message by IBUF. -/
theorem hmupd_computing (hu : Computing h key m u) (hf : InFlight .hmupd s u) (he : exec .hmupd s = .next t) :
    Computing h key (m ++ u.ibuf) v := by
  obtain ⟨hstate, hhsel, hlive, houter, hinner⟩ := hu
  rw [eq_finish_of_completed hs (exec_hmupd hf hstate hlive) he hv]
  exact ⟨hstate, hhsel, by simp, houter, hinner⟩

/-- HMFINAL gives the MAC and leaves the context keyed. -/
theorem hmfinal_keyed (hmac : MacOk u.mac) (hu : Computing h key m u) (hf : InFlight .hmfinal s u)
    (he : exec .hmfinal s = .next t) :
    Keyed h key v ∧ v.obuf = (hash h (opadBlock h key ++ hash h (ipadBlock h key ++ m))).take u.mac.outlen := by
  obtain ⟨hstate, rfl, hlive, houter, hinner⟩ := hu
  obtain ⟨-, -, -, -, -, -, -, hbounds⟩ := hmac
  have hlen : u.mac.outlen ≤ digestLen u.mac.hsel := (hbounds (by simp [hstate])).2
  rw [eq_finish_of_completed hs (exec_hmfinal hf hstate hlive houter rfl rfl hlen) he hv]
  exact ⟨⟨rfl, rfl, rfl, houter, hinner⟩, rfl⟩

/-- A command that does not touch the MAC context keeps a keyed context keyed and a computation as it was. -/
theorem other_keeps_macLaw {i : Instr} (hi : touchesMac i = false) (he : exec i s = .next t) :
    (Keyed h key u → Keyed h key v) ∧ (Computing h key m u → Computing h key m v) := by
  obtain ⟨dig, hm⟩ := commandStep_mac (commandStep_of_exec hs he hv) (.inl hi)
  exact ⟨keyed_congr hm, computing_congr hm⟩

end

end Sys2Proof.Machine

open Sys2Proof Sys2Proof.Machine

/-- Settles O52: each MAC command's completion takes the context to the law's next stage, with the guards and the
bound on HM_OUTLEN given by the invariant; every other step leaves it there. -/
theorem macLaw : Obligations.MacLaw := by
  unfold Obligations.MacLaw
  intro h key m s t u v ⟨_, _, hinsts⟩ hs hv
  obtain ⟨-, -, hmac, -, hseq, -⟩ := hinsts u (selected_mem s u hs)
  refine ⟨?_, fun hu hf he => hmstart_computing hs hv hu hf he, fun hu hf he => hmupd_computing hs hv hu hf he,
    fun hu hf he => hmfinal_keyed hs hv hmac hu hf he, fun i hi he => other_keeps_macLaw hs hv hi he⟩
  rintro hf hsel rfl he
  exact hmkey_keyed hs hv hmac hseq hf hsel he

/-- Settles O48: the bytes the statement names are the pad blocks of the effective key. -/
theorem hmkeyCommand : Obligations.HmkeyCommand := by
  unfold Obligations.HmkeyCommand
  refine ⟨by decide, fun p u h hsel => guardHmkey_eq p hsel, ?_⟩
  rintro s u h key opad ipad hf hsel hlen hstate rfl hopadLen hipadLen hopad hipad
  rw [eq_padBlock hopadLen hopad, eq_padBlock hipadLen hipad]
  exact exec_hmkey hf hsel hlen hstate

/-- Settles O50: DIG holds the inner digest, then the outer one, and its first HM_OUTLEN bytes go to OBUF. -/
theorem hmfinalCommand : Obligations.HmfinalCommand := by
  unfold Obligations.HmfinalCommand
  exact ⟨by decide, guardLive_eq, fun s u live outer hf hstate hlive houter halgL halgO hlen =>
    exec_hmfinal hf hstate hlive houter halgL halgO hlen⟩

/-- Settles O53: the guards are conditions on HM_STATE, and a step that ends a command leaves the state of
`macStateAfter`. -/
theorem macTransitions : Obligations.MacTransitions := by
  unfold Obligations.MacTransitions
  refine ⟨fun p u => ?_, fun i s t u v hs he hv => ?_, rfl⟩
  · simp only [guardsOf, guardHmstart_eq, guardLive_eq]
    refine ⟨fun hu => by simp [hu], fun hu => by simp [hu], fun hu => by simp [hu], fun h hsel hlen => ?_, trivial⟩
    rw [guardHmkey_eq p (.inr hsel), if_neg (by simp [hsel]), if_neg (not_lt.2 hlen)]
  · have hstep := commandStep_of_exec hs he hv
    refine ⟨fun hb hidle => ?_, fun hq => ?_⟩
    · obtain ⟨hg, hafter⟩ := commandStep_completes hstep hb hidle
      refine ⟨?_, ?_, ?_, ?_, ?_⟩
      · rintro rfl
        obtain ⟨-, -, -, hstate⟩ := (guardHmkey_eq_none_iff (p := s.params)).1 hg
        exact ⟨hstate, hafter⟩
      · rintro rfl
        exact ⟨(guardHmstart_eq_none_iff (p := s.params)).1 hg, hafter⟩
      · rintro rfl
        have hlive := (guardLive_eq_none_iff (p := s.params)).1 hg
        exact ⟨hlive, hafter.trans hlive⟩
      · rintro rfl
        exact ⟨(guardLive_eq_none_iff (p := s.params)).1 hg, hafter⟩
      · rintro (rfl | rfl) <;> exact hafter
    · obtain ⟨dig, hmac⟩ := commandStep_mac hstep hq
      rw [hmac]

/-- Settles O54: only the completion of a command that touches the MAC context writes it, DIG apart. -/
theorem otherCommandsKeepTheMacContext : Obligations.OtherCommandsKeepTheMacContext := by
  unfold Obligations.OtherCommandsKeepTheMacContext
  intro i s t u v hs hv he hq
  obtain ⟨dig, hmac⟩ := commandStep_mac (commandStep_of_exec hs he hv) (hq.imp_right .inl)
  rw [hmac]
  exact ⟨rfl, rfl, rfl, rfl, rfl, rfl⟩

/-- Settles O47 (the bare name is the model's function): the cases of the definition, and the bound H <= B. -/
theorem effectiveKeyCases : Obligations.EffectiveKey := by
  unfold Obligations.EffectiveKey
  refine fun h key => ⟨?_, fun hlong => ?_, fun hshort => ?_, fun bug => effectiveKey_length_le h bug key⟩
  · simp [effectiveKey, ← List.take_eq_take_min]
  · simp [effectiveKey, hlong]
  · simp [effectiveKey, not_lt.2 hshort]

/-- Settles O49: both guards are conditions on HM_STATE; a clone is the state itself, and an update appends. -/
theorem hmstartAndHmupdCommands : Obligations.HmstartAndHmupdCommands := by
  unfold Obligations.HmstartAndHmupdCommands
  exact ⟨by decide, by decide, fun p u => ⟨guardHmstart_eq p u, guardLive_eq p u⟩,
    fun s u st => ⟨fun hf hstate hinner => exec_hmstart hf hstate hinner,
      fun hf hstate hlive => exec_hmupd hf hstate hlive⟩⟩

/-- Settles O51: HMWIPE's effect is the unkeyed context. -/
theorem hmwipeCommand : Obligations.HmwipeCommand := by
  unfold Obligations.HmwipeCommand
  exact ⟨by decide, by decide, fun _ _ => rfl, fun _ _ hf => exec_completes_noDraw hf rfl rfl⟩

end

section
/-!
PROOFS. Exceptions (60_exceptions.md): the refusal and the halt gate (R221, R224, R225), the interrupt level (R228),
what the host can see (R229, R232), and the instances' independence (R230).
-/

namespace Sys2Proof.Machine

/-! ## The halt (R220) -/

theorem halted_eq_true_iff {u : Instance} : halted u = true ↔ u.err ≠ 0#8 := by simp [halted]

theorem halted_eq_false_iff {u : Instance} : halted u = false ↔ u.err = 0#8 := by simp [halted]

/-- A halted instance ignores the launch of any word but a recovery command's (R221 (b)). -/
theorem launch_ignored {w : Word} {u : Instance} (g : Option ErrCode) (herr : u.err ≠ 0#8) (hw : w ∉ recoveryWords) :
    launch w g u = u := by
  have hgate : (halted u && !recoveryWords.contains w) = true := by simp [halted_eq_true_iff.2 herr, hw]
  exact if_pos hgate

/-- The halt gate is open for a command that can be launched. -/
theorem gate_open_of_canLaunch {i : Instr} {s : State} {u : Instance} (h : CanLaunch i s u) :
    halted u = false ∨ encode i ∈ recoveryWords := by
  obtain ⟨-, -, hgate⟩ := h
  exact hgate.imp_left halted_eq_false_iff.2

/-! ## The recovery commands (R221 (b), R225) -/

/-- The six recovery commands, in the order R221 names them. -/
def recoveryCommands : List Instr := [.clrerr, .clrib, .clrob, .wipek, .hmwipe, .wipeall]

theorem map_encode_recoveryCommands : recoveryCommands.map encode = recoveryWords := by decide

theorem wf_of_mem_recoveryCommands : ∀ i ∈ recoveryCommands, i.wf = true := by decide

/-- A recovery command has no guard that can fail (R227). -/
theorem guardsOf_recoveryCommand {i : Instr} (hi : i ∈ recoveryCommands) (p : Params) (u : Instance) :
    guardsOf i p u = none := by
  fin_cases hi <;> rfl

/-- A recovery word is a recovery command's, and decodes to it. -/
theorem exists_recoveryCommand {w : Word} (hw : w ∈ recoveryWords) :
    ∃ i ∈ recoveryCommands, encode i = w ∧ decode w = .ok i := by
  obtain ⟨i, hi, rfl⟩ := List.mem_map.1 (map_encode_recoveryCommands ▸ hw)
  exact ⟨i, hi, rfl, decode_encode (wf_of_mem_recoveryCommands i hi)⟩

/-- No command but the six has a recovery word, an MGFX with a seed length of more than 16 bits included. -/
theorem mem_recoveryCommands_of_word {i : Instr} (h : encode i ∈ recoveryWords) : i ∈ recoveryCommands := by
  obtain ⟨j, hj, -, hdec⟩ := exists_recoveryCommand h
  cases i
  case mgfx seedLen =>
    obtain rfl := Decoded.ok.inj ((decode_encode_mgfx seedLen).symm.trans hdec)
    simp [recoveryCommands] at hj
  all_goals exact Decoded.ok.inj ((decode_encode rfl).symm.trans hdec) ▸ hj

/-! ## ERR keeps its code (R225) -/

/-- The launch of a halted instance keeps the code, unless a guard fails for a recovery word. -/
theorem launch_err_of_halted {w : Word} {g : Option ErrCode} {u : Instance} (herr : u.err ≠ 0#8)
    (hg : w ∈ recoveryWords → g = none) : (launch w g u).err = u.err := by
  rcases launch_cases w g u with ⟨-, -, h⟩ | ⟨hopen, c, hc, -⟩ | ⟨-, -, h⟩
  · rw [h]
  · have hw : w ∈ recoveryWords := hopen.resolve_left (by simp [halted_eq_true_iff.2 herr])
    cases (hg hw).symm.trans hc
  · rw [h]

theorem popOut_err (u : Instance) : (popOut u).err = u.err := by
  rcases popOut_cases u with h | ⟨-, h⟩ <;> rw [h]

theorem pushIn_err (p : Params) (v : Word) (u : Instance) : (pushIn p v u).err = u.err := by
  unfold pushIn
  split <;> rfl

/-- An effect keeps ERR, or is CLRERR's or WIPEALL's and clears it. -/
theorem effect_err {i : Instr} {d d' : Nat} {u u' : Instance} (he : effectOf i d u = some (u', d')) :
    u'.err = u.err ∨ u'.err = 0#8 := by
  obtain ⟨-, -, -, -, hkeep, hclear, -⟩ := effect_frame he
  by_cases hi : i = .wipeall ∨ i = .clrerr
  · exact .inr (hclear hi).1
  · obtain ⟨hwipe, hclr⟩ := not_or.1 hi
    exact .inl (hkeep hwipe hclr).1

/-- No move puts a second code into ERR. -/
theorem moved_err {p : Params} {x : Option Turn} {k d d' : Nat} {u v : Instance} (herr : u.err ≠ 0#8)
    (hm : Moved p x k d u v d') : v.err = u.err ∨ v.err = 0#8 := by
  cases hm with
  | same => exact .inl rfl
  | pop => exact .inl (popOut_err u)
  | ovr => exact .inl rfl
  | cfg => exact .inl rfl
  | push w => exact .inl (pushIn_err p w u)
  | irqEn => exact .inl rfl
  | launch i =>
    exact .inl (launch_err_of_halted herr fun hw => guardsOf_recoveryCommand (mem_recoveryCommands_of_word hw) p u)
  | illegal w why hwhy =>
    refine .inl (launch_err_of_halted herr fun hw => ?_)
    obtain ⟨i, -, -, hi⟩ := exists_recoveryCommand hw
    cases hwhy.symm.trans hi
  | finish i u' d' hr hb hc hg he => rw [finish_err]; exact effect_err he
  | reset asserted =>
    cases asserted with
    | true => exact .inr rfl
    | false => exact .inl rfl

/-! ## What the host can see (R229, R232) -/

/-- A register's presence, its value hidden. -/
def hideValue (v : Option Nat) : Option Nat := if v.isSome then some 0 else none

@[simp] theorem isSome_hideValue (v : Option Nat) : (hideValue v).isSome = v.isSome := by
  cases v <;> rfl

/-- The instance with everything hidden that no read shows: the values of the registers but the modulus, the bytes of
IBUF, the MAC context but its state, scratch and the level of the reset input. -/
def hideSecrets (u : Instance) : Instance :=
  { u with
    regs :=
      { n := u.regs.n
        e := hideValue u.regs.e
        d := hideValue u.regs.d
        p := hideValue u.regs.p
        q := hideValue u.regs.q
        iqmp := hideValue u.regs.iqmp
        a := hideValue u.regs.a
        x := hideValue u.regs.x }
    ibuf := zeros u.ibuf.length
    mac := { MacCtx.unkeyed with state := u.mac.state }
    scratch := Scratch.zero
    inReset := false }

theorem statusWord_hideSecrets (u : Instance) : statusWord (hideSecrets u) = statusWord u := by
  simp [statusWord, presBits, kpriv, kpub, hideSecrets]

theorem irqLevel_hideSecrets (u : Instance) : irqLevel (hideSecrets u) = irqLevel u := rfl

/-- Of the words only STATUS and IN_CNT look at what is hidden, at presence and length. -/
theorem readWord_hideSecrets (p : Params) (u : Instance) (off : Nat) :
    readWord p (hideSecrets u) off = readWord p u off := by
  unfold readWord
  split
  case h_2 => exact statusWord_hideSecrets u
  case h_5 => simp [hideSecrets]
  all_goals rfl

theorem hostView_hideSecrets (p : Params) (u : Instance) : hostView p (hideSecrets u) = hostView p u := by
  simp only [hostView, readWord_hideSecrets, irqLevel_hideSecrets]

end Sys2Proof.Machine

open Sys2Proof Sys2Proof.Machine

/-- Settles O17: (a) the gate of BUSY; (b) a legal word that is no recovery command's meets the halt gate in `exec`, an
illegal one in the launch; a recovery command passes the gate and has no guard. -/
theorem ignoredWrites : Obligations.IgnoredWrites := by
  unfold Obligations.IgnoredWrites
  refine ⟨fun s k off w rest u hnext hr hb hoff => ?_, fun s k w rest u hnext hr hb herr hw => ?_,
    fun s k w rest u hnext hr hb hw => ?_⟩
  · obtain ⟨hstep, hs⟩ := step_nextWrite hnext
    have hwritable : writableOffset off = true := by rcases hoff with rfl | rfl | rfl | rfl <;> rfl
    exact hstep.trans (hostWrite_busy w hs hr hb hwritable)
  · obtain ⟨-, hs⟩ := step_nextWrite hnext
    cases hdec : decode w with
    | ok i =>
      have hword : encode i ∉ recoveryWords := encode_of_decode hdec ▸ hw
      exact (stepLaunchesTheDecodedCommand s k w rest u i hnext hr hb hdec).trans
        (exec_halted ⟨hs, hr⟩ hb herr hword)
    | illegal why =>
      rw [step_nextWrite_illegal hnext hr hb hdec, launch_ignored _ herr hw]
      exact congrArg Host.Outcome.next (setSelected_self hs)
  · obtain ⟨-, hs⟩ := step_nextWrite hnext
    obtain ⟨i, hi, rfl, hdec⟩ := exists_recoveryCommand hw
    have hcan : CanLaunch i (turnTo s k rest) u := ⟨⟨hs, hr⟩, hb, .inr hw⟩
    exact (stepLaunchesTheDecodedCommand s k _ rest u i hnext hr hb hdec).trans
      (acceptedLaunch i _ u hcan (guardsOf_recoveryCommand hi _ u))

/-- Settles O20: with the halt gate open, a failing guard makes the launch `raiseErr`; an illegal word is the refusal of
O3. -/
theorem refusalEntry : Obligations.RefusalEntry := by
  unfold Obligations.RefusalEntry
  refine ⟨fun i s u c hcan hg => ?_, ?_, by decide⟩
  · obtain ⟨⟨hs, hr⟩, hb, -⟩ := id hcan
    rw [exec_launch hs hr hb, hg, launch_refused c (gate_open_of_canLaunch hcan), raiseErr_eq_refusedWith _ c hb]
    rfl
  · obtain ⟨-, hrefused⟩ := legalExactlyWhenARowMatches
    exact hrefused

/-- Settles O22: a step moves one instance at most, and no move puts a second code into ERR. -/
theorem firstErrorCodeIsKept : Obligations.FirstErrorCodeIsKept := by
  unfold Obligations.FirstErrorCodeIsKept
  intro s t k u v hstep hu hv herr
  obtain ⟨u', hu', hm⟩ := step_instance hstep hv
  obtain rfl : u' = u := Option.some.inj (hu'.symm.trans hu)
  rcases hm with rfl | hm
  · exact .inl rfl
  · exact moved_err herr hm

/-- Settles O58: a step that moves an instance replaces the one that `sel` names in the list. -/
theorem instancesShareNothing : Obligations.InstancesShareNothing := by
  unfold Obligations.InstancesShareNothing
  intro s t hstep
  obtain ⟨hparams, hlen⟩ := step_params hstep
  refine ⟨hparams, hlen, fun k hk => ?_⟩
  rcases step_cases hstep with rfl | ⟨rest, k', u, v, -, -, hinsts, -, hsel, -⟩
  · rfl
  · rw [hinsts, List.getElem?_set_ne (hsel ▸ hk.symm)]

/-- Settles O19: the level's `halted` is ERR != 0. -/
theorem interruptLevel : Obligations.InterruptLevel := by
  unfold Obligations.InterruptLevel
  intro u
  simp only [irqLevel, Bool.or_eq_true, Bool.and_eq_true, halted_eq_true_iff]

/-- Settles O60: what the host sees is the view of the instance with its secrets hidden, and the two instances differ in
hidden parts only. -/
theorem readsShowNoSecret : Obligations.ReadsShowNoSecret := by
  unfold Obligations.ReadsShowNoSecret
  intro p u v hn he hd hp hq hiqmp ha hx hibuf hobuf hcfg hirq hbusy hdone hovr herr hcmdl hmac
  have hsame : hideSecrets u = hideSecrets v := by
    simp only [hideSecrets, hideValue, hn, he, hd, hp, hq, hiqmp, ha, hx, hibuf, hobuf, hcfg, hirq, hbusy, hdone, hovr,
      herr, hcmdl, hmac]
  refine ⟨?_, fun off => ?_⟩
  · rw [← hostView_hideSecrets p u, hsame, hostView_hideSecrets]
  · rw [← readWord_hideSecrets p u, hsame, readWord_hideSecrets]

end

section
/-!
PROOFS. Reset and hazards (70_reset_and_hazards.md): the reset input (R250, R252).
-/

namespace Sys2Proof.Machine

/-- The platform drives the reset input of an instance that exists (R250). -/
theorem resetStep_eq {s : State} {u : Instance} (asserted : Bool) (hs : selected s = some u) :
    resetStep asserted s = .next (setSelected s (setReset asserted u)) := by
  unfold resetStep; rw [hs]

/-- What the next step makes of a turn of the reset input, whatever the instance is doing (R250, R252). -/
theorem step_reset {s : State} {k : Nat} {asserted : Bool} {rest : List Turn} {u : Instance}
    (h : s.turns = .reset k asserted :: rest) (hu : s.insts[k]? = some u) :
    step s = .next (afterTurn s k rest (setReset asserted u)) := by
  have hs : selected (turnTo s k rest) = some u := hu
  exact (step_turn h).trans (resetStep_eq asserted hs)

/-- A write to an instance held in reset, at whatever offset (R250). -/
theorem hostWrite_inReset {s : State} {u : Instance} (off : Nat) (v : Word) (hs : selected s = some u)
    (hr : u.inReset = true) : hostWrite off v s = .next s := by
  unfold hostWrite; rw [hs]; exact if_pos hr

end Sys2Proof.Machine

open Sys2Proof Sys2Proof.Machine

/-- Settles O7: a turn of the reset input does not ask what the instance is doing, and a write asks for the input's level
before anything else. -/
theorem resetInputAbandonsTheCommand : Obligations.ResetInputAbandonsTheCommand := by
  unfold Obligations.ResetInputAbandonsTheCommand
  refine ⟨fun s k rest u ht hu => ?_, fun s k rest u ht hu => ?_, fun s k off w rest u hnext hr => ?_⟩
  · rw [step_reset ht hu, setReset_true]
  · rw [step_reset ht hu, setReset_false]
  · obtain ⟨hstep, hs⟩ := step_nextWrite hnext
    exact hstep.trans (hostWrite_inReset off w hs hr)

end

section
/-!
PROOFS. State (10_state.md), the reset state (section 6) and what a step does while no move is pending (section 5).
-/

namespace Sys2Proof.Machine

/-! ## The reset state (R41) -/

/-- An instance right after reset is the instance held in reset with its input released (R250, R252). -/
theorem instanceOk_reset (p : Params) : InstanceOk p Instance.reset :=
  instanceOk_setReset (instanceOk_resetAsserted p) false

/-- At reset there is one window for each instance, and every instance is `Instance.reset`. -/
theorem inv_resetWith {p : Params} (hp : p.ok = true) : (State.resetWith p).Inv := by
  refine ⟨hp, List.length_map _, fun u hu => ?_⟩
  obtain ⟨b, -, rfl⟩ := List.mem_map.1 hu
  exact instanceOk_reset p

/-! ## The idle step (log entry 1) -/

/-- Only an instance the platform has is BUSY. -/
theorem lt_length_of_busyAt {s : State} {k : Nat} (h : busyAt s k = true) : k < s.insts.length := by
  unfold busyAt at h
  split at h
  next u hu => exact (List.getElem?_eq_some_iff.1 hu).1
  next => cases h

/-- A completion is enabled exactly when the sequencer's turn would take the instance out of BUSY (R40). -/
theorem completionOf_eq_some_iff {s t : State} {k : Nat} :
    completionOf s k = some t
      ↔ sequencerStep { s with sel := k } = .next t ∧ busyAt s k = true ∧ busyAt t k = false := by
  unfold completionOf
  split
  next t' hseq =>
    rw [hseq, Option.ite_none_right_eq_some, Bool.and_eq_true, Bool.not_eq_true', Option.some_inj,
      Host.Outcome.next.injEq]
    constructor
    · rintro ⟨hbusy, rfl⟩; exact ⟨rfl, hbusy⟩
    · rintro ⟨rfl, hbusy⟩; exact ⟨hbusy, rfl⟩
  next hne => exact ⟨nofun, fun ⟨hseq, _⟩ => absurd hseq (hne t)⟩

/-- The search of the idle step misses no instance: it finds nothing only when no completion is enabled. -/
theorem completionOf_eq_none {s : State} (h : (List.range s.insts.length).findSome? (completionOf s) = none) (k : Nat) :
    completionOf s k = none := by
  refine Option.eq_none_iff_forall_ne_some.2 fun t hk => ?_
  obtain ⟨-, hbusy, -⟩ := completionOf_eq_some_iff.1 hk
  have hmem : k ∈ List.range s.insts.length := List.mem_range.2 (lt_length_of_busyAt hbusy)
  rw [List.findSome?_eq_none_iff.1 h k hmem] at hk
  cases hk

/-- With no move pending the step is the idle step (log entry 1). -/
theorem step_idle {s : State} (h : s.turns = []) : step s = .next (idleStep s) := by
  simp only [step, machineStep, h]

end Sys2Proof.Machine

open Sys2Proof Sys2Proof.Machine

/-- Settles O10: the idle step takes the completion its search finds; a search that finds none has looked at every
instance. -/
theorem idleStepCompletesOrStands : Obligations.IdleStepCompletesOrStands := by
  unfold Obligations.IdleStepCompletesOrStands
  intro s hturns
  rw [step_idle hturns]
  unfold idleStep
  cases hfind : (List.range s.insts.length).findSome? (completionOf s) with
  | some t =>
    obtain ⟨k, -, hk⟩ := List.exists_of_findSome?_eq_some hfind
    exact .inr ⟨k, t, rfl, completionOf_eq_some_iff.1 hk⟩
  | none =>
    refine .inl ⟨rfl, fun k t hseq hbusy => Bool.eq_true_of_not_eq_false fun hidle => ?_⟩
    have hk : completionOf s k = some t := completionOf_eq_some_iff.2 ⟨hseq, hbusy, hidle⟩
    rw [completionOf_eq_none hfind k] at hk
    cases hk

/-- Settles O6: the parameters R5 suggests are one legal choice among all. -/
theorem resetIsLegal : Obligations.ResetIsLegal := by
  unfold Obligations.ResetIsLegal
  exact ⟨fun _ => inv_resetWith, inv_resetWith (by decide)⟩

end
